-- ==== Sys2Proof/Word.lean ====
section
/-! DEFINITION. The word and byte types of the block: every register and RAM word is one 32-bit value on the host
bus (20_memory R85), and the stream buffer is made of bytes (10_state R56). -/

namespace Sys2Proof

/-- One 32-bit value of the host bus: a register, a RAM word, the bits of a binary32 (R13, R85). -/
abbrev Word := BitVec 32

/-- One byte of the stream buffer (R56). -/
abbrev Byte := BitVec 8

/-- A byte offset in the 64 KiB host register space, `ADDR_BITS` = 16 (R80). -/
abbrev Offset := BitVec 16

end Sys2Proof
end

