-- ==== Sys2Proof/Syntax.lean ====
section
/-! DEFINITION. The commands of the block: one constructor per row of the opcode map (30_encoding R123). -/

namespace Sys2Proof

/-- A command with the operand fields its row uses (R123, R124). `slot` is a slot number 0 to 3, `ext` the EXT bit
(1 = extended 32-bit PatchIDs), `type` the layer type byte, `count` the number of patches. -/
inductive Instr where
  /-- NOP (R240). -/
  | nop
  /-- PRESCAN s (R170). -/
  | prescan (slot : Fin 4)
  /-- TRANSFORM s (R180). -/
  | transform (slot : Fin 4)
  /-- HDRENC s, ext (R200). -/
  | hdrenc (slot : Fin 4) (ext : Bool)
  /-- COEFENC s (R220). -/
  | coefenc (slot : Fin 4)
  /-- GHDR type (R242). -/
  | ghdr (type : BitVec 8)
  /-- TERM (R245). -/
  | term
  /-- SCLR (R247). -/
  | sclr
  /-- BUILD count, type, ext (R250). -/
  | build (count : Nat) (ext : Bool) (type : BitVec 8)
deriving DecidableEq, Repr

end Sys2Proof
end

