-- ==== Sys2Proof/WellFormed.lean ====
section
/-! DEFINITION. Which instruction terms stand for a command word. SLOT, EXT and TYPE are bounded by their types; the
one number a term can get wrong is COUNT, a 3-bit field (R120, R124). Counts 0 and 5 to 7 decode and are well-formed:
BUILD refuses them with BAD_COUNT when it runs (R124, R251). -/

namespace Sys2Proof

/-- The COUNT of a BUILD fits its 3-bit field; every other term is well-formed (R124). -/
def Instr.wellFormed : Instr → Bool
  | .nop => true
  | .prescan _ => true
  | .transform _ => true
  | .hdrenc _ _ => true
  | .coefenc _ => true
  | .ghdr _ => true
  | .term => true
  | .sclr => true
  | .build count _ _ => decide (count < 8)

end Sys2Proof
end

