-- ==== Sys2Proof/Decode.lean ====
section
/-! DEFINITION. Decoding a command word by the opcode map (30_encoding R122, R123), the encoder (R127), and
`decodeTableWord`, which the host asks with the words of spec/opcode_table.json. -/

namespace Sys2Proof

/-- One row of the opcode map (R123): a word `w` is of this row when `w &&& mask = pattern`. -/
structure OpcodeRow where
  mnemonic : String
  pattern : Word
  mask : Word
deriving DecidableEq, Repr

/-- The opcode map, row by row as R123 has it. -/
def opcodeMap : List OpcodeRow :=
  [ ⟨"NOP",       0x00000000, 0xFFFFFFFF⟩,
    ⟨"PRESCAN",   0x00000001, 0xFFFFFCFF⟩,
    ⟨"TRANSFORM", 0x00000002, 0xFFFFFCFF⟩,
    ⟨"HDRENC",    0x00000003, 0xFFFFDCFF⟩,
    ⟨"COEFENC",   0x00000004, 0xFFFFFCFF⟩,
    ⟨"GHDR",      0x00000005, 0xFF00FFFF⟩,
    ⟨"TERM",      0x00000006, 0xFFFFFFFF⟩,
    ⟨"SCLR",      0x00000007, 0xFFFFFFFF⟩,
    ⟨"BUILD",     0x00000008, 0xFF00C3FF⟩ ]

/-- The word is of this row (R122). -/
def OpcodeRow.matches (r : OpcodeRow) (w : Word) : Bool := w &&& r.mask == r.pattern

/-- A word is legal when some row of the opcode map matches it (R122). -/
def legalWord (w : Word) : Bool := opcodeMap.any (·.matches w)

/-- Why a word is illegal: the three bullets of R126. All three end with the one error code ILLEGAL (R262). -/
inductive DecodeReject where
  /-- OP is in 0x09 to 0xFF. -/
  | reservedOpcode (op : BitVec 8)
  /-- A bit in 15:14 or 31:24 is 1. -/
  | reservedBits
  /-- A field that the opcode does not use is not 0. -/
  | unusedField
deriving DecidableEq, Repr

/-- OP, bits 7:0 (R120). -/
def opField (w : Word) : BitVec 8 := w.extractLsb' 0 8

/-- SLOT, bits 9:8 (R120, R124). -/
def slotField (w : Word) : Fin 4 := (w.extractLsb' 8 2).toFin

/-- COUNT, bits 12:10 (R120, R124). -/
def countField (w : Word) : Nat := (w.extractLsb' 10 3).toNat

/-- EXT, bit 13 (R120, R124). -/
def extField (w : Word) : Bool := w.getLsbD 13

/-- TYPE, bits 23:16 (R120, R124). -/
def typeField (w : Word) : BitVec 8 := w.extractLsb' 16 8

/-- The name of an illegal word's rejection (R126). -/
def rejectReason (w : Word) : DecodeReject :=
  if 8 < (opField w).toNat then .reservedOpcode (opField w)
  else if w &&& 0xFF00C000 ≠ 0 then .reservedBits
  else .unusedField

/-- Decoding, total on every word: the matching row of the opcode map, or a rejection by name (R122 to R126). -/
def decode (w : Word) : Except DecodeReject Instr :=
  if w = 0x00000000 then .ok .nop
  else if w &&& 0xFFFFFCFF = 0x00000001 then .ok (.prescan (slotField w))
  else if w &&& 0xFFFFFCFF = 0x00000002 then .ok (.transform (slotField w))
  else if w &&& 0xFFFFDCFF = 0x00000003 then .ok (.hdrenc (slotField w) (extField w))
  else if w &&& 0xFFFFFCFF = 0x00000004 then .ok (.coefenc (slotField w))
  else if w &&& 0xFF00FFFF = 0x00000005 then .ok (.ghdr (typeField w))
  else if w = 0x00000006 then .ok .term
  else if w = 0x00000007 then .ok .sclr
  else if w &&& 0xFF00C3FF = 0x00000008 then .ok (.build (countField w) (extField w) (typeField w))
  else .error (rejectReason w)

/-- SLOT in place, `s << 8` (R127). -/
def slotBits (s : Fin 4) : Word := BitVec.ofNat 32 s.val <<< 8

/-- EXT in place, `ext << 13` (R127). -/
def extBits (e : Bool) : Word := (BitVec.ofBool e).setWidth 32 <<< 13

/-- TYPE in place, `type << 16` (R127). -/
def typeBits (t : BitVec 8) : Word := t.setWidth 32 <<< 16

/-- COUNT in place, the low 3 bits of `count << 10` (R127). -/
def countBits (c : Nat) : Word := (BitVec.ofNat 3 c).setWidth 32 <<< 10

/-- The command word of an instruction (R127). -/
def encode : Instr → Word
  | .nop => 0x00000000
  | .prescan s => 0x00000001 ||| slotBits s
  | .transform s => 0x00000002 ||| slotBits s
  | .hdrenc s e => 0x00000003 ||| slotBits s ||| extBits e
  | .coefenc s => 0x00000004 ||| slotBits s
  | .ghdr t => 0x00000005 ||| typeBits t
  | .term => 0x00000006
  | .sclr => 0x00000007
  | .build c e t => 0x00000008 ||| countBits c ||| extBits e ||| typeBits t

/-- The command word that bits `w`, of which the table gives `nbits`, stand for: every bit above `nbits` is 0, and a
command is one 32-bit word (R120). -/
def tableWord (nbits w : Nat) : Word := BitVec.ofNat 32 (w % 2 ^ nbits)

/-- The instruction the decoder reads from a table word, none where it rejects it. -/
def decodeTableWord (nbits w : Nat) : Option Instr :=
  match decode (tableWord nbits w) with
  | .ok i => some i
  | .error _ => none

end Sys2Proof
end

