-- ==== Sys2Proof/Machine/Float.lean ====
section
/-! DEFINITION. IEEE-754 binary32 as the block computes it (00_scope R9 to R15): round to nearest, ties to even,
subnormals kept, nothing fused. Every finite binary32 is a whole number of units of 2^-149, so each operation is exact
over integers and is rounded once at the end. -/

namespace Sys2Proof.Machine

/-- The biased exponent field, bits 30:23 (R13). -/
def f32Exp (w : Word) : Nat := w.toNat / 0x800000 % 0x100

/-- The fraction field, bits 22:0 (R13). -/
def f32Frac (w : Word) : Nat := w.toNat % 0x800000

/-- The sign bit, bit 31 (R13): true is negative. -/
def f32Neg (w : Word) : Bool := w.getLsbD 31

def isNaN (w : Word) : Bool := f32Exp w == 255 && f32Frac w != 0

def isInf (w : Word) : Bool := f32Exp w == 255 && f32Frac w == 0

def isFinite (w : Word) : Bool := f32Exp w != 255

/-- The magnitude of a finite binary32 in units of 2^-149. An infinity counts as 2^128, above every finite value. -/
def f32Units (w : Word) : Nat :=
  if f32Exp w = 0 then f32Frac w else (0x800000 + f32Frac w) <<< (f32Exp w - 1)

/-- The value of a finite binary32 in units of 2^-149, with its sign. -/
def f32Value (w : Word) : Int := if f32Neg w then -(f32Units w : Int) else (f32Units w : Int)

/-- The binary32 of a sign and the low 31 bits of its encoding. -/
def f32Make (neg : Bool) (mag : Nat) : Word := BitVec.ofNat 32 (if neg then 0x80000000 + mag else mag)

/-- The encoding of infinity without its sign. -/
def f32InfMag : Nat := 0x7F800000

/-- The 31 magnitude bits of the exact value `n / d` units of 2^-149, rounded to nearest, ties to even; a value that
rounds to 2^128 or more gives infinity (R10). With `k` the exponent of the unit in the last place, the encoding of
`m * 2^k` units is `k * 2^23 + m`, subnormals and the carry into the next exponent included. -/
def roundMag (n d : Nat) : Nat :=
  let q := n / d
  let k := if q < 0x1000000 then 0 else q.log2 - 23
  let u := d <<< k
  let m := n / u
  let r := n % u
  let m' := if u < 2 * r ∨ (2 * r = u ∧ m % 2 = 1) then m + 1 else m
  min (k * 0x800000 + m') f32InfMag

/-- The NaN of an invalid operation: its sign and payload are the free word's, any NaN encoding (R10, 93 part 1; log 2). -/
def nanOf (free : Word) : Word :=
  if f32Frac free = 0 then free ||| 0x7FC00000 else free ||| 0x7F800000

/-- `fadd(a, b)` (R10). An exact zero sum is +0 unless both operands are negative zeros. -/
def fadd (free a b : Word) : Word :=
  if isNaN a || isNaN b then nanOf free
  else if isInf a then (if isInf b && f32Neg a != f32Neg b then nanOf free else a)
  else if isInf b then b
  else
    let x := f32Value a + f32Value b
    if x = 0 then f32Make (f32Neg a && f32Neg b) 0
    else f32Make (decide (x < 0)) (roundMag x.natAbs 1)

/-- The operand with its sign bit inverted. -/
def fneg (a : Word) : Word := a ^^^ 0x80000000

/-- `fsub(a, b)` (R10). -/
def fsub (free a b : Word) : Word := fadd free a (fneg b)

/-- `fmul(a, b)` (R10). -/
def fmul (free a b : Word) : Word :=
  let neg := f32Neg a != f32Neg b
  if isNaN a || isNaN b then nanOf free
  else if isInf a then (if f32Units b = 0 then nanOf free else f32Make neg f32InfMag)
  else if isInf b then (if f32Units a = 0 then nanOf free else f32Make neg f32InfMag)
  else f32Make neg (roundMag (f32Units a * f32Units b) (1 <<< 149))

/-- `fdiv(a, b)` (R10). A finite nonzero value divided by zero gives infinity. -/
def fdiv (free a b : Word) : Word :=
  let neg := f32Neg a != f32Neg b
  if isNaN a || isNaN b then nanOf free
  else if isInf a then (if isInf b then nanOf free else f32Make neg f32InfMag)
  else if isInf b then f32Make neg 0
  else if f32Units b = 0 then (if f32Units a = 0 then nanOf free else f32Make neg f32InfMag)
  else f32Make neg (roundMag (f32Units a <<< 149) (f32Units b))

/-- `flt(a, b)`: false if either operand is a NaN; the zeros compare equal (R12). -/
def flt (a b : Word) : Bool := !isNaN a && !isNaN b && decide (f32Value a < f32Value b)

/-- `fgt(a, b)` (R12). -/
def fgt (a b : Word) : Bool := flt b a

/-- `f32_of_int(i)`: nearest, ties to even (R11). -/
def f32OfInt (i : Int) : Word := f32Make (decide (i < 0)) (roundMag (i.natAbs <<< 149) 1)

/-- `f32_pow2(p)`, exact for 0 to 17 (R11). -/
def f32Pow2 (p : Nat) : Word := BitVec.ofNat 32 ((127 + p) * 0x800000)

/-- The truncation toward zero of a finite binary32, over the integers (R14). -/
def truncInt (w : Word) : Int :=
  if f32Neg w then -((f32Units w >>> 149 : Nat) : Int) else ((f32Units w >>> 149 : Nat) : Int)

/-- The truncation of `w` is a signed 32-bit integer: `trunc_s32` states its result (R14). -/
def truncFits (w : Word) : Bool :=
  isFinite w && decide (-0x80000000 ≤ truncInt w) && decide (truncInt w < 0x80000000)

/-- `trunc_s32(f)`: toward zero; the free word where R14 leaves the result unspecified (log 3). -/
def truncS32 (free w : Word) : Word := if truncFits w then BitVec.ofInt 32 (truncInt w) else free

/-- `absu32(i)`: the magnitude of a signed 32-bit integer as a u32 (R15). -/
def absU32 (w : Word) : Word := if w.getLsbD 31 then -w else w

end Sys2Proof.Machine
end

