-- ==== Sys2Proof/Config.lean ====
section
/-! DEFINITION. What this hardware fixes (00_scope R6) and the one source of free values. -/

namespace Sys2Proof

/-- The bit order of `PackBits`: `msb` is this hardware (R91), `leb` the alternative of R92. -/
inductive PackOrder where
  | msb
  | leb
deriving DecidableEq, Repr

/-- The top of the wbits scan: `doc` is this hardware, `alt` the alternative of R203. -/
inductive ScanTop where
  | doc
  | alt
deriving DecidableEq, Repr

/-- `PACK_ORDER` (R6, R92): this hardware takes `MSB`. -/
def Config.packOrder : PackOrder := .msb

/-- `WSCAN_TOP` (R6, R203): this hardware takes `DOC`. -/
def Config.scanTop : ScanTop := .doc

/-- `QWB_INIT` (R6, R252): the QuantWBits that BUILD forces, and the reset value of QWB. -/
def Config.qwbInit : BitVec 8 := 0x88

/-- `STREAM_BYTES` (R6): the size of the stream buffer. -/
def Config.streamBytes : Nat := 4096

/-- 8·`STREAM_BYTES`: the most bits the stream can hold (R41, R95). -/
def Config.streamBits : Nat := 8 * Config.streamBytes

/-- `MAX_PATCHES` (R6, R251). -/
def Config.maxPatches : Nat := 4

/-- `STRIDE` of the GroupHeader (R6, R241). -/
def Config.stride : Word := 264

/-- `PATCH_SIZE` of the GroupHeader (R6, R241). -/
def Config.patchSize : Word := 16

/-- `END_OF_PATCHES`, the sentinel (R6, R245). -/
def Config.endOfPatches : Word := 97

/-- `WBITS_MIN` (R6, R205). -/
def Config.wbitsMin : Nat := 2

/-- `WBITS_MAX` (R6, R205). -/
def Config.wbitsMax : Nat := 17

/-- `LDCT_BASE` (R6, R80): the system address of offset 0, OPEN (log 19). -/
opaque Config.ldctBase : Nat

/-- `LDCT_IRQ_LINE` (R271): the interrupt line `irq` drives, OPEN (log 19). -/
opaque Config.ldctIrqLine : Nat

/-- FREE VALUES. Every value the spec leaves unspecified is `freeWord draw site` cut to its type: `draw` is the
counter `State.draws` when it was drawn, `site` tells apart the values of one draw. It has no body, so nothing can be
proved of it (93_implementation_defined part 1; log 1). -/
opaque Config.freeWord : Nat → Nat → Word

end Sys2Proof
end

