-- ==== Sys2Proof/Machine/State.lean ====
section
/-! DEFINITION. The state of the block as plain data: registers, slots, the RAMs as one memory, the command engine,
the host's coming accesses, and the reasons a step can stop. -/

namespace Sys2Proof.Machine

/-- The RAMs of the block (sample RAM, stream buffer, COEF, ROWBUF), byte by byte, keyed by the host byte offset
(R82). Canonical form: offsets strictly rising (`Memory.wf`). An unlisted byte holds NO value: it was never written
since power-on reset, the "unwritten" mark of R295. -/
abbrev Memory := List Host.Cell

/-- The registers of one slot (R43 to R52). Reserved bits hold nothing and read 0. -/
structure Slot where
  /-- POSX bits 15:0 (R44). -/
  posx : BitVec 16
  /-- POSY bits 15:0 (R45). -/
  posy : BitVec 16
  /-- QWB bits 7:0: prequant-2 in bits 7:4, wbits-2 in bits 3:0 (R46). -/
  qwb : BitVec 8
  /-- DCOFF, a binary32 (R47). -/
  dcoff : Word
  /-- RANGE, u32 (R48). -/
  range : Word
  /-- PATCHIDS, read-only to the host (R49). -/
  patchids : Word
  /-- SERIAL, u32, never 0 (R50). -/
  serial : Word
deriving DecidableEq, Repr

/-- The bits of STATUS (R34). Reserved bits hold nothing and read 0; `Status.toWord` is the register's value. -/
structure Status where
  /-- Bit 0: an accepted command runs (R35). -/
  busy : Bool
  /-- Bit 1: a command has ended (R36). -/
  done : Bool
  /-- Bit 2: a command has ended in error (R37). -/
  err : Bool
  /-- Bit 3: a host write was dropped because BUSY was 1 (R38). -/
  wdrop : Bool
  /-- Bit 4: a command word was dropped because BUSY was 1 (R39). -/
  cdrop : Bool
  /-- Bits 11:8: the error code of the most recent failing command (R37, R261). -/
  ecode : BitVec 4
deriving DecidableEq, Repr

/-- The command engine's internal state (R58). The host can see none of it. It means something only while a command
runs; while STATUS.BUSY = 0 it holds `Engine.idle`. -/
structure Engine where
  /-- The word of the running command. -/
  command : Word
  /-- Inside BUILD, the slot being encoded. -/
  slot : Fin 4
  /-- While TRANSFORM runs, `premult` (R183). -/
  premult : Word
  /-- While TRANSFORM runs, `sub` (R183). -/
  sub : Word
  /-- While TRANSFORM runs, the scaled block `b`, row-major (R185). -/
  block : List Word
deriving DecidableEq, Repr

/-- No command running (R290). The values are the model's (log 11). -/
def Engine.idle : Engine := { command := 0, slot := 0, premult := 0, sub := 0, block := [] }

/-- What a host access does (R80, R81). -/
inductive AccessKind where
  | read
  | write (value : Word)
deriving DecidableEq, Repr

/-- One host bus access: a byte offset, a width in bytes, and what it does (R81, R311). Only aligned 4-byte accesses
have a meaning. -/
structure Access where
  offset : Offset
  width : Nat
  kind : AccessKind
deriving DecidableEq, Repr

/-- One turn: which agent moves next and with what (R17; log 8). -/
inductive Turn where
  /-- The host makes one access. -/
  | host (a : Access)
  /-- The engine finishes the running command, if there is one (R310: after any finite number of host accesses). -/
  | engine
  /-- The platform asserts `rst` (R290, R311). -/
  | powerOn
  /-- The host is in the loop of WAIT (R128): it reads STATUS until bit 0 of what it read is 0. `n` is how many more passes
  find BUSY = 1 before the engine finishes (R310, LATENCY; log 8). -/
  | poll (n : Nat)
deriving DecidableEq, Repr

/-- The state of the block. -/
structure State where
  /-- CTRL.IE (R33). -/
  ie : Bool
  /-- STATUS (R34). -/
  status : Status
  /-- CMD: the last word written while BUSY = 0 (R40). -/
  cmd : Word
  /-- BITPOS (R41). -/
  bitpos : Word
  /-- The four slot register sets (R43). -/
  slots : Vector Slot 4
  /-- Sample RAM, stream buffer, COEF and ROWBUF (R53 to R56). -/
  mem : Memory
  /-- The command engine (R58). -/
  engine : Engine
  /-- The `bus_rdata` port: the data of the last host read (R311). -/
  rdata : Word
  /-- MODEL'S OWN: the turns still to come, next first (log 8). -/
  schedule : List Turn
  /-- MODEL'S OWN: how many draws of free values were made (log 1). -/
  draws : Nat
deriving DecidableEq, Repr

/-- Why a step stops with a fault. -/
inductive Fault where
  /-- "Read of unwritten state" (R295, 93_implementation_defined part 1): PRESCAN, TRANSFORM, BUILD, HDRENC or
  COEFENC reads the sample or COEF word at this offset, which nothing has written since power-on reset. Safe: the
  hardware goes on with unspecified results. -/
  | unwrittenState (offset : Nat)
deriving DecidableEq, Repr

/-- Why a step is refused. -/
inductive Refusal where
  /-- An arm of `exec` without a meaning. No arm uses it. Safe. -/
  | notModelled (mnemonic : String)
  /-- A host access of another width than 32 bits (R81): raised by the host's turn. Safe. -/
  | accessWidth (width : Nat)
  /-- A host access at an offset that is no multiple of 4 (R81): raised by the host's turn. Safe. -/
  | accessMisaligned (offset : Nat)
deriving DecidableEq, Repr

/-- The error codes a command can end with (R261). -/
inductive CmdError where
  /-- A CMD word that matches no row of the opcode map (R262). -/
  | illegal
  /-- BUILD with COUNT 0 or above 4 (R251). -/
  | badCount
  /-- TRANSFORM, alone or inside BUILD, with RANGE = 0 (R181, R266). -/
  | badRange
  /-- HDRENC, COEFENC or TERM whose bits do not fit (R265). -/
  | overflow
  /-- Reserved; never raised (R267). -/
  | shape
deriving DecidableEq, Repr

/-- How a command, or one stage of BUILD, ends: with its effects, with `raise CmdError(code)` at a state (R8, R260), or with
the model's fault (R295). -/
inductive CmdResult where
  | done (s : State)
  | error (e : CmdError) (s : State)
  | fault (f : Fault)
deriving Repr

/-- A slot's registers after reset (R290). -/
def Slot.reset : Slot :=
  { posx := 0, posy := 0, qwb := Config.qwbInit, dcoff := 0, range := 1, patchids := 0, serial := 1 }

/-- STATUS after reset (R290). -/
def Status.reset : Status :=
  { busy := false, done := false, err := false, wdrop := false, cdrop := false, ecode := 0 }

/-- The block after power-on reset (R290): the table's registers, nothing written in any RAM, no command running. The
read-data port and the model's own fields hold the values of log 1, 8 and 10. -/
def State.reset : State :=
  { ie := false, status := Status.reset, cmd := 0, bitpos := 0, slots := Vector.replicate 4 Slot.reset, mem := [],
    engine := Engine.idle, rdata := 0, schedule := [], draws := 0 }

end Sys2Proof.Machine
end

