-- ==== Sys2Proof/Machine/Flags.lean ====
section
/-! DEFINITION. The bits of STATUS and CTRL: the registers' values as the host reads them, the error codes, what a
write of ones to STATUS clears, and the interrupt output. -/

namespace Sys2Proof.Machine

/-- The error code of a command error, STATUS.ECODE (R261). -/
def CmdError.code : CmdError → BitVec 4
  | .illegal => 1
  | .badCount => 2
  | .badRange => 3
  | .overflow => 4
  | .shape => 5

/-- STATUS as one word: BUSY 0, DONE 1, ERR 2, WDROP 3, CDROP 4, ECODE 11:8, the rest 0 (R34). -/
def Status.toWord (t : Status) : Word :=
  (BitVec.ofBool t.busy).setWidth 32 ||| (BitVec.ofBool t.done).setWidth 32 <<< 1 |||
    (BitVec.ofBool t.err).setWidth 32 <<< 2 ||| (BitVec.ofBool t.wdrop).setWidth 32 <<< 3 |||
    (BitVec.ofBool t.cdrop).setWidth 32 <<< 4 ||| t.ecode.setWidth 32 <<< 8

/-- CTRL as one word: IE in bit 0; SRST and the reserved bits read 0 (R33). -/
def ctrlWord (ie : Bool) : Word := (BitVec.ofBool ie).setWidth 32

/-- A host write of `v` to STATUS: a 1 in bit 1, 3 or 4 clears that bit, a 1 in bit 2 clears ERR and ECODE; BUSY does
not change (R34, R35, R37). -/
def Status.clear (t : Status) (v : Word) : Status :=
  { t with
    done := t.done && !v.getLsbD 1
    err := t.err && !v.getLsbD 2
    ecode := if v.getLsbD 2 then 0 else t.ecode
    wdrop := t.wdrop && !v.getLsbD 3
    cdrop := t.cdrop && !v.getLsbD 4 }

/-- STATUS after the completion step: BUSY 0, DONE 1, and for an error ERR 1 and ECODE its code (R263, R36, R37). -/
def Status.complete (t : Status) (result : Option CmdError) : Status :=
  match result with
  | none => { t with busy := false, done := true }
  | some e => { t with busy := false, done := true, err := true, ecode := e.code }

/-- The interrupt output: DONE and IE (R270). -/
def irq (s : State) : Bool := s.status.done && s.ie

/-- The level of interrupt line `line` as far as this block drives it (R271; log 19). -/
def irqOnLine (s : State) (line : Nat) : Bool := line == Config.ldctIrqLine && irq s

end Sys2Proof.Machine
end

