-- ==== Sys2Proof/Machine/Memory.lean ====
section
/-! DEFINITION. The RAMs as one list of bytes in canonical form: reading a byte or a word, storing a run of bytes or
words. The byte order of a word is little-endian: R86 fixes it for the stream buffer, and no access can show it
elsewhere (R85; log 12). -/

namespace Sys2Proof.Machine

/-- The canonical form: offsets strictly rising. An unlisted byte reads as no value, so every entry differs from it. -/
abbrev Memory.wf (m : Memory) : Prop := m.Pairwise (fun x y => x.1 < y.1)

/-- The byte at an offset; none where nothing was written since power-on reset (R295). -/
def Memory.load (m : Memory) (a : Nat) : Option Byte := m.lookup a

/-- The cells of a run of bytes from an offset up. -/
def Memory.cells : Nat → List Byte → Memory
  | _, [] => []
  | a, b :: bs => (a, b) :: Memory.cells (a + 1) bs

/-- Stores a run of bytes from an offset up: the one write operation of every RAM. -/
def Memory.store (a : Nat) (bs : List Byte) (m : Memory) : Memory :=
  m.filter (fun c => decide (c.1 < a)) ++ Memory.cells a bs ++ m.filter (fun c => decide (a + bs.length ≤ c.1))

/-- The four bytes of a word, lowest offset first (R86). -/
def wordBytes (w : Word) : List Byte :=
  [w.extractLsb' 0 8, w.extractLsb' 8 8, w.extractLsb' 16 8, w.extractLsb' 24 8]

/-- The word of four bytes, `{b3, b2, b1, b0}` (R86). -/
def bytesWord (b0 b1 b2 b3 : Byte) : Word := b3 ++ b2 ++ b1 ++ b0

/-- The word at an offset; none where one of its bytes was never written. -/
def Memory.loadWord (m : Memory) (a : Nat) : Option Word :=
  match m.load a, m.load (a + 1), m.load (a + 2), m.load (a + 3) with
  | some b0, some b1, some b2, some b3 => some (bytesWord b0 b1 b2 b3)
  | _, _, _, _ => none

/-- Stores a run of words from an offset up. -/
def Memory.storeWords (a : Nat) (ws : List Word) (m : Memory) : Memory :=
  Memory.store a (ws.flatMap wordBytes) m

/-- Puts `f a` at every offset `a` from `lo` below `hi` that holds a value; one that holds none still holds none. -/
def Memory.refresh (lo hi : Nat) (f : Nat → Byte) (m : Memory) : Memory :=
  m.map fun c => (c.1, if lo ≤ c.1 ∧ c.1 < hi then f c.1 else c.2)

/-- Reads `n` words from an offset up, or answers the offset of the first one that is unwritten. -/
def Memory.loadWords (m : Memory) : Nat → Nat → Except Nat (List Word)
  | _, 0 => .ok []
  | a, n + 1 =>
    match m.loadWord a with
    | none => .error a
    | some w =>
      match Memory.loadWords m (a + 4) n with
      | .ok ws => .ok (w :: ws)
      | .error e => .error e

/-- Offset of the sample RAM of a slot (R53). -/
def sampleBase (n : Fin 4) : Nat := 0x1000 + 0x400 * n.val

/-- Offset of the stream buffer (R56). -/
def streamBase : Nat := 0x2000

/-- Offset of COEF (R54). -/
def coefBase : Nat := 0x3000

/-- Offset of ROWBUF (R55). -/
def rowbufBase : Nat := 0x3400

end Sys2Proof.Machine
end

