-- ==== Sys2Proof/Machine/Ops.lean ====
section
/-! DEFINITION. The operations commands share: slot registers, free values, ending a command (the block's form of
taking an exception) and sequencing the stages of BUILD. -/

namespace Sys2Proof.Machine

/-- The registers of slot `n` (R43). -/
def State.slot (s : State) (n : Fin 4) : Slot := s.slots[n]

/-- Changes the registers of slot `n` and nothing else. -/
def State.updateSlot (s : State) (n : Fin 4) (f : Slot → Slot) : State :=
  { s with slots := s.slots.set n (f (s.slot n)) }

/-- Changes the engine's internal state and nothing else (R58). -/
def State.withEngine (s : State) (e : Engine) : State := { s with engine := e }

/-- `n` free words of one draw, from a site up (log 1). -/
def freeWords (draw site n : Nat) : List Word := (List.range n).map fun k => Config.freeWord draw (site + k)

/-- `n` free bytes of one draw, from a site up (log 1). -/
def freeBytes (draw site n : Nat) : List Byte :=
  (List.range n).map fun k => (Config.freeWord draw (site + k)).setWidth 8

/-- THE COMPLETION STEP (R263), the one way a command ends: with `some e` it is the block's form of taking an exception
(STATUS.ERR and ECODE; nothing else is saved and control goes nowhere, R272). The engine is idle again. -/
def complete (result : Option CmdError) (s : State) : State :=
  { s with status := s.status.complete result, engine := Engine.idle }

/-- RETURN FROM AN ERROR, a host action: writing 1 to STATUS bit 2 clears ERR and ECODE, to bit 1 clears DONE (R273). -/
def clearStatus (v : Word) (s : State) : State := { s with status := s.status.clear v }

/-- Ends a command: its effects and the completion step in one (R100, R263), or the model's fault (R295). -/
def finish : CmdResult → Host.Outcome State Fault Refusal
  | .done s => .next (complete none s)
  | .error e s => .next (complete (some e) s)
  | .fault f => .fault f

/-- One stage after another inside a command: the first error or fault ends it (R268). -/
def CmdResult.andThen (r : CmdResult) (f : State → CmdResult) : CmdResult :=
  match r with
  | .done s => f s
  | .error e s => .error e s
  | .fault x => .fault x

end Sys2Proof.Machine
end

