-- ==== Sys2Proof/Machine/Operands.lean ====
section
/-! DEFINITION. The operands commands read: the samples of a slot, the coefficients, and the fields of QWB. A command
that reads a word still marked unwritten ends in the model's fault (R295). -/

namespace Sys2Proof.Machine

/-- The 256 samples of slot `n` in row-major order (R53), handed to the rest of the command. -/
def withSamples (n : Fin 4) (s : State) (f : List Word → CmdResult) : CmdResult :=
  match s.mem.loadWords (sampleBase n) 256 with
  | .ok ws => f ws
  | .error a => .fault (.unwrittenState a)

/-- `COEF[0..255]` (R54), handed to the rest of the command. -/
def withCoefs (s : State) (f : List Word → CmdResult) : CmdResult :=
  match s.mem.loadWords coefBase 256 with
  | .ok cs => f cs
  | .error a => .fault (.unwrittenState a)

/-- QWB[7:4] (R46). -/
def qwbHigh (q : BitVec 8) : Nat := (q.extractLsb' 4 4).toNat

/-- QWB[3:0] (R46). -/
def qwbLow (q : BitVec 8) : Nat := (q.extractLsb' 0 4).toNat

end Sys2Proof.Machine
end

