-- ==== Sys2Proof/Machine/Stream.lean ====
section
/-! DEFINITION. The bit-stream writer: `PackBits`, the stream buffer and BITPOS (20_memory R89 to R96). -/

namespace Sys2Proof.Machine

/-- The bits `v[lo+n-1]` down to `v[lo]`, most significant first. -/
def bitsDown (v : Word) (lo : Nat) : Nat → List Bool
  | 0 => []
  | n + 1 => v.getLsbD (lo + n) :: bitsDown v lo n

/-- The bits `PackBits(v, n)` appends: `msb` is R91, `leb` the alternative of R92. -/
def packBits (order : PackOrder) (v : Word) (n : Nat) : List Bool :=
  match order with
  | .msb => bitsDown v 0 n
  | .leb => (List.range (n / 8)).flatMap (fun i => bitsDown v (8 * i) 8) ++ bitsDown v (8 * (n / 8)) (n % 8)

/-- `PackBits(v, n)` in this hardware's order (R91, R96). -/
def pack (v : Word) (n : Nat) : List Bool := packBits Config.packOrder v n

/-- The byte whose bits are `b7` first, `b0` last. -/
def byteOfBits (b7 b6 b5 b4 b3 b2 b1 b0 : Bool) : Byte :=
  BitVec.ofNat 8 (128 * b7.toNat + 64 * b6.toNat + 32 * b5.toNat + 16 * b4.toNat + 8 * b3.toNat + 4 * b2.toNat +
    2 * b1.toNat + b0.toNat)

/-- Stream bits as bytes, the first bit in the most significant place; the last byte is filled with zeros (R89, R93). -/
def packBytes : List Bool → List Byte
  | [] => []
  | [a] => [byteOfBits a false false false false false false false]
  | [a, b] => [byteOfBits a b false false false false false false]
  | [a, b, c] => [byteOfBits a b c false false false false false]
  | [a, b, c, d] => [byteOfBits a b c d false false false false]
  | [a, b, c, d, e] => [byteOfBits a b c d e false false false]
  | [a, b, c, d, e, f] => [byteOfBits a b c d e f false false]
  | [a, b, c, d, e, f, g] => [byteOfBits a b c d e f g false]
  | a :: b :: c :: d :: e :: f :: g :: h :: rest => byteOfBits a b c d e f g h :: packBytes rest

/-- Bit `t` of the stream: bit `7 - (t mod 8)` of stream byte `t / 8` (R89). -/
def streamBit (m : Memory) (t : Nat) : Bool := ((m.load (streamBase + t / 8)).getD 0).getLsbD (7 - t % 8)

/-- The stream `S`, bits 0 to BITPOS-1 (R89). -/
def streamOf (s : State) : List Bool := (List.range s.bitpos.toNat).map (streamBit s.mem)

/-- STREAMLEN = (BITPOS + 7) >> 3 (R42). -/
def streamLen (s : State) : Nat := (s.bitpos.toNat + 7) / 8

/-- `S <- empty` (R90): BITPOS becomes 0; the buffer's bytes stay, and read as unspecified (R56). -/
def clearStream (s : State) : State := { s with bitpos := 0 }

/-- `L` more bits do not fit in the stream buffer (R95). -/
def overflows (s : State) (l : Nat) : Bool := decide (Config.streamBits < s.bitpos.toNat + l)

/-- Appends bits to the stream (R89, R91): the bits already in the last byte are kept, the rest of it and the bytes
after it take the new bits, and the fill of the last byte is zero (R93). -/
def appendBits (bits : List Bool) (s : State) : State :=
  let pos := s.bitpos.toNat
  let kept := (List.range (pos % 8)).map fun i => streamBit s.mem (8 * (pos / 8) + i)
  { s with
    mem := s.mem.store (streamBase + pos / 8) (packBytes (kept ++ bits))
    bitpos := BitVec.ofNat 32 (pos + bits.length) }

end Sys2Proof.Machine
end

