-- ==== Sys2Proof/Machine/Coefficients.lean ====
section
/-! DEFINITION. COEFENC: the run-length zero and sign-magnitude token stream (44_coefficients R220 to R230). -/

namespace Sys2Proof.Machine

/-- The width `w = QWB[3:0] + 2` (R221). -/
def coefWidth (q : BitVec 8) : Nat := qwbLow q + 2

/-- The magnitude of a coefficient, replaced by `1 << w` where it is greater (R224). -/
def clipMagnitude (w : Nat) (c : Word) : Word :=
  if 2 ^ w < (absU32 c).toNat then BitVec.ofNat 32 (2 ^ w) else absU32 c

/-- The token of a nonzero coefficient: the sign marker `110` or `111`, then the low `w` bits of the magnitude (R224). -/
def valueToken (w : Nat) (c : Word) : List Bool :=
  true :: true :: c.getLsbD 31 :: pack (clipMagnitude w c) w

/-- The token stream: `0` for a zero, `10` and the end at a zero after which all are zero, a value token otherwise;
no end marker after a nonzero last coefficient (R220, R222 to R225). -/
def tokens (w : Nat) : List Word → List Bool
  | [] => []
  | c :: cs =>
    if c = 0 then
      if cs.all (· == 0) then [true, false] else false :: tokens w cs
    else valueToken w c ++ tokens w cs

/-- The coefficients up to the last nonzero one (R226). -/
def usedCoefs (cs : List Word) : List Word := (cs.reverse.dropWhile (· == 0)).reverse

/-- `CoefLength(w)`: 1 or 3 + w for each coefficient up to the last nonzero one, and 2 if it is not the last of all (R226). -/
def coefLength (w : Nat) (cs : List Word) : Nat :=
  ((usedCoefs cs).map fun c => if c = 0 then 1 else 3 + w).sum + (if (usedCoefs cs).length < cs.length then 2 else 0)

/-- COEFENC with the width of slot `n`, less the completion (R220); the overflow check comes before any bit (R226). -/
def coefencStage (n : Fin 4) (s : State) : CmdResult :=
  withCoefs s fun cs =>
    let w := coefWidth (s.slot n).qwb
    if overflows s (coefLength w cs) then .error .overflow s else .done (appendBits (tokens w cs) s)

/-- COEFENC s (R220). -/
def execCoefenc (n : Fin 4) (s : State) : Host.Outcome State Fault Refusal := finish (coefencStage n s)

end Sys2Proof.Machine
end

