-- ==== Sys2Proof/Machine/Header.lean ====
section
/-! DEFINITION. HDRENC: the choice of wbits, PatchIDs and the PatchHeader (43_header R200 to R214). -/

namespace Sys2Proof.Machine

/-- `minW = (QWB[3:0] + 2) >> 1` (R202). -/
def minWidth (q : BitVec 8) : Nat := (qwbLow q + 2) / 2

/-- The top bit of the scan: `doc` is this hardware, `alt` the alternative (R203). -/
def maxWidth (top : ScanTop) (q : BitVec 8) : Nat :=
  match top with
  | .doc => minWidth q + 5
  | .alt => qwbLow q + 7

/-- The highest set bit of `v` from bit `j` down to bit `lo + 1` (R204). -/
def scanBit (v : Word) (lo : Nat) : Nat → Option Nat
  | 0 => none
  | j + 1 => if j + 1 ≤ lo then none else if v.getLsbD (j + 1) then some (j + 1) else scanBit v lo j

/-- One coefficient of the scan: it may raise `w` (R204). -/
def raiseWidth (lo hi w : Nat) (c : Word) : Nat :=
  if c = 0 then w
  else
    match scanBit (absU32 c) lo hi with
    | some j => if w < j then j else w
    | none => w

/-- The closed range [2, 17] (R205). -/
def clampWidth (w : Nat) : Nat :=
  let w := if w < Config.wbitsMin then Config.wbitsMin else w
  if Config.wbitsMax < w then Config.wbitsMax else w

/-- `wbits` chosen for the coefficients: scan, add 1, clamp (R202 to R205). -/
def chooseWidth (top : ScanTop) (q : BitVec 8) (cs : List Word) : Nat :=
  clampWidth (cs.foldl (raiseWidth (minWidth q) (maxWidth top q)) (minWidth q) + 1)

/-- QWB with `wbits - 2` in its low nibble, the high nibble kept (R206). -/
def qwbWithWidth (q : BitVec 8) (w : Nat) : BitVec 8 := (q &&& 0xF0) ||| BitVec.ofNat 8 (w - 2)

/-- PatchIDs: X in bits 9:5 and Y in bits 4:0, or X in the high half and Y in the low half (R207, R208). -/
def patchId (ext : Bool) (x y : BitVec 16) : Word :=
  if ext then x ++ y else (x.extractLsb' 0 5 ++ y.extractLsb' 0 5).setWidth 32

/-- The length of a PatchHeader (R210). -/
def headerLength (ext : Bool) : Nat := if ext then 88 else 66

/-- The bits of a PatchHeader: QWB, DCOFF, RANGE[15:0], PatchIDs (R209). -/
def headerBits (r : Slot) (ext : Bool) : List Bool :=
  pack (r.qwb.setWidth 32) 8 ++ pack r.dcoff 32 ++ pack r.range 16 ++ pack r.patchids (if ext then 32 else 10)

/-- The slot registers after HDRENC with width `w`: QWB[3:0] and PATCHIDS (R206 to R208). -/
def headerSlot (w : Nat) (ext : Bool) (r : Slot) : Slot :=
  { r with qwb := qwbWithWidth r.qwb w, patchids := patchId ext r.posx r.posy }

/-- HDRENC on slot `n`, less the completion (R200); the overflow check comes first (R201). -/
def hdrencStage (n : Fin 4) (ext : Bool) (s : State) : CmdResult :=
  if overflows s (headerLength ext) then .error .overflow s
  else
    withCoefs s fun cs =>
      let t := s.updateSlot n (headerSlot (chooseWidth Config.scanTop (s.slot n).qwb cs) ext)
      .done (appendBits (headerBits (t.slot n) ext) t)

/-- HDRENC s, ext (R200). -/
def execHdrenc (n : Fin 4) (ext : Bool) (s : State) : Host.Outcome State Fault Refusal := finish (hdrencStage n ext s)

end Sys2Proof.Machine
end

