-- ==== Sys2Proof/Machine/Prescan.lean ====
section
/-! DEFINITION. PRESCAN: the minimum and the range of a slot's samples (41_prescan R170 to R177). -/

namespace Sys2Proof.Machine

/-- `zmin`: it starts at sample (0,0) and takes each later sample that compares strictly less (R171). -/
def prescanMin (ws : List Word) : Word := ws.tail.foldl (fun z v => if flt v z then v else z) (ws.headD 0)

/-- `zmax`: it starts at sample (0,0) and takes each later sample that compares strictly greater (R171). -/
def prescanMax (ws : List Word) : Word := ws.tail.foldl (fun z v => if fgt v z then v else z) (ws.headD 0)

/-- `RANGE <- u32(trunc_s32(fsub(zmax, zmin)) + 1)` (R173); unspecified where R176 says so (log 4). -/
def prescanRange (free : Nat → Word) (ws : List Word) : Word :=
  truncS32 (free 1) (fsub (free 0) (prescanMax ws) (prescanMin ws)) + 1

/-- PRESCAN on slot `n`, less the completion (R170, R172, R173). -/
def prescanStage (n : Fin 4) (s : State) : CmdResult :=
  withSamples n s fun ws =>
    .done { s.updateSlot n (fun r =>
              { r with dcoff := prescanMin ws, range := prescanRange (Config.freeWord s.draws) ws }) with
            draws := s.draws + 1 }

/-- PRESCAN s (R170). -/
def execPrescan (n : Fin 4) (s : State) : Host.Outcome State Fault Refusal := finish (prescanStage n s)

end Sys2Proof.Machine
end

