-- ==== Sys2Proof/Machine/Tables.lean ====
section
/-! DEFINITION. The constant tables COS, QNT, DEQ and ZIG (40_tables R150 to R159): ROMs that no command, write or
reset changes. -/

namespace Sys2Proof.Machine

/-- COS, row `u`, column `n`: `bits32` of the binary32 nearest to cos((2n+1)uπ/32) (R151). -/
def cosRows : List (List Word) :=
  [ [0x3F800000, 0x3F800000, 0x3F800000, 0x3F800000, 0x3F800000, 0x3F800000, 0x3F800000, 0x3F800000,
     0x3F800000, 0x3F800000, 0x3F800000, 0x3F800000, 0x3F800000, 0x3F800000, 0x3F800000, 0x3F800000],
    [0x3F7EC46D, 0x3F74FA0B, 0x3F61C598, 0x3F45E403, 0x3F226799, 0x3EF15AEA, 0x3E94A031, 0x3DC8BD36,
     0xBDC8BD36, 0xBE94A031, 0xBEF15AEA, 0xBF226799, 0xBF45E403, 0xBF61C598, 0xBF74FA0B, 0xBF7EC46D],
    [0x3F7B14BE, 0x3F54DB31, 0x3F0E39DA, 0x3E47C5C2, 0xBE47C5C2, 0xBF0E39DA, 0xBF54DB31, 0xBF7B14BE,
     0xBF7B14BE, 0xBF54DB31, 0xBF0E39DA, 0xBE47C5C2, 0x3E47C5C2, 0x3F0E39DA, 0x3F54DB31, 0x3F7B14BE],
    [0x3F74FA0B, 0x3F226799, 0x3DC8BD36, 0xBEF15AEA, 0xBF61C598, 0xBF7EC46D, 0xBF45E403, 0xBE94A031,
     0x3E94A031, 0x3F45E403, 0x3F7EC46D, 0x3F61C598, 0x3EF15AEA, 0xBDC8BD36, 0xBF226799, 0xBF74FA0B],
    [0x3F6C835E, 0x3EC3EF15, 0xBEC3EF15, 0xBF6C835E, 0xBF6C835E, 0xBEC3EF15, 0x3EC3EF15, 0x3F6C835E,
     0x3F6C835E, 0x3EC3EF15, 0xBEC3EF15, 0xBF6C835E, 0xBF6C835E, 0xBEC3EF15, 0x3EC3EF15, 0x3F6C835E],
    [0x3F61C598, 0x3DC8BD36, 0xBF45E403, 0xBF74FA0B, 0xBE94A031, 0x3F226799, 0x3F7EC46D, 0x3EF15AEA,
     0xBEF15AEA, 0xBF7EC46D, 0xBF226799, 0x3E94A031, 0x3F74FA0B, 0x3F45E403, 0xBDC8BD36, 0xBF61C598],
    [0x3F54DB31, 0xBE47C5C2, 0xBF7B14BE, 0xBF0E39DA, 0x3F0E39DA, 0x3F7B14BE, 0x3E47C5C2, 0xBF54DB31,
     0xBF54DB31, 0x3E47C5C2, 0x3F7B14BE, 0x3F0E39DA, 0xBF0E39DA, 0xBF7B14BE, 0xBE47C5C2, 0x3F54DB31],
    [0x3F45E403, 0xBEF15AEA, 0xBF74FA0B, 0x3DC8BD36, 0x3F7EC46D, 0x3E94A031, 0xBF61C598, 0xBF226799,
     0x3F226799, 0x3F61C598, 0xBE94A031, 0xBF7EC46D, 0xBDC8BD36, 0x3F74FA0B, 0x3EF15AEA, 0xBF45E403],
    [0x3F3504F3, 0xBF3504F3, 0xBF3504F3, 0x3F3504F3, 0x3F3504F3, 0xBF3504F3, 0xBF3504F3, 0x3F3504F3,
     0x3F3504F3, 0xBF3504F3, 0xBF3504F3, 0x3F3504F3, 0x3F3504F3, 0xBF3504F3, 0xBF3504F3, 0x3F3504F3],
    [0x3F226799, 0xBF61C598, 0xBE94A031, 0x3F7EC46D, 0xBDC8BD36, 0xBF74FA0B, 0x3EF15AEA, 0x3F45E403,
     0xBF45E403, 0xBEF15AEA, 0x3F74FA0B, 0x3DC8BD36, 0xBF7EC46D, 0x3E94A031, 0x3F61C598, 0xBF226799],
    [0x3F0E39DA, 0xBF7B14BE, 0x3E47C5C2, 0x3F54DB31, 0xBF54DB31, 0xBE47C5C2, 0x3F7B14BE, 0xBF0E39DA,
     0xBF0E39DA, 0x3F7B14BE, 0xBE47C5C2, 0xBF54DB31, 0x3F54DB31, 0x3E47C5C2, 0xBF7B14BE, 0x3F0E39DA],
    [0x3EF15AEA, 0xBF7EC46D, 0x3F226799, 0x3E94A031, 0xBF74FA0B, 0x3F45E403, 0x3DC8BD36, 0xBF61C598,
     0x3F61C598, 0xBDC8BD36, 0xBF45E403, 0x3F74FA0B, 0xBE94A031, 0xBF226799, 0x3F7EC46D, 0xBEF15AEA],
    [0x3EC3EF15, 0xBF6C835E, 0x3F6C835E, 0xBEC3EF15, 0xBEC3EF15, 0x3F6C835E, 0xBF6C835E, 0x3EC3EF15,
     0x3EC3EF15, 0xBF6C835E, 0x3F6C835E, 0xBEC3EF15, 0xBEC3EF15, 0x3F6C835E, 0xBF6C835E, 0x3EC3EF15],
    [0x3E94A031, 0xBF45E403, 0x3F7EC46D, 0xBF61C598, 0x3EF15AEA, 0x3DC8BD36, 0xBF226799, 0x3F74FA0B,
     0xBF74FA0B, 0x3F226799, 0xBDC8BD36, 0xBEF15AEA, 0x3F61C598, 0xBF7EC46D, 0x3F45E403, 0xBE94A031],
    [0x3E47C5C2, 0xBF0E39DA, 0x3F54DB31, 0xBF7B14BE, 0x3F7B14BE, 0xBF54DB31, 0x3F0E39DA, 0xBE47C5C2,
     0xBE47C5C2, 0x3F0E39DA, 0xBF54DB31, 0x3F7B14BE, 0xBF7B14BE, 0x3F54DB31, 0xBF0E39DA, 0x3E47C5C2],
    [0x3DC8BD36, 0xBE94A031, 0x3EF15AEA, 0xBF226799, 0x3F45E403, 0xBF61C598, 0x3F74FA0B, 0xBF7EC46D,
     0x3F7EC46D, 0xBF74FA0B, 0x3F61C598, 0xBF45E403, 0x3F226799, 0xBEF15AEA, 0x3E94A031, 0xBDC8BD36] ]

/-- Row `u` of COS. -/
def cosRow (u : Nat) : List Word := cosRows.getD u []

/-- `COS[u][n]` (R151). -/
def cosAt (u n : Nat) : Word := (cosRow u).getD n 0

/-- The 31 values of QNT by `d = i + j` (R153). -/
def qntByDiagonal : List Word :=
  [ 0x3F800000, 0x3EAAAAAB, 0x3E4CCCCD, 0x3E124925, 0x3DE38E39, 0x3DBA2E8C, 0x3D9D89D9, 0x3D888889,
    0x3D70F0F1, 0x3D579436, 0x3D430C31, 0x3D321643, 0x3D23D70A, 0x3D17B426, 0x3D0D3DCB, 0x3D042108,
    0x3CF83E10, 0x3CEA0EA1, 0x3CDD67C9, 0x3CD20D21, 0x3CC7CE0C, 0x3CBE82FA, 0x3CB60B61, 0x3CAE4C41,
    0x3CA72F05, 0x3CA0A0A1, 0x3C9A90E8, 0x3C94F209, 0x3C8FB824, 0x3C8AD8F3, 0x3C864B8A ]

/-- `QNT[j][i]`, the binary32 nearest to 1/(1 + 2(i+j)) (R153). -/
def qntAt (j i : Nat) : Word := qntByDiagonal.getD (j + i) 0

/-- `DEQ[j][i] = 1 + 2(i + j)` as a binary32 (R152). -/
def deqAt (j i : Nat) : Word := f32OfInt (1 + 2 * ((i : Int) + (j : Int)))

/-- `K = 1/√2` of the transform (R154). -/
def dctK : Word := 0x3F3504F3

/-- `2/16`, the binary32 0.125 (R180, R188). -/
def dctE : Word := 0x3E000000

/-- ZIG, row `j`, column `i`: the zigzag index of natural position (j, i), row by row (R156). -/
def zigList : List Nat :=
  [ 0, 1, 5, 6, 14, 15, 27, 28, 44, 45, 65, 66, 90, 91, 119, 120,
    2, 4, 7, 13, 16, 26, 29, 43, 46, 64, 67, 89, 92, 118, 121, 150,
    3, 8, 12, 17, 25, 30, 42, 47, 63, 68, 88, 93, 117, 122, 149, 151,
    9, 11, 18, 24, 31, 41, 48, 62, 69, 87, 94, 116, 123, 148, 152, 177,
    10, 19, 23, 32, 40, 49, 61, 70, 86, 95, 115, 124, 147, 153, 176, 178,
    20, 22, 33, 39, 50, 60, 71, 85, 96, 114, 125, 146, 154, 175, 179, 200,
    21, 34, 38, 51, 59, 72, 84, 97, 113, 126, 145, 155, 174, 180, 199, 201,
    35, 37, 52, 58, 73, 83, 98, 112, 127, 144, 156, 173, 181, 198, 202, 219,
    36, 53, 57, 74, 82, 99, 111, 128, 143, 157, 172, 182, 197, 203, 218, 220,
    54, 56, 75, 81, 100, 110, 129, 142, 158, 171, 183, 196, 204, 217, 221, 234,
    55, 76, 80, 101, 109, 130, 141, 159, 170, 184, 195, 205, 216, 222, 233, 235,
    77, 79, 102, 108, 131, 140, 160, 169, 185, 194, 206, 215, 223, 232, 236, 245,
    78, 103, 107, 132, 139, 161, 168, 186, 193, 207, 214, 224, 231, 237, 244, 246,
    104, 106, 133, 138, 162, 167, 187, 192, 208, 213, 225, 230, 238, 243, 247, 252,
    105, 134, 137, 163, 166, 188, 191, 209, 212, 226, 229, 239, 242, 248, 251, 253,
    135, 136, 164, 165, 189, 190, 210, 211, 227, 228, 240, 241, 249, 250, 254, 255 ]

/-- `ZIG[j][i]` (R156). -/
def zigAt (j i : Nat) : Nat := zigList.getD (16 * j + i) 0

/-- The state of the zigzag traversal (R157): `i` the column, `j` the row. -/
structure ZigWalk where
  diag : Bool
  right : Bool
  i : Nat
  j : Nat
deriving DecidableEq, Repr

/-- One step of the zigzag traversal (R157). -/
def ZigWalk.next (z : ZigWalk) : ZigWalk :=
  if !z.diag then
    if z.right then
      (if z.i < 15 then { z with i := z.i + 1, right := false, diag := true }
       else { z with j := z.j + 1, right := false, diag := true })
    else
      (if z.j < 15 then { z with j := z.j + 1, right := true, diag := true }
       else { z with i := z.i + 1, right := true, diag := true })
  else
    if z.right then { z with i := z.i + 1, j := z.j - 1, diag := !(z.i + 1 == 15 || z.j - 1 == 0) }
    else { z with i := z.i - 1, j := z.j + 1, diag := !(z.j + 1 == 15 || z.i - 1 == 0) }

/-- The positions `16j + i` that the traversal of R157 visits in its next steps, in order. -/
def zigWalk : Nat → ZigWalk → List Nat
  | 0, _ => []
  | k + 1, z => if z.i < 16 ∧ z.j < 16 then (16 * z.j + z.i) :: zigWalk k z.next else []

/-- The natural positions in zigzag order, as the traversal of R157 visits them. -/
def zigTraversal : List Nat := zigWalk 256 { diag := false, right := true, i := 0, j := 0 }

end Sys2Proof.Machine
end

