-- ==== Sys2Proof/Machine/Transform.lean ====
section
/-! DEFINITION. TRANSFORM: scaling, the row pass, the column pass, quantization, truncation and the zigzag reorder
(42_transform R180 to R194). `free k` is the free word of site `k`: every operation has a site of its own (log 2). -/

namespace Sys2Proof.Machine

/-- The prequant bit count `P = QWB[7:4] + 2` (R182). -/
def prequant (q : BitVec 8) : Nat := qwbHigh q + 2

/-- `premult` (R183). RANGE is unsigned (R48; log 28). -/
def premultOf (free : Nat → Word) (p : Nat) (range : Word) : Word :=
  fdiv (free 512) (f32Pow2 p) (f32OfInt (range.toNat : Int))

/-- `sub` (R183). -/
def subOf (free : Nat → Word) (p : Nat) (dcoff premult : Word) : Word :=
  fadd (free 514) (f32Pow2 (p - 1)) (fmul (free 513) dcoff premult)

/-- The scaled block `b`, row-major (R185). -/
def scaledBlock (free : Nat → Word) (premult sub : Word) (ws : List Word) : List Word :=
  ws.zipIdx.map fun x => fsub (free (2 * x.2 + 1)) (fmul (free (2 * x.2)) x.1 premult) sub

/-- `SUM_n t(n)`: one accumulator from +0.0, terms added in ascending n (R187). -/
def sumSeq (free : Nat → Word) (ts : List Word) : Word :=
  ts.zipIdx.foldl (fun acc x => fadd (free x.2) acc x.1) 0

/-- One output of a 16-point line, before the column scaling: `K·Σ x` for frequency 0, `Σ x[n]·COS[u][n]` above, each
product rounded before it is added (R186 to R188). -/
def dctLine (free : Nat → Word) (u : Nat) (xs : List Word) : Word :=
  if u = 0 then fmul (free 32) dctK (sumSeq free xs)
  else sumSeq free ((xs.zip (cosRow u)).zipIdx.map fun x => fmul (free (16 + x.2)) x.1.1 x.1.2)

/-- Row `r` of a row-major 16x16 list. -/
def lineOf (r : Nat) (b : List Word) : List Word := (b.drop (16 * r)).take 16

/-- Column `c` of a row-major 16x16 list. -/
def columnOf (c : Nat) (b : List Word) : List Word := (List.range 16).map fun n => b.getD (16 * n + c) 0

/-- The sites of output word `k` of the row pass. -/
def rowSites (free : Nat → Word) (k : Nat) : Nat → Word := fun j => free (1024 + 64 * k + j)

/-- The sites of natural position `p` in the column pass. -/
def columnSites (free : Nat → Word) (p : Nat) : Nat → Word := fun j => free (17408 + 64 * p + j)

/-- `ROWBUF[16r + u]` for r and u in 0..15 (R186). -/
def rowValue (free : Nat → Word) (b : List Word) (r u : Nat) : Word :=
  dctLine (rowSites free (16 * r + u)) u (lineOf r b)

/-- The row pass: `ROWBUF[0..255]` (R186). -/
def rowPass (free : Nat → Word) (b : List Word) : List Word :=
  (List.range 256).map fun k => rowValue free b (k / 16) (k % 16)

/-- The column-pass value `g` for vertical frequency `u` and column `c`: K first, then 0.125, then QNT (R188). -/
def columnValue (free : Nat → Word) (rows : List Word) (u c : Nat) : Word :=
  let f := columnSites free (16 * u + c)
  fmul (f 34) (fmul (f 33) (dctLine f u (columnOf c rows)) dctE) (qntAt u c)

/-- The integer of natural position (u, c) (R189). -/
def coefValue (free : Nat → Word) (rows : List Word) (u c : Nat) : Word :=
  truncS32 (columnSites free (16 * u + c) 35) (columnValue free rows u c)

/-- The zigzag reorder unit: the value of natural position `p` goes to index `ZIG[p]` (R158). -/
def zigReorder (values : List Word) : List Word :=
  (zigList.zip values).foldl (fun acc x => acc.set x.1 x.2) (List.replicate 256 0)

/-- The column pass, truncation and reorder: `COEF[0..255]` (R188 to R190). -/
def columnPass (free : Nat → Word) (rows : List Word) : List Word :=
  zigReorder ((List.range 256).map fun p => coefValue free rows (p / 16) (p % 16))

/-- The engine scales the samples of slot `n`: `premult`, `sub` and `b` (R182, R183, R185, R58). -/
def scaleSamples (n : Fin 4) (ws : List Word) (s : State) : State :=
  let free := Config.freeWord s.draws
  let p := prequant (s.slot n).qwb
  let premult := premultOf free p (s.slot n).range
  let sub := subOf free p (s.slot n).dcoff premult
  s.withEngine { s.engine with premult := premult, sub := sub, block := scaledBlock free premult sub ws }

/-- The two passes over the scaled block: ROWBUF and COEF are written (R186 to R190). -/
def transformPasses (s : State) : State :=
  let free := Config.freeWord s.draws
  let rows := rowPass free s.engine.block
  { s with
    mem := (s.mem.storeWords rowbufBase rows).storeWords coefBase (columnPass free rows)
    draws := s.draws + 1 }

/-- TRANSFORM on slot `n`, less the completion (R180): RANGE is checked before anything is read or written (R181). -/
def transformStage (n : Fin 4) (s : State) : CmdResult :=
  if (s.slot n).range = 0 then .error .badRange s
  else withSamples n s fun ws => .done (transformPasses (scaleSamples n ws s))

/-- TRANSFORM s (R180). -/
def execTransform (n : Fin 4) (s : State) : Host.Outcome State Fault Refusal := finish (transformStage n s)

end Sys2Proof.Machine
end

