-- ==== Sys2Proof/Machine/Message.lean ====
section
/-! DEFINITION. NOP, the commands that frame a message (GHDR, TERM, SCLR) and BUILD, the message assembler
(45_message R240 to R257). -/

namespace Sys2Proof.Machine

/-- NOP: nothing but the completion (R240). -/
def execNop (s : State) : Host.Outcome State Fault Refusal := finish (.done s)

/-- The GroupHeader: Stride 16 bits, PatchSize 8, Type 8 (R241, R242). -/
def groupHeaderBits (type : BitVec 8) : List Bool :=
  pack Config.stride 16 ++ pack Config.patchSize 8 ++ pack (type.setWidth 32) 8

/-- GHDR, less the completion: clear the stream, append the GroupHeader (R242). -/
def ghdrStage (type : BitVec 8) (s : State) : CmdResult := .done (appendBits (groupHeaderBits type) (clearStream s))

/-- GHDR type (R242). -/
def execGhdr (type : BitVec 8) (s : State) : Host.Outcome State Fault Refusal := finish (ghdrStage type s)

/-- TERM, less the completion: append the 8-bit sentinel (R245). -/
def termStage (s : State) : CmdResult :=
  if overflows s 8 then .error .overflow s else .done (appendBits (pack Config.endOfPatches 8) s)

/-- TERM (R245). -/
def execTerm (s : State) : Host.Outcome State Fault Refusal := finish (termStage s)

/-- SCLR: clear the stream (R247). -/
def execSclr (s : State) : Host.Outcome State Fault Refusal := finish (.done (clearStream s))

/-- `Slot(s).QWB <- QWB_INIT` (R252). -/
def forceQwb (n : Fin 4) (s : State) : State := s.updateSlot n fun r => { r with qwb := Config.qwbInit }

/-- The engine turns to slot `n` inside BUILD (R58). -/
def enterSlot (n : Fin 4) (s : State) : State := s.withEngine { s.engine with slot := n }

/-- The stages of BUILD for one slot (R250). -/
def buildSlot (ext : Bool) (n : Fin 4) (s : State) : CmdResult :=
  (prescanStage n (enterSlot n s)).andThen fun s1 =>
    (transformStage n (forceQwb n s1)).andThen fun s2 =>
      (hdrencStage n ext s2).andThen fun s3 => coefencStage n s3

/-- The slots 0 to count-1, in slot order (R250). -/
def buildSlots (count : Nat) : List (Fin 4) := (List.finRange 4).take count

/-- BUILD's stages after the count check: GHDR, each slot, TERM (R250). -/
def buildMessage (count : Nat) (ext : Bool) (type : BitVec 8) (s : State) : CmdResult :=
  ((buildSlots count).foldl (fun r n => r.andThen (buildSlot ext n)) (ghdrStage type s)).andThen termStage

/-- Free values in the registers BUILD may write in slot `n` (R257, R250; log 15). -/
def freeSlot (draw : Nat) (s : State) (n : Fin 4) : State :=
  s.updateSlot n fun r =>
    { r with
      dcoff := Config.freeWord draw (8192 + 4 * n.val)
      range := Config.freeWord draw (8193 + 4 * n.val)
      qwb := (Config.freeWord draw (8194 + 4 * n.val)).setWidth 8
      patchids := Config.freeWord draw (8195 + 4 * n.val) }

/-- Free values in ROWBUF. -/
def freeRowbuf (draw : Nat) (m : Memory) : Memory := m.storeWords rowbufBase (freeWords draw 0 256)

/-- Free values in COEF and ROWBUF; every word of COEF then counts as written (R292 effect 4). -/
def freeTransform (draw : Nat) (m : Memory) : Memory := (freeRowbuf draw m).storeWords coefBase (freeWords draw 256 256)

/-- Free values in the words of COEF that are written; one still marked unwritten stays so, since only a host write or a
TRANSFORM write clears a mark (R54, R295). -/
def freeWrittenCoefs (draw : Nat) (m : Memory) : Memory :=
  m.refresh coefBase (coefBase + 0x400) fun a =>
    (Config.freeWord draw (256 + (a - coefBase) / 4)).extractLsb' (8 * (a % 4)) 8

/-- Free values in the stream buffer. -/
def freeStream (draw : Nat) (m : Memory) : Memory := m.store streamBase (freeBytes draw 1024 Config.streamBytes)

/-- Free values in every location BUILD may write, after an inner BAD_RANGE (R257), with the marks on COEF as they stand then
(R295). BITPOS keeps its legal range (R41). -/
def freeOutputs (count : Nat) (s : State) : State :=
  let t := (buildSlots count).foldl (freeSlot s.draws) s
  { t with
    mem := freeStream s.draws (freeWrittenCoefs s.draws (freeRowbuf s.draws s.mem))
    bitpos := BitVec.ofNat 32 ((Config.freeWord s.draws 8191).toNat % (Config.streamBits + 1))
    draws := s.draws + 1 }

/-- BUILD, less the completion: the count check before any effect (R251), the message, and after an inner error free
values in every location BUILD may write (R257). -/
def buildStage (count : Nat) (ext : Bool) (type : BitVec 8) (s : State) : CmdResult :=
  if count < 1 ∨ Config.maxPatches < count then .error .badCount s
  else
    match buildMessage count ext type s with
    | .error e t => .error e (freeOutputs count t)
    | r => r

/-- BUILD count, type, ext (R250). -/
def execBuild (count : Nat) (ext : Bool) (type : BitVec 8) (s : State) : Host.Outcome State Fault Refusal :=
  finish (buildStage count ext type s)

end Sys2Proof.Machine
end

