-- ==== Sys2Proof/Machine/Bus.lean ====
section
/-! DEFINITION. The host side: the address map, reads and writes, issuing a command, the resets, and the host
pseudo-instructions (20_memory, 30_encoding R121, R127, R128, 70_reset_and_hazards). -/

namespace Sys2Proof.Machine

/-- The registers of a slot set, by their offset in it (R43). -/
inductive SlotReg where
  | posx
  | posy
  | qwb
  | dcoff
  | range
  | patchids
  | serial
  | reserved
deriving DecidableEq, Repr

/-- A location of the address map (R82). `k` counts words. -/
inductive Loc where
  | ctrl
  | status
  | cmd
  | bitpos
  | streamlen
  | slotReg (n : Fin 4) (r : SlotReg)
  | sample (n : Fin 4) (k : Nat)
  | stream (k : Nat)
  | coef (k : Nat)
  | rowbuf (k : Nat)
  | cos (k : Nat)
  | qnt (k : Nat)
  | deq (k : Nat)
  | zig (k : Nat)
  | reserved
deriving DecidableEq, Repr

/-- The register at word `k` of a slot set (R43). -/
def slotRegAt (k : Nat) : SlotReg :=
  match k with
  | 0 => .posx
  | 1 => .posy
  | 2 => .qwb
  | 3 => .dcoff
  | 4 => .range
  | 5 => .patchids
  | 6 => .serial
  | _ => .reserved

/-- The location at an offset below 0x1000: the global registers and the slot registers (R82, R83). -/
def locateRegister (a : Nat) : Loc :=
  if 0x0180 ≤ a then .reserved
  else if 0x0100 ≤ a then .slotReg (Fin.ofNat 4 ((a - 0x0100) / 0x20)) (slotRegAt (a % 0x20 / 4))
  else if a = 0x0000 then .ctrl
  else if a = 0x0004 then .status
  else if a = 0x0008 then .cmd
  else if a = 0x000C then .bitpos
  else if a = 0x0010 then .streamlen
  else .reserved

/-- The location at an offset from 0x1000 below 0x4000: the RAMs (R82). Offsets 0x3800 to 0x3FFF, which R82 does not list,
are taken as reserved (DEDUCED, log 32). -/
def locateRam (a : Nat) : Loc :=
  if a < 0x2000 then .sample (Fin.ofNat 4 ((a - 0x1000) / 0x400)) (a % 0x400 / 4)
  else if a < 0x3000 then .stream ((a - 0x2000) / 4)
  else if a < 0x3400 then .coef ((a - 0x3000) / 4)
  else if a < 0x3800 then .rowbuf ((a - 0x3400) / 4)
  else .reserved

/-- The location at an offset from 0x4000 up: the ROMs (R82, R83). -/
def locateRom (a : Nat) : Loc :=
  if a < 0x4400 then .cos ((a - 0x4000) / 4)
  else if a < 0x4800 then .qnt ((a - 0x4400) / 4)
  else if a < 0x4C00 then .deq ((a - 0x4800) / 4)
  else if a < 0x5000 then .zig ((a - 0x4C00) / 4)
  else .reserved

/-- The location at an aligned byte offset (R82, R83). -/
def locate (offset : Offset) : Loc :=
  if offset.toNat < 0x1000 then locateRegister offset.toNat
  else if offset.toNat < 0x4000 then locateRam offset.toNat
  else locateRom offset.toNat

/-- The value of a slot register as the host reads it; reserved bits read 0 (R43 to R50). -/
def slotRegValue (r : Slot) : SlotReg → Word
  | .posx => r.posx.setWidth 32
  | .posy => r.posy.setWidth 32
  | .qwb => r.qwb.setWidth 32
  | .dcoff => r.dcoff
  | .range => r.range
  | .patchids => r.patchids
  | .serial => r.serial
  | .reserved => 0

/-- The slot register after a host write of `v`: PATCHIDS and the reserved word ignore it, SERIAL stores 1 for 0
(R43 to R52). -/
def slotRegWrite (v : Word) (r : Slot) : SlotReg → Slot
  | .posx => { r with posx := v.setWidth 16 }
  | .posy => { r with posy := v.setWidth 16 }
  | .qwb => { r with qwb := v.setWidth 8 }
  | .dcoff => { r with dcoff := v }
  | .range => { r with range := v }
  | .patchids => r
  | .serial => { r with serial := if v = 0 then 1 else v }
  | .reserved => r

/-- SERIAL after one accepted sample write: it wraps from 0xFFFFFFFF to 1 (R51). -/
def nextSerial (v : Word) : Word := if v = 0xFFFFFFFF then 1 else v + 1

/-- Stream byte `i` as the host reads it: unspecified at STREAMLEN and above (R56; log 7). -/
def streamByte (s : State) (i : Nat) : Byte :=
  if i < streamLen s then (s.mem.load (streamBase + i)).getD ((Config.freeWord s.draws (i % 4)).setWidth 8)
  else (Config.freeWord s.draws (i % 4)).setWidth 8

/-- A RAM word as the host reads it: unspecified where nothing was written (R53 to R55; log 6). -/
def ramWord (s : State) (a : Nat) : Word := (s.mem.loadWord a).getD (Config.freeWord s.draws 0)

/-- The location is one of those a running command may write (R99). -/
def Loc.commandWrites : Loc → Bool
  | .bitpos => true
  | .streamlen => true
  | .slotReg _ .qwb => true
  | .slotReg _ .dcoff => true
  | .slotReg _ .range => true
  | .slotReg _ .patchids => true
  | .stream _ => true
  | .coef _ => true
  | .rowbuf _ => true
  | _ => false

/-- The value at a location (R33 to R57, R83, R86). -/
def locValue (s : State) : Loc → Word
  | .ctrl => ctrlWord s.ie
  | .status => s.status.toWord
  | .cmd => s.cmd
  | .bitpos => s.bitpos
  | .streamlen => BitVec.ofNat 32 (streamLen s)
  | .slotReg n r => slotRegValue (s.slot n) r
  | .sample n k => ramWord s (sampleBase n + 4 * k)
  | .stream k =>
      bytesWord (streamByte s (4 * k)) (streamByte s (4 * k + 1)) (streamByte s (4 * k + 2)) (streamByte s (4 * k + 3))
  | .coef k => ramWord s (coefBase + 4 * k)
  | .rowbuf k => ramWord s (rowbufBase + 4 * k)
  | .cos k => cosAt (k / 16) (k % 16)
  | .qnt k => qntAt (k / 16) (k % 16)
  | .deq k => deqAt (k / 16) (k % 16)
  | .zig k => BitVec.ofNat 32 (zigAt (k / 16) (k % 16))
  | .reserved => 0

/-- What a host read of a location returns: while BUSY = 1 an unspecified word at the locations of R99 (log 13). -/
def readValue (s : State) (l : Loc) : Word :=
  if s.status.busy && l.commandWrites then Config.freeWord s.draws 0 else locValue s l

/-- A host read: its data appears on `bus_rdata`; nothing else of the block changes (R87, R311). -/
def hostRead (l : Loc) (s : State) : State := { s with rdata := readValue s l, draws := s.draws + 1 }

/-- What an aborted command may have written becomes unspecified (R292 effect 4; log 14). -/
def abortMemory (draw : Nat) (i : Instr) (m : Memory) : Memory :=
  match i with
  | .nop => m
  | .prescan _ => m
  | .transform _ => freeTransform draw m
  | .hdrenc _ _ => freeStream draw m
  | .coefenc _ => freeStream draw m
  | .ghdr _ => freeStream draw m
  | .term => freeStream draw m
  | .sclr => m
  | .build _ _ _ => freeStream draw (freeTransform draw m)

/-- The memory after a soft reset: unchanged if no command was running (R292). -/
def softResetMemory (s : State) : Memory :=
  if s.status.busy then
    match decode s.engine.command with
    | .ok i => abortMemory s.draws i s.mem
    | .error _ => s.mem
  else s.mem

/-- Soft reset (R292): every register at its reset value, the running command aborted, the sample RAM kept. -/
def softReset (s : State) : State :=
  { State.reset with mem := softResetMemory s, rdata := s.rdata, schedule := s.schedule, draws := s.draws + 1 }

/-- Power-on reset (R290): every register at its reset value, every RAM word unwritten. -/
def powerOnReset (s : State) : State := { State.reset with schedule := s.schedule, draws := s.draws }

/-- A host write of `w` to CMD while BUSY = 0 (R121): the word is latched and decoded; a legal one is accepted and
BUSY goes to 1, an illegal one ends at once with ILLEGAL (R262). -/
def issue (w : Word) (s : State) : State :=
  match decode w with
  | .ok _ =>
      { s with cmd := w, status := { s.status with busy := true }, engine := { Engine.idle with command := w } }
  | .error _ => complete (some .illegal) { s with cmd := w }

/-- A host write while BUSY = 0 to a location other than CTRL, STATUS and CMD (R44 to R57, R83, R84). -/
def writeLoc (v : Word) (l : Loc) (s : State) : State :=
  match l with
  | .slotReg n r => s.updateSlot n fun x => slotRegWrite v x r
  | .sample n k =>
      { s.updateSlot n (fun x => { x with serial := nextSerial x.serial }) with
        mem := s.mem.storeWords (sampleBase n + 4 * k) [v] }
  | .coef k => { s with mem := s.mem.storeWords (coefBase + 4 * k) [v] }
  | _ => s

/-- A host write of `v` to a location (R33, R34, R38 to R40, R84, R292, R293, R302). -/
def hostWrite (v : Word) (l : Loc) (s : State) : State :=
  match l with
  | .ctrl => if v.getLsbD 1 then softReset s else { s with ie := v.getLsbD 0 }
  | .status => clearStatus v s
  | .cmd => if s.status.busy then { s with status := { s.status with cdrop := true } } else issue v s
  | _ => if s.status.busy then { s with status := { s.status with wdrop := true } } else writeLoc v l s

/-- One host access: refused unless it is an aligned 32-bit access (R81). -/
def hostAccess (a : Access) (s : State) : Host.Outcome State Fault Refusal :=
  if a.width ≠ 4 then .refused (.accessWidth a.width)
  else if a.offset.toNat % 4 ≠ 0 then .refused (.accessMisaligned a.offset.toNat)
  else
    match a.kind with
    | .read => .next (hostRead (locate a.offset) s)
    | .write v => .next (hostWrite v (locate a.offset) s)

/-- The system address of a byte offset, which `WR` and `RD` access (R80, R127; log 19). -/
def systemAddress (offset : Offset) : Nat := Config.ldctBase + offset.toNat

/-- `WR off, val` (R127). -/
def hostWR (offset : Offset) (v : Word) : Turn := .host { offset := offset, width := 4, kind := .write v }

/-- `RD off` (R127). -/
def hostRD (offset : Offset) : Turn := .host { offset := offset, width := 4, kind := .read }

/-- `ISSUE <command>` (R128). -/
def hostISSUE (i : Instr) : List Turn := [hostWR 0x0008 (encode i)]

/-- The turns after a pass of `WAIT` that read BUSY so (R128). BUSY = 0 ends the loop. BUSY = 1 makes one more pass, after the
engine's turn if no more passes are to find BUSY = 1 (R310: the command completes after a finite time; log 8). -/
def waitTurns (busy : Bool) (n : Nat) (rest : List Turn) : List Turn :=
  if busy then
    match n with
    | 0 => .engine :: .poll 0 :: rest
    | k + 1 => .poll k :: rest
  else rest

/-- One pass of the loop of `WAIT` (R128): `RD 0x0004 -> st`, and on from there by `st[0]`. -/
def hostPoll (n : Nat) (s : State) : State :=
  let t := hostRead .status s
  { t with schedule := waitTurns (t.rdata.getLsbD 0) n s.schedule }

/-- `WAIT`: the loop `RD 0x0004 -> st` until `st[0] = 0`. The number of iterations is unspecified but finite (R128): for a
command still running, `n + 1` passes find BUSY = 1, the engine finishes, and the next pass ends the loop. -/
def hostWAIT (n : Nat) : List Turn := [.poll n]

/-- `CLRST` (R128). -/
def hostCLRST : List Turn := [hostWR 0x0004 0x0000001E]

/-- `LOADPATCH s, f`: 256 writes in row-major order (R128). -/
def hostLOADPATCH (n : Fin 4) (f : Nat → Nat → Word) : List Turn :=
  (List.range 256).map fun k => hostWR (BitVec.ofNat 16 (sampleBase n + 4 * k)) (f (k / 16) (k % 16))

/-- `SETPOS s, x, y` (R128). -/
def hostSETPOS (n : Fin 4) (x y : Word) : List Turn :=
  [hostWR (BitVec.ofNat 16 (0x0100 + 0x20 * n.val)) x, hostWR (BitVec.ofNat 16 (0x0104 + 0x20 * n.val)) y]

end Sys2Proof.Machine
end

