-- ==== Sys2Proof/Machine/Dispatch.lean ====
section
/-! DEFINITION. One arm per command: the meaning it runs. -/

namespace Sys2Proof.Machine

def exec (i : Instr) (s : State) : Host.Outcome State Fault Refusal :=
  match i with
  | .nop => Sys2Proof.Machine.execNop s
  | .prescan slot => Sys2Proof.Machine.execPrescan slot s
  | .transform slot => Sys2Proof.Machine.execTransform slot s
  | .hdrenc slot ext => Sys2Proof.Machine.execHdrenc slot ext s
  | .coefenc slot => Sys2Proof.Machine.execCoefenc slot s
  | .ghdr type => Sys2Proof.Machine.execGhdr type s
  | .term => Sys2Proof.Machine.execTerm s
  | .sclr => Sys2Proof.Machine.execSclr s
  | .build count ext type => Sys2Proof.Machine.execBuild count ext type s

end Sys2Proof.Machine
end

