-- ==== Sys2Proof/Machine/Step.lean ====
section
/-! DEFINITION. One step: one turn of one agent (00_scope R17). -/

namespace Sys2Proof.Machine

/-- The engine's turn: the running command is decoded from its latched word, run and completed in one step (R100,
R121, R263). An accepted word is always legal; a latched word that is not would end with ILLEGAL (log 30). -/
def engineTurn (s : State) : Host.Outcome State Fault Refusal :=
  if s.status.busy then
    match decode s.engine.command with
    | .ok i => exec i s
    | .error _ => .next (complete (some .illegal) s)
  else .next s

/-- One step: the next turn of the schedule. With none left the engine finishes the running command (its latency is
finite, R310), and an idle block waits for the host (R291). -/
def step (s : State) : Host.Outcome State Fault Refusal :=
  match s.schedule with
  | [] => engineTurn s
  | .engine :: rest => engineTurn { s with schedule := rest }
  | .powerOn :: rest => .next (powerOnReset { s with schedule := rest })
  | .host a :: rest => hostAccess a { s with schedule := rest }
  | .poll n :: rest => .next (hostPoll n { s with schedule := rest })

/-- `s` just after the host's write of the table word to CMD was accepted (R121): the word is latched in CMD and in the
engine, BUSY = 1, and the engine moves next, so the next step runs it (log 9). -/
def State.withFetchWord (s : State) (nbits w : Nat) : State :=
  { s with
    cmd := tableWord nbits w
    status := { s.status with busy := true }
    engine := { Engine.idle with command := tableWord nbits w }
    schedule := match s.schedule with
      | [] => []
      | t :: rest => .engine :: t :: rest }

end Sys2Proof.Machine
end

