-- ==== Sys2Proof/Safety.lean ====
section
/-! DEFINITION. The terms the statements use: the machine invariant, how a command ends, and the host's duties on the
data. -/

namespace Sys2Proof.Machine

/-- The invariant every step keeps.
* the memory is in canonical form and lists only RAM offsets (R82);
* BITPOS is at most 32768 (R41), and every stream byte below STREAMLEN holds a value (R93);
* SERIAL is never 0 (R50);
* ECODE is one of 0 to 4, the codes that are ever produced (R261), and it is nonzero exactly when ERR is 1 (R37);
* while BUSY = 1 the engine runs the word in CMD, and that word is legal (R35, R39, R121); else it is idle (R58). -/
structure Inv (s : State) : Prop where
  memWf : s.mem.wf
  memInRam : ∀ c ∈ s.mem, 0x1000 ≤ c.1 ∧ c.1 < 0x3800
  bitposLegal : s.bitpos.toNat ≤ 32768
  streamDefined : ∀ i, i < streamLen s → (s.mem.load (streamBase + i)).isSome = true
  serialNonzero : ∀ n, (s.slot n).serial ≠ 0
  ecodeLegal : s.status.ecode.toNat ≤ 4
  errIffCode : s.status.err = true ↔ s.status.ecode ≠ 0
  busyRuns : s.status.busy = true → s.engine.command = s.cmd ∧ legalWord s.cmd = true
  idleEngine : s.status.busy = false → s.engine = Engine.idle

/-- What no command changes: CTRL, CMD, the read-data port and the turns still to come. -/
def ControlKept (s t : State) : Prop :=
  t.ie = s.ie ∧ t.cmd = s.cmd ∧ t.rdata = s.rdata ∧ t.schedule = s.schedule

/-- A command ended in success (R263): DONE 1, BUSY 0, ERR and ECODE as before (R37), the engine idle. -/
def EndsOk (s t : State) : Prop :=
  t.status = { s.status with busy := false, done := true } ∧ t.engine = Engine.idle ∧ ControlKept s t

/-- A command ended with an error code (R263): DONE 1, BUSY 0, ERR 1, ECODE the code, the engine idle. -/
def EndsIn (code : BitVec 4) (s t : State) : Prop :=
  t.status = { s.status with busy := false, done := true, err := true, ecode := code } ∧ t.engine = Engine.idle ∧
    ControlKept s t

/-- Every byte of memory reads as before except those from `lo` up to, not including, `hi`. -/
def MemKeptOutside (lo hi : Nat) (s t : State) : Prop :=
  ∀ a, a < lo ∨ hi ≤ a → t.mem.load a = s.mem.load a

/-- No data of the block changed: slot registers, memory, BITPOS (and the model's own draw counter). -/
def DataKept (s t : State) : Prop := t.slots = s.slots ∧ t.mem = s.mem ∧ t.bitpos = s.bitpos ∧ t.draws = s.draws

/-- `l` was appended to the stream (R89, R91, R93): the stream of `t` is that of `s` followed by `l`, BITPOS advanced by
its length, the fill of the last byte is zero, and no byte of memory changed but those that hold the new bits: the
bytes from the one of the first new bit to the one of the last. -/
def Appended (l : List Bool) (s t : State) : Prop :=
  streamOf t = streamOf s ++ l ∧ t.bitpos.toNat = s.bitpos.toNat + l.length ∧
    (∀ k, t.bitpos.toNat ≤ k → k < 8 * streamLen t → streamBit t.mem k = false) ∧
    MemKeptOutside (0x2000 + s.bitpos.toNat / 8) (0x2000 + (s.bitpos.toNat + l.length + 7) / 8) s t

/-- The registers of every slot other than `n` are as before. -/
def OtherSlotsKept (n : Fin 4) (s t : State) : Prop := ∀ k, k ≠ n → t.slot k = s.slot k

/-- The 256 samples of slot `n` are written, and are `ws` in row-major order (R53). -/
def Samples (s : State) (n : Fin 4) (ws : List Word) : Prop := s.mem.loadWords (sampleBase n) 256 = .ok ws

/-- `COEF[0..255]` are written, and are `cs` (R54). -/
def Coefs (s : State) (cs : List Word) : Prop := s.mem.loadWords coefBase 256 = .ok cs

/-- `v` is `SUM_n t(n)` (R187): the last of the values that start at +0.0 and take `t(0)` to `t(15)` in order, one
rounded addition each. The free words matter only where an addition gives a NaN (R10). -/
def IsSum (t : Nat → Word) (v : Word) : Prop :=
  ∃ acc : Nat → Word, acc 0 = 0 ∧ (∀ n, n < 16 → ∃ φ, acc (n + 1) = fadd φ (acc n) (t n)) ∧ v = acc 16

/-- `v` is output `u` of the 16-point line `x` (R186): K times the sum for u = 0, else the sum of the rounded products
with row `u` of COS. -/
def IsLine (u : Nat) (x : Nat → Word) (v : Word) : Prop :=
  (u = 0 ∧ ∃ sum φ, IsSum x sum ∧ v = fmul φ dctK sum) ∨
    (u ≠ 0 ∧ ∃ t : Nat → Word, (∀ n, n < 16 → ∃ φ, t n = fmul φ (x n) (cosAt u n)) ∧ IsSum t v)

/-- The scan of R171 over samples `ws`: `z k` is the value kept after sample `k`, where `better v z` says that sample `v`
replaces `z`. -/
def IsScan (better : Word → Word → Bool) (ws : List Word) (z : Nat → Word) : Prop :=
  z 0 = ws.getD 0 0 ∧
    ∀ k, k < 255 → z (k + 1) = if better (ws.getD (k + 1) 0) (z k) then ws.getD (k + 1) 0 else z k

/-- `rows` and `cs` are ROWBUF and COEF as TRANSFORM gives them for samples `ws`, prequant bits `p`, DCOFF and RANGE (R180 to
R190): the scaled block, the row pass, the column pass, and the truncated values in zigzag order, each operation rounded
in the order the rules give. The free words matter only for NaN payloads and for truncations that no s32 holds. -/
def IsTransform (p : Nat) (dcoff range : Word) (ws : List Word) (rows : Nat → Nat → Word) (cs : List Word) : Prop :=
  ∃ (premult sub : Word) (b : Nat → Nat → Word),
    (∃ φ, premult = fdiv φ (f32Pow2 p) (f32OfInt (range.toNat : Int))) ∧
    (∃ φ φ', sub = fadd φ (f32Pow2 (p - 1)) (fmul φ' dcoff premult)) ∧
    (∀ r c, r < 16 → c < 16 → ∃ φ φ', b r c = fsub φ (fmul φ' (ws.getD (16 * r + c) 0) premult) sub) ∧
    (∀ r u, r < 16 → u < 16 → IsLine u (b r) (rows r u)) ∧
    ∀ u c, u < 16 → c < 16 → ∃ x φ φ' φ'', IsLine u (fun k => rows k c) x ∧
      cs.getD (zigAt u c) 0 = truncS32 φ'' (fmul φ' (fmul φ x 0x3E000000) (qntAt u c))

/-- ROWBUF holds `rows` and COEF holds `cs` (R54, R55). -/
def HoldsTransform (t : State) (rows : Nat → Nat → Word) (cs : List Word) : Prop :=
  Coefs t cs ∧ ∀ r u, r < 16 → u < 16 → t.mem.loadWord (0x3400 + 4 * (16 * r + u)) = some (rows r u)

/-- The bits of a PatchHeader by the formulas of R209: QWB, DCOFF, RANGE[15:0], PatchIDs. -/
def headerFormula (ext : Bool) (r : Slot) : List Bool :=
  bitsDown (r.qwb.setWidth 32) 0 8 ++ bitsDown r.dcoff 0 32 ++ bitsDown (r.range &&& 0xFFFF) 0 16 ++
    bitsDown r.patchids 0 (if ext then 32 else 10)

/-- PatchIDs by the formulas of R207 (standard) and R208 (extended). -/
def patchIdFormula (ext : Bool) (x y : BitVec 16) : Word :=
  if ext then (x.setWidth 32 <<< 16) ||| y.setWidth 32
  else ((x.setWidth 32 &&& 0x1F) <<< 5) ||| (y.setWidth 32 &&& 0x1F)

/-- One outcome after another. -/
def thenRun (o : Host.Outcome State Fault Refusal) (f : State → Host.Outcome State Fault Refusal) :
    Host.Outcome State Fault Refusal :=
  match o with
  | .next s => f s
  | .fault x => .fault x
  | .refused x => .refused x

/-- The stage commands that do the work of BUILD (R248): GHDR; for each slot PRESCAN, the host's write of QWB_INIT to
QWB, TRANSFORM, HDRENC, COEFENC; TERM. -/
def stageCommands (count : Nat) (ext : Bool) (type : BitVec 8) (s : State) : Host.Outcome State Fault Refusal :=
  thenRun
    ((buildSlots count).foldl
      (fun o n =>
        thenRun (thenRun (thenRun (thenRun (thenRun o (exec (.prescan n)))
          (fun s => .next (writeLoc 0x88 (.slotReg n .qwb) s))) (exec (.transform n))) (exec (.hdrenc n ext)))
          (exec (.coefenc n)))
      (exec (.ghdr type) s))
    (exec .term)

/-- The host's duties 2 and 3 on the samples of one slot (R306): all finite, and every difference below 65535. -/
def HostDuty (ws : List Word) : Prop :=
  (∀ w ∈ ws, isFinite w = true) ∧ ∀ v ∈ ws, ∀ w ∈ ws, f32Value v - f32Value w < ((65535 <<< 149 : Nat) : Int)

/-- `v` is the magnitude, in units of 2^-149, of a finite binary32. -/
def Representable (v : Nat) : Prop := ∃ w : Word, isFinite w = true ∧ f32Units w = v

/-- `r` is the exact value `n / d`, in units of 2^-149 and with this sign, rounded to nearest, ties to even, with infinity
from half a unit above the largest finite value up (R10): where `r` is finite no representable value is nearer, and at a
tie the last bit of `r` is 0. -/
def IsRounded (neg : Bool) (n d : Nat) (r : Word) : Prop :=
  f32Neg r = neg ∧ (isFinite r = false ↔ d * ((2 ^ 25 - 1) <<< 252) ≤ n) ∧ (isFinite r = false → isInf r = true) ∧
    (isFinite r = true → ∀ v, Representable v →
      ((n : Int) - d * f32Units r).natAbs ≤ ((n : Int) - d * v).natAbs ∧
        (v ≠ f32Units r → ((n : Int) - d * f32Units r).natAbs = ((n : Int) - d * v).natAbs → r.getLsbD 0 = false))

/-- The infinity with this sign. -/
def infinity (neg : Bool) : Word := if neg then 0xFF800000 else 0x7F800000

/-- What the coefficient token of `c` at width `w` tells a decoder: nothing for a zero, else the sign and the low `w`
bits of the clipped magnitude (R223, R224). -/
def sentValue (w : Nat) (c : Word) : Option (Bool × Nat) :=
  if c = 0 then none else some (c.getLsbD 31, (clipMagnitude w c).toNat % 2 ^ w)

end Sys2Proof.Machine
end

