-- ==== Sys2Proof/Certificates/Slice0/Obligations.lean ====
section
/-! DEFINITION. The statements about the block, for the provers: each docstring says which rule of spec/ it formalises. -/

open Sys2Proof Sys2Proof.Machine

/-! ### Encoding -/

/-- R123, R124, R127: decoding the command word of a well-formed instruction gives the instruction back. -/
def Obligations.DecodeOfEncodeIsTheInstruction : Prop :=
  ∀ i : Instr, i.wellFormed = true → decode (encode i) = .ok i

/-- R122, R124: a word that decodes is the command word of what it decodes to, and that is well-formed: no bit of a legal
word is dropped. -/
def Obligations.EncodeOfDecodeIsTheWord : Prop :=
  ∀ (w : Word) (i : Instr), decode w = .ok i → i.wellFormed = true ∧ encode i = w

/-- R122: a word decodes exactly when some row of the opcode map matches it, and no two rows match the same word. -/
def Obligations.WordDecodesIffOneRowMatches : Prop :=
  (∀ w : Word, (∃ i, decode w = .ok i) ↔ ∃ r ∈ opcodeMap, w &&& r.mask = r.pattern) ∧
    ∀ w : Word, ∀ r ∈ opcodeMap, ∀ r' ∈ opcodeMap, w &&& r.mask = r.pattern → w &&& r'.mask = r'.pattern → r = r'

/-- R126, with the fields R123 lists: a word is illegal exactly when OP is above 8, or a bit in 15:14 or 31:24 is 1, or a
field that its opcode does not use is not 0 (SLOT is used by OP 1 to 4, COUNT by 8, EXT by 3 and 8, TYPE by 5 and 8). -/
def Obligations.IllegalWordsAreThoseTheSpecLists : Prop :=
  ∀ w : Word, (∃ e, decode w = .error e) ↔
    (8 < (w.extractLsb' 0 8).toNat ∨ w.extractLsb' 14 2 ≠ 0 ∨ w.extractLsb' 24 8 ≠ 0 ∨
      (w.extractLsb' 8 2 ≠ 0 ∧ ((w.extractLsb' 0 8).toNat = 0 ∨ 4 < (w.extractLsb' 0 8).toNat)) ∨
      (w.extractLsb' 10 3 ≠ 0 ∧ (w.extractLsb' 0 8).toNat ≠ 8) ∨
      (w.getLsbD 13 = true ∧ (w.extractLsb' 0 8).toNat ≠ 3 ∧ (w.extractLsb' 0 8).toNat ≠ 8) ∨
      (w.extractLsb' 16 8 ≠ 0 ∧ (w.extractLsb' 0 8).toNat ≠ 5 ∧ (w.extractLsb' 0 8).toNat ≠ 8))

/-- R127: some command words written out from the spec, and what they decode to. -/
def Obligations.SpecWordsDecode : Prop :=
  decode 0x00000000 = .ok .nop ∧ decode 0x00000201 = .ok (.prescan 2) ∧ decode 0x00000302 = .ok (.transform 3) ∧
    decode 0x00002003 = .ok (.hdrenc 0 true) ∧ decode 0x00000104 = .ok (.coefenc 1) ∧
    decode 0x004C0005 = .ok (.ghdr 0x4C) ∧ decode 0x00000006 = .ok .term ∧ decode 0x00000007 = .ok .sclr ∧
    decode 0x004D2408 = .ok (.build 1 true 0x4D)

/-! ### Steps, the host bus and resets -/

/-- R100, R121: while a command runs and the engine moves next (its turn is scheduled, or nothing is), a step is `exec` of
the instruction that the latched word decodes to, at that state less the turn. Whose turn comes next is the model's
schedule (log 8). -/
def Obligations.EngineTurnRunsTheDecodedCommand : Prop :=
  ∀ (s : State) (i : Instr), s.status.busy = true → decode s.engine.command = .ok i →
    (s.schedule = [] → step s = exec i s) ∧
      ∀ rest, s.schedule = .engine :: rest → step s = exec i { s with schedule := rest }

/-- R121: a host write of a legal word to CMD while BUSY = 0 latches it and sets BUSY; nothing else of the block changes. -/
def Obligations.LegalCommandIsAccepted : Prop :=
  ∀ (s : State) (w : Word) (rest : List Turn), s.status.busy = false → legalWord w = true →
    s.schedule = .host { offset := 0x0008, width := 4, kind := .write w } :: rest →
    ∃ t, step s = .next t ∧ t.cmd = w ∧ t.status = { s.status with busy := true } ∧ t.engine.command = w ∧
      DataKept s t ∧ t.ie = s.ie ∧ t.rdata = s.rdata ∧ t.schedule = rest

/-- R262: a word written to CMD while BUSY = 0 that matches no row is latched in CMD and ends at once with DONE = 1, ERR = 1,
ECODE = 1; BUSY does not go to 1 and nothing else of the block changes. -/
def Obligations.IllegalCommandEndsAtOnce : Prop :=
  ∀ (s : State) (w : Word) (rest : List Turn), s.status.busy = false →
    (∀ r ∈ opcodeMap, w &&& r.mask ≠ r.pattern) →
    s.schedule = .host { offset := 0x0008, width := 4, kind := .write w } :: rest →
    ∃ t, step s = .next t ∧ t.cmd = w ∧
      t.status = { s.status with busy := false, done := true, err := true, ecode := 1 } ∧
      DataKept s t ∧ t.ie = s.ie ∧ t.rdata = s.rdata ∧ t.schedule = rest

/-- R38, R39: while BUSY = 1 a host write to CMD sets CDROP only, and one to any other location but CTRL and STATUS sets
WDROP only; neither has another effect, so CMD's read value does not change. -/
def Obligations.BusyWritesAreDropped : Prop :=
  ∀ (s : State) (offset : Offset) (v : Word) (rest : List Turn), s.status.busy = true →
    s.schedule = .host { offset := offset, width := 4, kind := .write v } :: rest → offset.toNat % 4 = 0 →
    offset ≠ 0x0000 → offset ≠ 0x0004 →
    step s = .next { s with
      schedule := rest
      status := if offset = 0x0008 then { s.status with cdrop := true } else { s.status with wdrop := true } }

/-- R33, R293: a host write to CTRL with bit 1 = 0 sets IE to bit 0 and changes nothing else, BUSY = 1 included; CTRL reads as
IE in bit 0 and 0 in every other bit. -/
def Obligations.CtrlHoldsInterruptEnable : Prop :=
  ∀ (s : State) (v : Word) (rest : List Turn),
    (v.getLsbD 1 = false → s.schedule = .host { offset := 0x0000, width := 4, kind := .write v } :: rest →
      step s = .next { s with schedule := rest, ie := v.getLsbD 0 }) ∧
    (s.schedule = .host { offset := 0x0000, width := 4, kind := .read } :: rest →
      ∃ t, step s = .next t ∧ t.rdata = if s.ie then 1 else 0)

/-- R98, R302: while BUSY = 1 no host access but a soft reset changes what the running command reads, the command itself,
or BUSY. -/
def Obligations.BusySnapshotIsKept : Prop :=
  ∀ (s t : State) (a : Access) (rest : List Turn), s.status.busy = true → s.schedule = .host a :: rest →
    ¬(a.offset = 0x0000 ∧ ∃ v : Word, a.kind = .write v ∧ v.getLsbD 1 = true) → step s = .next t →
    t.slots = s.slots ∧ t.mem = s.mem ∧ t.bitpos = s.bitpos ∧ t.engine = s.engine ∧ t.cmd = s.cmd ∧
      t.status.busy = true

/-- R34, R37, R273: a host write of `v` to STATUS, BUSY = 1 included: a 1 in bit 1, 3 or 4 clears DONE, WDROP or CDROP, a 1
in bit 2 clears ERR and ECODE, a 0 leaves the bit as it is, and nothing else changes. -/
def Obligations.StatusWriteClearsOnlyTheWrittenOnes : Prop :=
  ∀ (s : State) (v : Word) (rest : List Turn),
    s.schedule = .host { offset := 0x0004, width := 4, kind := .write v } :: rest →
    ∃ t, step s = .next t ∧ t = { s with schedule := rest, status := t.status } ∧
      t.status.busy = s.status.busy ∧ t.status.done = (s.status.done && !v.getLsbD 1) ∧
      t.status.err = (s.status.err && !v.getLsbD 2) ∧
      t.status.ecode = (if v.getLsbD 2 = true then 0 else s.status.ecode) ∧
      t.status.wdrop = (s.status.wdrop && !v.getLsbD 3) ∧ t.status.cdrop = (s.status.cdrop && !v.getLsbD 4)

/-- R34, R128: the bits of STATUS as the host reads them; BUSY = 1 or 0, the read changes nothing but the read data (and the
model's draw counter, log 1). A pass of WAIT makes that read: if BUSY is 0 the loop ends; if it is 1 the loop goes on, with
`n` passes to come before the engine's turn, or with the engine's turn and then a pass if there are none (log 8). -/
def Obligations.StatusReadsAndWaitPolls : Prop :=
  ∀ (s : State) (rest : List Turn),
    (s.schedule = .host { offset := 0x0004, width := 4, kind := .read } :: rest →
      ∃ t, step s = .next t ∧ t = { s with schedule := rest, rdata := t.rdata, draws := t.draws } ∧
        ∀ i, i < 32 → t.rdata.getLsbD i =
          (if i = 0 then s.status.busy else if i = 1 then s.status.done else if i = 2 then s.status.err
          else if i = 3 then s.status.wdrop else if i = 4 then s.status.cdrop
          else if 8 ≤ i ∧ i < 12 then s.status.ecode.getLsbD (i - 8) else false)) ∧
    ∀ n, s.schedule = .poll n :: rest → ∃ t, step s = .next t ∧
      step { s with schedule := .host { offset := 0x0004, width := 4, kind := .read } :: rest } =
        .next { t with schedule := rest } ∧
      t.rdata.getLsbD 0 = s.status.busy ∧
      t.schedule =
        (if s.status.busy = false then rest else if n = 0 then .engine :: .poll 0 :: rest else .poll (n - 1) :: rest)

/-- R87: a host read changes nothing of the block: only the read data port (and the model's draw counter). -/
def Obligations.HostReadHasNoSideEffect : Prop :=
  ∀ (s : State) (offset : Offset) (rest : List Turn), offset.toNat % 4 = 0 →
    s.schedule = .host { offset := offset, width := 4, kind := .read } :: rest →
    ∃ t, step s = .next t ∧ t = { s with schedule := rest, rdata := t.rdata, draws := t.draws }

/-- R83: a read of a reserved offset of the map (R82, and the reserved word of a slot set, R43) returns 0; a write to it
is ignored, except that while BUSY = 1 it sets WDROP. -/
def Obligations.ReservedOffsetsReadZeroIgnoreWrites : Prop :=
  ∀ (s : State) (offset : Offset) (v : Word) (rest : List Turn), offset.toNat % 4 = 0 →
    ((0x0014 ≤ offset.toNat ∧ offset.toNat < 0x0100) ∨
      (0x0100 ≤ offset.toNat ∧ offset.toNat < 0x0180 ∧ offset.toNat % 0x20 = 0x1C) ∨
      (0x0180 ≤ offset.toNat ∧ offset.toNat < 0x1000) ∨ 0x5000 ≤ offset.toNat) →
    (s.schedule = .host { offset := offset, width := 4, kind := .read } :: rest →
      ∃ t, step s = .next t ∧ t.rdata = 0) ∧
    (s.schedule = .host { offset := offset, width := 4, kind := .write v } :: rest →
      step s = .next { s with
        schedule := rest
        status := if s.status.busy then { s.status with wdrop := true } else s.status })

/-- R84: while BUSY = 0 a write to BITPOS, STREAMLEN, PATCHIDS, the stream buffer, ROWBUF or a ROM is ignored. -/
def Obligations.ReadOnlyLocationsIgnoreWrites : Prop :=
  ∀ (s : State) (offset : Offset) (v : Word) (rest : List Turn), s.status.busy = false → offset.toNat % 4 = 0 →
    (offset = 0x000C ∨ offset = 0x0010 ∨
      (0x0100 ≤ offset.toNat ∧ offset.toNat < 0x0180 ∧ offset.toNat % 0x20 = 0x14) ∨
      (0x2000 ≤ offset.toNat ∧ offset.toNat < 0x3000) ∨ (0x3400 ≤ offset.toNat ∧ offset.toNat < 0x3800) ∨
      (0x4000 ≤ offset.toNat ∧ offset.toNat < 0x5000)) →
    s.schedule = .host { offset := offset, width := 4, kind := .write v } :: rest →
    step s = .next { s with schedule := rest }

/-- R43 to R50, R52: a host write to a slot register while BUSY = 0: POSX and POSY store bits 15:0, QWB bits 7:0, DCOFF and
RANGE the whole word, SERIAL the word or 1 for 0, PATCHIDS and the reserved word nothing; nothing else changes. A host
read returns POSX, POSY and QWB zero-extended, DCOFF, RANGE, PATCHIDS and SERIAL whole, and 0 for the reserved word, and
changes only the read data (and the model's draw counter); while BUSY = 1 that holds of POSX, POSY, SERIAL and the
reserved word (R99). -/
def Obligations.SlotRegistersStoreAndReadBack : Prop :=
  ∀ (s : State) (n : Fin 4) (k : Nat) (v : Word) (rest : List Turn), k < 8 →
    (s.status.busy = false →
      s.schedule = .host { offset := BitVec.ofNat 16 (0x0100 + 0x20 * n.val + 4 * k), width := 4, kind := .write v } :: rest →
      ∃ t, step s = .next t ∧ t = { s with schedule := rest, slots := t.slots } ∧ OtherSlotsKept n s t ∧
        t.slot n =
          (if k = 0 then { s.slot n with posx := v.extractLsb' 0 16 }
          else if k = 1 then { s.slot n with posy := v.extractLsb' 0 16 }
          else if k = 2 then { s.slot n with qwb := v.extractLsb' 0 8 }
          else if k = 3 then { s.slot n with dcoff := v }
          else if k = 4 then { s.slot n with range := v }
          else if k = 6 then { s.slot n with serial := if v = 0 then 1 else v }
          else s.slot n)) ∧
    (s.schedule = .host { offset := BitVec.ofNat 16 (0x0100 + 0x20 * n.val + 4 * k), width := 4, kind := .read } :: rest →
      ∃ t, step s = .next t ∧ t = { s with schedule := rest, rdata := t.rdata, draws := t.draws } ∧
        (s.status.busy = false ∨ k = 0 ∨ k = 1 ∨ k = 6 ∨ k = 7 → t.rdata =
          (if k = 0 then (s.slot n).posx.setWidth 32
          else if k = 1 then (s.slot n).posy.setWidth 32
          else if k = 2 then (s.slot n).qwb.setWidth 32
          else if k = 3 then (s.slot n).dcoff
          else if k = 4 then (s.slot n).range
          else if k = 5 then (s.slot n).patchids
          else if k = 6 then (s.slot n).serial
          else 0)))

/-- R51, R53: an accepted host write to sample word `k` of slot `n` stores the word there and nowhere else, and increments
the slot's SERIAL, from 0xFFFFFFFF to 1, whatever the word held before; nothing else changes. -/
def Obligations.SampleWriteStoresAndCounts : Prop :=
  ∀ (s : State) (n : Fin 4) (k : Nat) (v : Word) (rest : List Turn), s.status.busy = false → k < 256 →
    s.schedule = .host { offset := BitVec.ofNat 16 (0x1000 + 0x400 * n.val + 4 * k), width := 4, kind := .write v } :: rest →
    ∃ t, step s = .next t ∧ t = { s with schedule := rest, slots := t.slots, mem := t.mem } ∧ OtherSlotsKept n s t ∧
      t.slot n = { s.slot n with
        serial := if (s.slot n).serial = 0xFFFFFFFF then 1 else (s.slot n).serial + 1 } ∧
      t.mem.loadWord (0x1000 + 0x400 * n.val + 4 * k) = some v ∧
      MemKeptOutside (0x1000 + 0x400 * n.val + 4 * k) (0x1000 + 0x400 * n.val + 4 * k + 4) s t

/-- R13, R53 to R55: a word the host writes to the sample RAM or to COEF while BUSY = 0 is read back unchanged by its next
access; a write to word `k` of COEF stores the word there and changes nothing else, SERIAL and the slots included (R51);
and a written word of the sample RAM, COEF or ROWBUF reads as it stands, that of the sample RAM while BUSY = 1 too
(R99). -/
def Obligations.RamWordsStoreAndReadBack : Prop :=
  (∀ (s : State) (offset : Offset) (v : Word) (rest : List Turn), s.status.busy = false → offset.toNat % 4 = 0 →
    ((0x1000 ≤ offset.toNat ∧ offset.toNat < 0x2000) ∨ (0x3000 ≤ offset.toNat ∧ offset.toNat < 0x3400)) →
    s.schedule = .host { offset := offset, width := 4, kind := .write v } ::
      .host { offset := offset, width := 4, kind := .read } :: rest →
    ∃ t u, step s = .next t ∧ step t = .next u ∧ u.rdata = v) ∧
  (∀ (s : State) (k : Nat) (v : Word) (rest : List Turn), s.status.busy = false → k < 256 →
    s.schedule = .host { offset := BitVec.ofNat 16 (0x3000 + 4 * k), width := 4, kind := .write v } :: rest →
    ∃ t, step s = .next t ∧ t = { s with schedule := rest, mem := t.mem } ∧
      t.mem.loadWord (0x3000 + 4 * k) = some v ∧ MemKeptOutside (0x3000 + 4 * k) (0x3000 + 4 * k + 4) s t) ∧
  ∀ (s : State) (offset : Offset) (v : Word) (rest : List Turn), offset.toNat % 4 = 0 →
    ((0x1000 ≤ offset.toNat ∧ offset.toNat < 0x2000) ∨
      (s.status.busy = false ∧ 0x3000 ≤ offset.toNat ∧ offset.toNat < 0x3800)) →
    s.mem.loadWord offset.toNat = some v →
    s.schedule = .host { offset := offset, width := 4, kind := .read } :: rest →
    ∃ t, step s = .next t ∧ t.rdata = v

/-- R57: the ROMs read as the tables, BUSY = 1 or 0. -/
def Obligations.RomsReadAsTheTables : Prop :=
  ∀ (s : State) (j i : Nat) (rest : List Turn), j < 16 → i < 16 →
    (s.schedule = .host { offset := BitVec.ofNat 16 (0x4000 + 4 * (16 * j + i)), width := 4, kind := .read } :: rest →
      ∃ t, step s = .next t ∧ t.rdata = cosAt j i) ∧
    (s.schedule = .host { offset := BitVec.ofNat 16 (0x4400 + 4 * (16 * j + i)), width := 4, kind := .read } :: rest →
      ∃ t, step s = .next t ∧ t.rdata = qntAt j i) ∧
    (s.schedule = .host { offset := BitVec.ofNat 16 (0x4800 + 4 * (16 * j + i)), width := 4, kind := .read } :: rest →
      ∃ t, step s = .next t ∧ t.rdata = deqAt j i) ∧
    (s.schedule = .host { offset := BitVec.ofNat 16 (0x4C00 + 4 * (16 * j + i)), width := 4, kind := .read } :: rest →
      ∃ t, step s = .next t ∧ t.rdata.toNat = zigAt j i)

/-- R86: while BUSY = 0 stream byte `m`, below STREAMLEN, is read in bits 8(m mod 4) + 7 down to 8(m mod 4) of the word at
offset 0x2000 + 4(m div 4). -/
def Obligations.StreamBytesReadLittleEndian : Prop :=
  ∀ (s : State) (m : Nat) (b : Byte) (rest : List Turn), s.status.busy = false → m < 4096 → m < streamLen s →
    s.mem.load (0x2000 + m) = some b →
    s.schedule = .host { offset := BitVec.ofNat 16 (0x2000 + 4 * (m / 4)), width := 4, kind := .read } :: rest →
    ∃ t, step s = .next t ∧ t.rdata.extractLsb' (8 * (m % 4)) 8 = b

/-- R40 to R42: CMD reads as the word it holds, BUSY = 1 or 0; while BUSY = 0 BITPOS reads as it stands, and STREAMLEN as
(BITPOS + 7) >> 3. -/
def Obligations.CmdBitposAndStreamlenRead : Prop :=
  ∀ (s : State) (rest : List Turn),
    (s.schedule = .host { offset := 0x0008, width := 4, kind := .read } :: rest →
      ∃ t, step s = .next t ∧ t.rdata = s.cmd) ∧
    (s.status.busy = false → s.schedule = .host { offset := 0x000C, width := 4, kind := .read } :: rest →
      ∃ t, step s = .next t ∧ t.rdata = s.bitpos) ∧
    (s.status.busy = false → s.bitpos.toNat ≤ 32768 →
      s.schedule = .host { offset := 0x0010, width := 4, kind := .read } :: rest →
      ∃ t, step s = .next t ∧ t.rdata = (s.bitpos + 7) >>> 3 ∧ t.bitpos = s.bitpos)

/-- R81: a host access of another width than 32 bits, or at an offset that is no multiple of 4, is refused. -/
def Obligations.NarrowAndMisalignedAccessesAreRefused : Prop :=
  ∀ (s : State) (a : Access) (rest : List Turn), s.schedule = .host a :: rest →
    ((∃ r, step s = .refused r) ↔ (a.width ≠ 4 ∨ a.offset.toNat % 4 ≠ 0))

/-- R290, R291: `rst` puts every register at its reset value with every RAM byte unwritten, whatever ran; `State.reset` is that
state, and left alone it waits. That an unwritten byte is one the memory does not list is the model's form of R295's mark
(log 5); the read data, the schedule and the draw counter are the model's (log 10, 8, 1). -/
def Obligations.PowerOnResetsEverything : Prop :=
  (∀ (s : State) (rest : List Turn), s.schedule = .powerOn :: rest →
    ∃ t, step s = .next t ∧ t.ie = false ∧ t.status.toWord = 0 ∧ t.cmd = 0 ∧ t.bitpos = 0 ∧ streamLen t = 0 ∧
      (∀ n, t.slot n = { posx := 0, posy := 0, qwb := 0x88, dcoff := 0, range := 1, patchids := 0, serial := 1 }) ∧
      (∀ a, t.mem.load a = none) ∧ t.engine = Engine.idle ∧ irq t = false) ∧
    step { State.reset with schedule := [.powerOn] } = .next State.reset ∧ step State.reset = .next State.reset

/-- R292: a write of a word with bit 1 = 1 to CTRL resets every register, at any time; the sample RAM is kept; COEF, ROWBUF
and the stream bytes are kept if no command was running; if one was, COEF and ROWBUF are kept unless it was TRANSFORM
or BUILD, and then every word of COEF counts as written. -/
def Obligations.SoftResetResetsRegistersKeepsSamples : Prop :=
  ∀ (s : State) (v : Word) (rest : List Turn), v.getLsbD 1 = true →
    s.schedule = .host { offset := 0x0000, width := 4, kind := .write v } :: rest →
    ∃ t, step s = .next t ∧ t.ie = false ∧ t.status.toWord = 0 ∧ t.cmd = 0 ∧ t.bitpos = 0 ∧
      (∀ n, t.slot n = { posx := 0, posy := 0, qwb := 0x88, dcoff := 0, range := 1, patchids := 0, serial := 1 }) ∧
      t.engine = Engine.idle ∧ (∀ a, a < 0x2000 → t.mem.load a = s.mem.load a) ∧
      (s.status.busy = false → t.mem = s.mem) ∧
      (∀ i, decode s.engine.command = .ok i → (∀ n, i ≠ .transform n) → (∀ c e y, i ≠ .build c e y) →
        ∀ a, 0x3000 ≤ a → t.mem.load a = s.mem.load a) ∧
      (∀ i, s.status.busy = true → decode s.engine.command = .ok i →
        ((∃ n, i = .transform n) ∨ ∃ c e y, i = .build c e y) → ∃ cs, Coefs t cs)

/-! ### Every command -/

/-- R36, R37, R263, R270: whenever a command gives a next state, DONE is 1, BUSY is 0, the engine is idle, WDROP, CDROP, CTRL,
CMD and the read data are as before, `irq` is IE, and either ERR and ECODE are as before or ERR is 1 and ECODE is
BAD_COUNT, BAD_RANGE or OVERFLOW. -/
def Obligations.EveryCommandEndsByTheCompletionStep : Prop :=
  ∀ (i : Instr) (s t : State), exec i s = .next t →
    t.status.done = true ∧ t.status.busy = false ∧ t.engine = Engine.idle ∧ t.status.wdrop = s.status.wdrop ∧
      t.status.cdrop = s.status.cdrop ∧ ControlKept s t ∧ irq t = s.ie ∧
      ((t.status.err = s.status.err ∧ t.status.ecode = s.status.ecode) ∨
        (t.status.err = true ∧ (t.status.ecode = 2 ∨ t.status.ecode = 3 ∨ t.status.ecode = 4)))

/-- R53, R82, R50, R308: no command writes the sample RAM, nor any offset outside the stream buffer, COEF and ROWBUF, nor POSX,
POSY or SERIAL of any slot. -/
def Obligations.CommandsKeepSamplesPositionAndSerial : Prop :=
  ∀ (i : Instr) (s t : State), exec i s = .next t → MemKeptOutside 0x2000 0x3800 s t ∧
    ∀ n, (t.slot n).posx = (s.slot n).posx ∧ (t.slot n).posy = (s.slot n).posy ∧ (t.slot n).serial = (s.slot n).serial

/-- R260, R264: a command other than BUILD that ends in error changes no data. -/
def Obligations.FailingCommandsHaveNoEffect : Prop :=
  ∀ (i : Instr) (s t : State), (∀ c e y, i ≠ .build c e y) → exec i s = .next t → s.status.err = false →
    t.status.err = true → DataKept s t

/-- R295: a command that reads a sample or COEF word nothing has written ends in the fault that names such a word: PRESCAN,
TRANSFORM once RANGE is not 0, HDRENC once its header fits, COEFENC, and BUILD where a sample of one of its slots is
unwritten and no slot before it ends BUILD with a RANGE of 0. The checks that come before the read are the model's reading
of the order (log 16). -/
def Obligations.ReadingUnwrittenStateFaults : Prop :=
  ∀ (s : State) (n : Fin 4) (ext : Bool) (k : Nat), k < 256 →
    (s.mem.loadWord (0x1000 + 0x400 * n.val + 4 * k) = none →
      (∃ a, exec (.prescan n) s = .fault (.unwrittenState a) ∧ s.mem.loadWord a = none) ∧
      ((s.slot n).range ≠ 0 →
        ∃ a, exec (.transform n) s = .fault (.unwrittenState a) ∧ s.mem.loadWord a = none) ∧
      ∀ (count : Nat) (type : BitVec 8), count ≤ 4 → n.val < count →
        (∀ (m : Fin 4) (ws : List Word) (free : Nat → Word), m.val < n.val → Samples s m ws → prescanRange free ws ≠ 0) →
        ∃ a, exec (.build count ext type) s = .fault (.unwrittenState a) ∧ s.mem.loadWord a = none) ∧
    (s.mem.loadWord (0x3000 + 4 * k) = none →
      (s.bitpos.toNat + (if ext then 88 else 66) ≤ 32768 →
        ∃ a, exec (.hdrenc n ext) s = .fault (.unwrittenState a) ∧ s.mem.loadWord a = none) ∧
      ∃ a, exec (.coefenc n) s = .fault (.unwrittenState a) ∧ s.mem.loadWord a = none)

/-- R295, R306: a command faults only on a sample word of slot 0 to 3 or a COEF word that is unwritten when it starts. -/
def Obligations.CommandsFaultOnlyOnUnwrittenState : Prop :=
  ∀ (i : Instr) (s : State) (f : Fault), exec i s = .fault f →
    ∃ a, f = .unwrittenState a ∧ s.mem.loadWord a = none ∧
      ((0x1000 ≤ a ∧ a < 0x2000) ∨ (0x3000 ≤ a ∧ a < 0x3400))

/-! ### NOP, SCLR, GHDR, TERM -/

/-- R240: NOP completes and changes nothing but what the completion step does. -/
def Obligations.NopCompletesAndChangesNothing : Prop :=
  ∀ s : State, ∃ t, exec .nop s = .next t ∧ EndsOk s t ∧ DataKept s t

/-- R247: SCLR completes and leaves BITPOS = 0 and STREAMLEN = 0; slot registers and memory are unchanged. -/
def Obligations.SclrCompletesAndEmptiesTheStream : Prop :=
  ∀ s : State, ∃ t, exec .sclr s = .next t ∧ EndsOk s t ∧ t.bitpos = 0 ∧ streamLen t = 0 ∧ streamOf t = [] ∧
    t.slots = s.slots ∧ t.mem = s.mem ∧ t.draws = s.draws

/-- R242, R243: GHDR completes from every state and leaves the stream 01 08 10 <type>; no other byte of memory and no slot
register changes. -/
def Obligations.GhdrCompletesWithTheGroupHeader : Prop :=
  ∀ (s : State) (type : BitVec 8), ∃ t, exec (.ghdr type) s = .next t ∧ EndsOk s t ∧ t.bitpos = 32 ∧
    t.mem.load 0x2000 = some 0x01 ∧ t.mem.load 0x2001 = some 0x08 ∧ t.mem.load 0x2002 = some 0x10 ∧
    t.mem.load 0x2003 = some type ∧ MemKeptOutside 0x2000 0x2004 s t ∧ t.slots = s.slots ∧ t.draws = s.draws

/-- R245: with 8 bits free TERM completes and appends the bits of 97, most significant first; slot registers are unchanged. -/
def Obligations.TermCompletesWithTheSentinel : Prop :=
  ∀ s : State, s.bitpos.toNat + 8 ≤ 32768 → ∃ t, exec .term s = .next t ∧ EndsOk s t ∧
    Appended [false, true, true, false, false, false, false, true] s t ∧ t.slots = s.slots ∧ t.draws = s.draws

/-- R265: TERM, HDRENC and COEFENC whose bits do not fit end with OVERFLOW and change no data. HDRENC decides so whether or not
COEF is written: R200's pseudocode checks the room first, and that the check comes before the fault of R295 is the
model's reading (log 16). -/
def Obligations.AppendsThatDoNotFitOverflow : Prop :=
  ∀ (s : State) (n : Fin 4) (ext : Bool) (cs : List Word),
    (32768 < s.bitpos.toNat + 8 → ∃ t, exec .term s = .next t ∧ EndsIn 4 s t ∧ DataKept s t) ∧
    (32768 < s.bitpos.toNat + (if ext then 88 else 66) →
      ∃ t, exec (.hdrenc n ext) s = .next t ∧ EndsIn 4 s t ∧ DataKept s t) ∧
    (Coefs s cs → 32768 < s.bitpos.toNat + coefLength (((s.slot n).qwb.extractLsb' 0 4).toNat + 2) cs →
      ∃ t, exec (.coefenc n) s = .next t ∧ EndsIn 4 s t ∧ DataKept s t)

/-! ### PRESCAN -/

/-- R170 to R173: on 256 written samples PRESCAN completes; DCOFF is the last value of the scan that starts at sample (0,0) and
takes each strictly smaller sample, and RANGE is the truncation of zmax - zmin plus 1 wherever that truncation is an
s32; no other register and no memory changes. -/
def Obligations.PrescanCompletesWithMinimumAndRange : Prop :=
  ∀ (s : State) (n : Fin 4) (ws : List Word) (lo hi : Nat → Word), Samples s n ws → IsScan flt ws lo → IsScan fgt ws hi →
    ∃ t, exec (.prescan n) s = .next t ∧ EndsOk s t ∧
      t.slot n = { s.slot n with dcoff := (t.slot n).dcoff, range := (t.slot n).range } ∧ OtherSlotsKept n s t ∧
      t.mem = s.mem ∧ t.bitpos = s.bitpos ∧ (t.slot n).dcoff = lo 255 ∧
      ∀ φ, truncFits (fsub φ (hi 255) (lo 255)) = true →
        (t.slot n).range = BitVec.ofInt 32 (truncInt (fsub φ (hi 255) (lo 255)) + 1)

/-- R171, R175: with no NaN among the samples DCOFF is the first sample than which none compares less: those before it compare
greater. -/
def Obligations.PrescanKeepsTheFirstLeastSample : Prop :=
  ∀ (s : State) (n : Fin 4) (ws : List Word), Samples s n ws → (∀ w ∈ ws, isNaN w = false) →
    ∃ t k, exec (.prescan n) s = .next t ∧ k < 256 ∧ (t.slot n).dcoff = ws.getD k 0 ∧
      (∀ j, j < 256 → flt (ws.getD j 0) (ws.getD k 0) = false) ∧ ∀ j, j < k → flt (ws.getD k 0) (ws.getD j 0) = true

/-- R174, R306: samples that meet the host's duties give 1 ≤ RANGE ≤ 65536. -/
def Obligations.HostDutyGivesPositiveRange : Prop :=
  ∀ (s : State) (n : Fin 4) (ws : List Word), Samples s n ws → HostDuty ws →
    ∃ t, exec (.prescan n) s = .next t ∧ 1 ≤ (t.slot n).range.toNat ∧ (t.slot n).range.toNat ≤ 65536

/-! ### TRANSFORM -/

/-- R180 to R190: with RANGE not 0 and 256 written samples TRANSFORM completes; ROWBUF and COEF hold the row pass and the
truncated, zigzag-ordered column pass of the scaled block, each operation rounded in the order the rules give; the free
words matter only for NaN payloads and for truncations that no s32 holds. No other memory and no register changes. -/
def Obligations.TransformCompletesWithTheTwoPasses : Prop :=
  ∀ (s : State) (n : Fin 4) (ws : List Word), Samples s n ws → (s.slot n).range ≠ 0 →
    ∃ t rows cs, exec (.transform n) s = .next t ∧ EndsOk s t ∧ t.slots = s.slots ∧ t.bitpos = s.bitpos ∧
      MemKeptOutside 0x3000 0x3800 s t ∧ HoldsTransform t rows cs ∧
      IsTransform (((s.slot n).qwb.extractLsb' 4 4).toNat + 2) (s.slot n).dcoff (s.slot n).range ws rows cs

/-- R181, R266: TRANSFORM with RANGE = 0 ends with BAD_RANGE before it reads or writes anything, samples written or not. -/
def Obligations.TransformWithRangeZeroIsBadRange : Prop :=
  ∀ (s : State) (n : Fin 4), (s.slot n).range = 0 →
    ∃ t, exec (.transform n) s = .next t ∧ EndsIn 3 s t ∧ DataKept s t

/-- R184: TRANSFORM depends only on the samples of its slot, QWB[7:4], DCOFF and RANGE (and on which free values are drawn):
two states that agree on them get the same ROWBUF and COEF. That equal draw counters draw equal free values is the
model's choice (log 1). -/
def Obligations.TransformDependsOnlyOnItsOperands : Prop :=
  ∀ (s s' : State) (n n' : Fin 4) (ws : List Word), Samples s n ws → Samples s' n' ws →
    (s.slot n).qwb.extractLsb' 4 4 = (s'.slot n').qwb.extractLsb' 4 4 → (s.slot n).dcoff = (s'.slot n').dcoff →
    (s.slot n).range = (s'.slot n').range → s.draws = s'.draws → (s.slot n).range ≠ 0 →
    ∃ t t', exec (.transform n) s = .next t ∧ exec (.transform n') s' = .next t' ∧
      ∀ a, 0x3000 ≤ a → a < 0x3800 → t.mem.load a = t'.mem.load a

/-! ### HDRENC -/

/-- R200, R206 to R210: with COEF written and room for the header HDRENC completes: QWB keeps its high nibble and takes wbits - 2
in its low one, PATCHIDS is the packed position, and the header's bits QWB, DCOFF, RANGE[15:0], PatchIDs are appended;
no other register changes. -/
def Obligations.HdrencCompletesWithTheHeader : Prop :=
  ∀ (s : State) (n : Fin 4) (ext : Bool) (cs : List Word), Coefs s cs →
    s.bitpos.toNat + (if ext then 88 else 66) ≤ 32768 →
    ∃ t, exec (.hdrenc n ext) s = .next t ∧ EndsOk s t ∧ OtherSlotsKept n s t ∧ t.draws = s.draws ∧
      t.slot n = { s.slot n with
        qwb := ((s.slot n).qwb &&& 0xF0) ||| BitVec.ofNat 8 (chooseWidth .doc (s.slot n).qwb cs - 2)
        patchids := patchIdFormula ext (s.slot n).posx (s.slot n).posy } ∧
      Appended (headerFormula ext (t.slot n)) s t

/-- R202 to R205: wbits lies in [minW + 1, minW + 6] and in [2, 17]; every set bit of a magnitude above minW and up to
minW + 5 lies below it; and unless it is minW + 1, the bit below it is a set bit of some magnitude. -/
def Obligations.WbitsIsTheHighestSeenBitPlusOne : Prop :=
  ∀ (q : BitVec 8) (cs : List Word) (minW w : Nat), minW = ((q.extractLsb' 0 4).toNat + 2) / 2 →
    w = chooseWidth .doc q cs →
    minW + 1 ≤ w ∧ w ≤ minW + 6 ∧ 2 ≤ w ∧ w ≤ 17 ∧
      (∀ c ∈ cs, ∀ j, minW < j → j ≤ minW + 5 → (absU32 c).getLsbD j = true → j < w) ∧
      (w = minW + 1 ∨ ∃ c ∈ cs, (absU32 c).getLsbD (w - 1) = true)

/-! ### COEFENC -/

/-- R220, R221: with COEF written and room for the tokens COEFENC completes and appends the token stream at width
QWB[3:0] + 2; slot registers are unchanged. -/
def Obligations.CoefencCompletesWithTheTokens : Prop :=
  ∀ (s : State) (n : Fin 4) (cs : List Word), Coefs s cs →
    s.bitpos.toNat + coefLength (((s.slot n).qwb.extractLsb' 0 4).toNat + 2) cs ≤ 32768 →
    ∃ t, exec (.coefenc n) s = .next t ∧ EndsOk s t ∧ t.slots = s.slots ∧ t.draws = s.draws ∧
      Appended (tokens (((s.slot n).qwb.extractLsb' 0 4).toNat + 2) cs) s t

/-- R222 to R225: the tokens of a coefficient list: `10` where all that is left is zero, `0` for another zero, and for a
nonzero one `110` or `111` by its sign and the low `w` bits of min(|c|, 1 << w); nothing follows a nonzero last one. -/
def Obligations.TokensFollowTheRules : Prop :=
  ∀ (w : Nat) (c : Word) (cs : List Word), w ≤ 17 →
    tokens w [] = [] ∧ ((∀ x ∈ c :: cs, x = 0) → tokens w (c :: cs) = [true, false]) ∧
      (c = 0 → (∃ x ∈ cs, x ≠ 0) → tokens w (c :: cs) = false :: tokens w cs) ∧
      (0 < c.toInt → tokens w (c :: cs) =
        [true, true, false] ++ bitsDown (BitVec.ofNat 32 (min c.toInt.natAbs (2 ^ w))) 0 w ++ tokens w cs) ∧
      (c.toInt < 0 → tokens w (c :: cs) =
        [true, true, true] ++ bitsDown (BitVec.ofNat 32 (min c.toInt.natAbs (2 ^ w))) 0 w ++ tokens w cs)

/-- R226: `CoefLength(w)`, the sum over the coefficients up to the last nonzero one plus 2 if that is not the last of all, is
the number of bits the tokens have; for 256 coefficients and w in 2..17 it lies between 2 and 5120. -/
def Obligations.CoefLengthCountsTheTokenBits : Prop :=
  ∀ (w : Nat) (cs : List Word), (tokens w cs).length = coefLength w cs ∧
    (∀ e, e < cs.length → cs.getD e 0 ≠ 0 → (∀ k, e < k → k < cs.length → cs.getD k 0 = 0) →
      coefLength w cs =
        ((List.range (e + 1)).map fun k => if cs.getD k 0 = 0 then 1 else 3 + w).sum + (if e + 1 < cs.length then 2 else 0)) ∧
    (cs.length = 256 → 2 ≤ w → w ≤ 17 → 2 ≤ coefLength w cs ∧ coefLength w cs ≤ 5120)

/-- R229: the tokens form a prefix code: from a stream that begins with the tokens of `n` coefficients a decoder that knows w
and n recovers each sign and sent magnitude, and where the next field starts. -/
def Obligations.TokensSplitBackUniquely : Prop :=
  ∀ (w : Nat) (cs cs' : List Word) (rest rest' : List Bool), w ≤ 17 → cs.length = cs'.length →
    tokens w cs ++ rest = tokens w cs' ++ rest' →
    cs.map (sentValue w) = cs'.map (sentValue w) ∧ rest = rest'

/-! ### BUILD -/

/-- R251: BUILD with a count of 0 or above 4 ends with BAD_COUNT before any effect. -/
def Obligations.BuildWithBadCountHasNoEffect : Prop :=
  ∀ (s : State) (count : Nat) (ext : Bool) (type : BitVec 8), (count < 1 ∨ 4 < count) →
    ∃ t, exec (.build count ext type) s = .next t ∧ EndsIn 2 s t ∧ DataKept s t

/-- R250, R252 to R254: with a count of 1 to 4, the slots' samples written and no RANGE of 0 from PRESCAN, BUILD completes. Each
of its slots takes DCOFF and RANGE as PRESCAN, COEF and ROWBUF values as TRANSFORM with 10 prequant bits, and QWB and
PATCHIDS as HDRENC gives them; the other slots and every POSX, POSY and SERIAL are kept; COEF and ROWBUF hold the last
slot's values; the stream is the GroupHeader, each slot's PatchHeader and tokens, and the sentinel, with zero fill, and is
no longer than R253 says; no memory below the stream buffer or above ROWBUF changes. -/
def Obligations.BuildCompletesWithOneMessage : Prop :=
  ∀ (s : State) (count : Nat) (ext : Bool) (type : BitVec 8) (ws : Fin 4 → List Word), 1 ≤ count → count ≤ 4 →
    (∀ n : Fin 4, n.val < count → Samples s n (ws n) ∧ ∀ free, prescanRange free (ws n) ≠ 0) →
    ∃ (t : State) (rows : Fin 4 → Nat → Nat → Word) (cs : Fin 4 → List Word), exec (.build count ext type) s = .next t ∧
      EndsOk s t ∧ MemKeptOutside 0x2000 0x3800 s t ∧ (∀ n : Fin 4, count ≤ n.val → t.slot n = s.slot n) ∧
      (∀ n : Fin 4, n.val < count → (t.slot n).posx = (s.slot n).posx ∧ (t.slot n).posy = (s.slot n).posy ∧
        (t.slot n).serial = (s.slot n).serial ∧ (t.slot n).dcoff = prescanMin (ws n) ∧
        (∃ free, (t.slot n).range = prescanRange free (ws n)) ∧
        IsTransform 10 (t.slot n).dcoff (t.slot n).range (ws n) (rows n) (cs n) ∧
        (t.slot n).qwb = 0x80 ||| BitVec.ofNat 8 (chooseWidth .doc 0x88 (cs n) - 2) ∧
        (t.slot n).patchids = patchIdFormula ext (s.slot n).posx (s.slot n).posy) ∧
      (∀ n : Fin 4, n.val + 1 = count → HoldsTransform t (rows n) (cs n)) ∧
      streamOf t =
        bitsDown 264 0 16 ++ bitsDown 16 0 8 ++ bitsDown (type.setWidth 32) 0 8 ++
          (((List.finRange 4).take count).flatMap fun n =>
            headerFormula ext (t.slot n) ++ tokens (((t.slot n).qwb.extractLsb' 0 4).toNat + 2) (cs n)) ++
          bitsDown 97 0 8 ∧
      (∀ k, t.bitpos.toNat ≤ k → k < 8 * streamLen t → streamBit t.mem k = false) ∧
      40 + 68 * count ≤ t.bitpos.toNat ∧ t.bitpos.toNat ≤ 40 + 3672 * count

/-- R250, R253, R257, R295: with a count of 1 to 4 and the slots' samples written, BUILD always ends, in success or with
BAD_RANGE; either way the other slots, every POSX, POSY and SERIAL, and the memory outside the stream buffer, COEF and ROWBUF are
kept, and BITPOS is legal. After BAD_RANGE the same words of COEF are marked unwritten as before, unless a TRANSFORM of an
earlier slot wrote them all, which takes a count above 1: that an inner BAD_RANGE clears no mark is read from R295
(log 15, DEDUCED). That BITPOS stays legal after BAD_RANGE, where R257 leaves it open, is the model's choice (log 15). -/
def Obligations.BuildOnWrittenSamplesAlwaysEnds : Prop :=
  ∀ (s : State) (count : Nat) (ext : Bool) (type : BitVec 8), 1 ≤ count → count ≤ 4 →
    (∀ n : Fin 4, n.val < count → ∃ ws, Samples s n ws) →
    ∃ t, exec (.build count ext type) s = .next t ∧
      (EndsOk s t ∨ EndsIn 3 s t ∧
        ((∀ k, k < 256 → (t.mem.loadWord (0x3000 + 4 * k)).isSome = (s.mem.loadWord (0x3000 + 4 * k)).isSome) ∨
          1 < count ∧ ∃ cs, Coefs t cs)) ∧
      MemKeptOutside 0x2000 0x3800 s t ∧
      (∀ n : Fin 4, count ≤ n.val → t.slot n = s.slot n) ∧
      (∀ n : Fin 4, (t.slot n).posx = (s.slot n).posx ∧ (t.slot n).posy = (s.slot n).posy ∧
        (t.slot n).serial = (s.slot n).serial) ∧ t.bitpos.toNat ≤ 32768

/-- R248, R250: with a count of 1 to 4, the slots' samples written and no RANGE of 0 from PRESCAN, BUILD leaves the same slot
registers, memory and BITPOS as the stage commands run one by one, and neither raises an error. Where samples are not
finite the free values of the two runs agree because both start from one draw counter: that is the model's choice
(log 1). -/
def Obligations.BuildEqualsTheStageCommands : Prop :=
  ∀ (s : State) (count : Nat) (ext : Bool) (type : BitVec 8) (ws : Fin 4 → List Word), 1 ≤ count → count ≤ 4 →
    (∀ n : Fin 4, n.val < count → Samples s n (ws n) ∧ ∀ free, prescanRange free (ws n) ≠ 0) →
    ∃ t u, exec (.build count ext type) s = .next t ∧ stageCommands count ext type s = .next u ∧
      t.status.err = s.status.err ∧ u.status.err = s.status.err ∧ DataKept t u

/-! ### The invariant -/

/-- R290: the invariant holds right after reset. -/
def Obligations.InvariantHoldsAtReset : Prop := Inv State.reset

/-- R35, R37, R41, R50, R58, R82, R93, R261: every step of every agent keeps the invariant: memory in canonical form and inside
the RAMs, BITPOS legal and its bytes written, SERIAL never 0, ECODE legal and nonzero exactly with ERR, and the engine
running the legal word in CMD exactly while BUSY = 1. The canonical list is the model's form of memory (log 5), the
engine's fixed fields while idle are its choice (log 11), and so are a legal BITPOS and written bytes after an inner
BAD_RANGE (log 15). -/
def Obligations.EveryStepKeepsTheInvariant : Prop :=
  ∀ s t : State, Inv s → step s = .next t → Inv t

/-! ### Binary32 and the tables -/

/-- R10: `roundMag` rounds to nearest, ties to even; `fadd`, `fsub`, `fmul` and `fdiv` of finite operands are the exact result
so rounded, an exact zero sum being +0 unless both addends are negative; a finite nonzero value divided by a zero, and
the operations with one infinity, give what IEEE-754 gives (log 27, DEDUCED: R10 names the IEEE-754 operations and does
not write these cases out). -/
def Obligations.OperationsRoundToNearestEven : Prop :=
  (∀ (n d : Nat) (neg : Bool), 0 < d → IsRounded neg n d (f32Make neg (roundMag n d))) ∧
  (∀ φ a b : Word, isFinite a = true → isFinite b = true →
    IsRounded (if f32Value a + f32Value b = 0 then f32Neg a && f32Neg b else decide (f32Value a + f32Value b < 0))
      (f32Value a + f32Value b).natAbs 1 (fadd φ a b) ∧
    IsRounded (if f32Value a - f32Value b = 0 then f32Neg a && !f32Neg b else decide (f32Value a - f32Value b < 0))
      (f32Value a - f32Value b).natAbs 1 (fsub φ a b) ∧
    IsRounded (f32Neg a != f32Neg b) (f32Units a * f32Units b) (1 <<< 149) (fmul φ a b) ∧
    (f32Units b ≠ 0 → IsRounded (f32Neg a != f32Neg b) (f32Units a <<< 149) (f32Units b) (fdiv φ a b)) ∧
    (f32Units b = 0 → f32Units a ≠ 0 → fdiv φ a b = infinity (f32Neg a != f32Neg b))) ∧
  ∀ φ a b : Word, isInf a = true → isFinite b = true →
    fadd φ a b = a ∧ fadd φ b a = a ∧ fsub φ a b = a ∧ fsub φ b a = infinity (!f32Neg a) ∧
    (f32Units b ≠ 0 → fmul φ a b = infinity (f32Neg a != f32Neg b) ∧ fmul φ b a = infinity (f32Neg a != f32Neg b)) ∧
    fdiv φ a b = infinity (f32Neg a != f32Neg b) ∧ fdiv φ b a = if f32Neg a != f32Neg b then 0x80000000 else 0

/-- R10: invalid operations give a NaN whatever the free word, and so does a NaN operand. -/
def Obligations.InvalidOperationsGiveNaN : Prop :=
  ∀ (φ a b : Word),
    (isNaN a = true ∨ isNaN b = true →
      isNaN (fadd φ a b) = true ∧ isNaN (fsub φ a b) = true ∧ isNaN (fmul φ a b) = true ∧ isNaN (fdiv φ a b) = true) ∧
    (isInf a = true → isInf b = true →
      isNaN (fdiv φ a b) = true ∧ (f32Neg a ≠ f32Neg b → isNaN (fadd φ a b) = true) ∧
        (f32Neg a = f32Neg b → isNaN (fsub φ a b) = true)) ∧
    (f32Units a = 0 → isInf b = true → isNaN (fmul φ a b) = true ∧ isNaN (fmul φ b a) = true) ∧
    (f32Units a = 0 → f32Units b = 0 → isNaN (fdiv φ a b) = true)

/-- R12: the ordered comparisons are false with a NaN operand, the two zeros compare equal, and otherwise they compare the
values. -/
def Obligations.ComparisonsAreOrdered : Prop :=
  (∀ a b : Word, (isNaN a = true ∨ isNaN b = true) → flt a b = false ∧ fgt a b = false) ∧
    (flt 0x80000000 0x00000000 = false ∧ flt 0x00000000 0x80000000 = false ∧ fgt 0x80000000 0x00000000 = false ∧
      fgt 0x00000000 0x80000000 = false) ∧
    ∀ a b : Word, isNaN a = false → isNaN b = false →
      (flt a b = true ↔ f32Value a < f32Value b) ∧ (fgt a b = true ↔ f32Value b < f32Value a)

/-- R14: where the truncation toward zero of a finite value is an s32, `trunc_s32` is it: same sign, magnitude the whole part. -/
def Obligations.TruncationIsTowardZero : Prop :=
  ∀ (φ w : Word), truncFits w = true →
    (truncS32 φ w).toInt.natAbs <<< 149 ≤ f32Units w ∧ f32Units w < ((truncS32 φ w).toInt.natAbs + 1) <<< 149 ∧
      (f32Neg w = false → 0 ≤ (truncS32 φ w).toInt) ∧ (f32Neg w = true → (truncS32 φ w).toInt ≤ 0)

/-- R155: COS[0][n] = 1.0; COS[u][15-n] = (-1)^u COS[u][n] exactly; no entry is a zero. -/
def Obligations.CosineTableIsSymmetric : Prop :=
  ∀ u n, u < 16 → n < 16 → cosAt 0 n = 0x3F800000 ∧
    cosAt u (15 - n) = (if u % 2 = 0 then cosAt u n else fneg (cosAt u n)) ∧ f32Units (cosAt u n) ≠ 0

/-- R152, R153: DEQ[j][i] is exactly 1 + 2(i + j), QNT[j][i] is the rounded quotient of 1.0 by it, and QNT is symmetric. -/
def Obligations.QuantizeTableIsTheReciprocals : Prop :=
  ∀ (φ : Word) (j i : Nat), j < 16 → i < 16 → f32Units (deqAt j i) = (1 + 2 * (i + j)) <<< 149 ∧
    f32Neg (deqAt j i) = false ∧ qntAt j i = fdiv φ 0x3F800000 (deqAt j i) ∧ qntAt j i = qntAt i j

/-- R156, R157: the ZIG table is the output of the traversal, and a permutation of 0..255. -/
def Obligations.ZigzagTableIsTheTraversal : Prop :=
  zigTraversal.length = 256 ∧ (∀ k, k < 256 → zigList.getD (zigTraversal.getD k 256) 256 = k) ∧
    zigList.length = 256 ∧ ∀ p, p < 256 → zigList.getD p 256 < 256 ∧ zigTraversal.getD (zigList.getD p 256) 256 = p
end

