-- ==== Sys2Proof/Laws/Memory.lean ====
section
/-! SUPPORT. What the memory operations do: a byte read after a store, the canonical form kept, words read back. -/

namespace Sys2Proof.Machine

theorem lookup_filter_key (m : Memory) (q : Nat → Bool) (x : Nat) :
    (m.filter fun c => q c.1).lookup x = if q x then m.lookup x else none := by
  induction m with
  | nil => simp
  | cons c m ih =>
    obtain ⟨k, v⟩ := c
    by_cases hk : x = k
    · subst hk
      cases hq : q x
      · rw [List.filter_cons_of_neg (by simp [hq]), ih, hq]; simp
      · rw [List.filter_cons_of_pos (by simp [hq])]; simp
    · have hb : (x == k) = false := by simpa using hk
      by_cases hq : q k <;> simp [hq, List.lookup_cons, hb, ih]

theorem lookup_cells (a : Nat) (bs : List Byte) (x : Nat) :
    (Memory.cells a bs).lookup x = if a ≤ x then bs[x - a]? else none := by
  induction bs generalizing a with
  | nil => simp [Memory.cells]
  | cons b bs ih =>
    by_cases hk : x = a
    · subst hk; simp [Memory.cells]
    · have hb : (x == a) = false := by simpa using hk
      rw [Memory.cells, List.lookup_cons, hb]
      simp only [ih]
      by_cases hax : a ≤ x
      · have h1 : a + 1 ≤ x := by omega
        obtain ⟨d, rfl⟩ : ∃ d, x = a + 1 + d := ⟨x - (a + 1), by omega⟩
        have e1 : a + 1 + d - (a + 1) = d := by omega
        have e2 : a + 1 + d - a = d + 1 := by omega
        rw [if_pos h1, if_pos hax, e1, e2, List.getElem?_cons_succ]
      · have h1 : ¬a + 1 ≤ x := by omega
        simp [hax, h1]

/-- THE read-after-store law: a byte inside the stored run reads as stored, every other byte as before. -/
theorem load_store (a : Nat) (bs : List Byte) (m : Memory) (x : Nat) :
    (Memory.store a bs m).load x = if a ≤ x ∧ x < a + bs.length then bs[x - a]? else m.load x := by
  unfold Memory.store Memory.load
  rw [List.lookup_append, List.lookup_append, lookup_filter_key m (fun k => decide (k < a)), lookup_cells,
    lookup_filter_key m (fun k => decide (a + bs.length ≤ k))]
  by_cases h1 : x < a
  · have h2 : ¬a ≤ x := by omega
    have h3 : ¬a + bs.length ≤ x := by omega
    simp [h1, h2, h3]
  · have h2 : a ≤ x := by omega
    by_cases h3 : x < a + bs.length
    · have h4 : ¬a + bs.length ≤ x := by omega
      simp [h1, h2, h3, h4]
    · have h4 : a + bs.length ≤ x := by omega
      have h5 : bs[x - a]? = none := by rw [List.getElem?_eq_none_iff]; omega
      simp [h1, h2, h3, h4, h5]

theorem load_store_outside {a : Nat} {bs : List Byte} {m : Memory} {x : Nat} (h : x < a ∨ a + bs.length ≤ x) :
    (Memory.store a bs m).load x = m.load x := by
  rw [load_store, if_neg]; omega

/-- A refreshed byte holds a value exactly where it did before, the new one inside the range. -/
theorem load_refresh (lo hi : Nat) (f : Nat → Byte) (m : Memory) (x : Nat) :
    (m.refresh lo hi f).load x = if lo ≤ x ∧ x < hi then (m.load x).map fun _ => f x else m.load x := by
  unfold Memory.refresh Memory.load
  induction m with
  | nil => simp
  | cons c m ih =>
    obtain ⟨k, v⟩ := c
    rw [List.map_cons, List.lookup_cons, List.lookup_cons]
    by_cases hk : x = k
    · subst hk
      by_cases h : lo ≤ x ∧ x < hi <;> simp [h]
    · have hb : (x == k) = false := by simpa using hk
      simp only [hb, ih]

theorem load_refresh_outside {lo hi : Nat} {f : Nat → Byte} {m : Memory} {x : Nat} (h : x < lo ∨ hi ≤ x) :
    (m.refresh lo hi f).load x = m.load x := by
  rw [load_refresh, if_neg]; omega

@[simp] theorem load_refresh_isSome (lo hi : Nat) (f : Nat → Byte) (m : Memory) (x : Nat) :
    ((m.refresh lo hi f).load x).isSome = (m.load x).isSome := by
  rw [load_refresh]; split <;> simp

theorem mem_cells {a : Nat} {bs : List Byte} {c : Host.Cell} (h : c ∈ Memory.cells a bs) :
    a ≤ c.1 ∧ c.1 < a + bs.length := by
  induction bs generalizing a with
  | nil => simp [Memory.cells] at h
  | cons b bs ih =>
    simp only [Memory.cells, List.mem_cons] at h
    rcases h with rfl | h
    · simp
    · have := ih h; simp only [List.length_cons]; omega

theorem mem_store {a : Nat} {bs : List Byte} {m : Memory} {c : Host.Cell} (h : c ∈ Memory.store a bs m) :
    c ∈ m ∨ (a ≤ c.1 ∧ c.1 < a + bs.length) := by
  simp only [Memory.store, List.mem_append, List.mem_filter] at h
  rcases h with (⟨h, -⟩ | h) | ⟨h, -⟩
  · exact .inl h
  · exact .inr (mem_cells h)
  · exact .inl h

theorem cells_wf (a : Nat) (bs : List Byte) : (Memory.cells a bs).wf := by
  induction bs generalizing a with
  | nil => simp [Memory.cells, Memory.wf]
  | cons b bs ih =>
    exact List.pairwise_cons.2 ⟨fun c hc => by have := mem_cells hc; simp only; omega, ih _⟩

/-- Every store keeps the canonical form. -/
theorem store_wf {m : Memory} (h : m.wf) (a : Nat) (bs : List Byte) : (Memory.store a bs m).wf := by
  unfold Memory.store Memory.wf
  rw [List.pairwise_append, List.pairwise_append]
  refine ⟨⟨h.filter _, cells_wf a bs, fun x hx y hy => ?_⟩, h.filter _, fun x hx y hy => ?_⟩
  · have := mem_cells hy
    simp only [List.mem_filter, decide_eq_true_eq] at hx
    omega
  · simp only [List.mem_filter, decide_eq_true_eq] at hy
    rcases List.mem_append.1 hx with hx | hx
    · simp only [List.mem_filter, decide_eq_true_eq] at hx; omega
    · have := mem_cells hx; omega

/-- A refresh keeps the canonical form. -/
theorem refresh_wf {m : Memory} (h : m.wf) (lo hi : Nat) (f : Nat → Byte) : (m.refresh lo hi f).wf :=
  List.pairwise_map.2 h

/-- A refresh lists no new offset. -/
theorem mem_refresh {lo hi : Nat} {f : Nat → Byte} {m : Memory} {c : Host.Cell} (h : c ∈ m.refresh lo hi f) :
    ∃ b, (c.1, b) ∈ m := by
  obtain ⟨x, hx, rfl⟩ := List.mem_map.1 h
  exact ⟨x.2, hx⟩

@[simp] theorem wordBytes_length (w : Word) : (wordBytes w).length = 4 := rfl

@[simp] theorem bytesWord_wordBytes (w : Word) :
    bytesWord (w.extractLsb' 0 8) (w.extractLsb' 8 8) (w.extractLsb' 16 8) (w.extractLsb' 24 8) = w := by
  apply BitVec.eq_of_getLsbD_eq
  intro i hi
  simp only [bytesWord, BitVec.getLsbD_append, BitVec.getLsbD_extractLsb']
  by_cases h1 : i < 8
  · simp [h1]
  · by_cases h2 : i - 8 < 8
    · have : 8 + (i - 8) = i := by omega
      simp [h1, h2, this]
    · by_cases h3 : i - 8 - 8 < 8
      · have : 16 + (i - 8 - 8) = i := by omega
        simp [h1, h2, h3, this]
      · have h4 : i - 8 - 8 - 8 < 8 := by omega
        have : 24 + (i - 8 - 8 - 8) = i := by omega
        simp [h1, h2, h3, h4, this]

@[simp] theorem flatMap_wordBytes_length (ws : List Word) : (ws.flatMap wordBytes).length = 4 * ws.length := by
  induction ws with
  | nil => rfl
  | cons w ws ih => simp only [List.flatMap_cons, List.length_append, wordBytes_length, ih, List.length_cons]; omega

theorem flatMap_wordBytes_getElem? (ws : List Word) (k j : Nat) (hj : j < 4) :
    (ws.flatMap wordBytes)[4 * k + j]? = ws[k]?.bind fun w => (wordBytes w)[j]? := by
  induction ws generalizing k with
  | nil => simp
  | cons w ws ih =>
    rw [List.flatMap_cons]
    cases k with
    | zero =>
      rw [List.getElem?_append_left (by simpa using hj)]
      simp
    | succ k =>
      rw [List.getElem?_append_right (by simp only [wordBytes_length]; omega)]
      have : 4 * (k + 1) + j - (wordBytes w).length = 4 * k + j := by simp only [wordBytes_length]; omega
      rw [this, ih]
      simp

theorem storeWords_wf {m : Memory} (h : m.wf) (a : Nat) (ws : List Word) : (m.storeWords a ws).wf := store_wf h _ _

theorem load_storeWords_outside {a : Nat} {ws : List Word} {m : Memory} {x : Nat}
    (h : x < a ∨ a + 4 * ws.length ≤ x) : (m.storeWords a ws).load x = m.load x := by
  apply load_store_outside
  rw [flatMap_wordBytes_length]; exact h

/-- A stored word reads back. -/
theorem loadWord_storeWords {a : Nat} {ws : List Word} {m : Memory} {k : Nat} (hk : k < ws.length) :
    (m.storeWords a ws).loadWord (a + 4 * k) = some ws[k] := by
  have key : ∀ j, j < 4 → (m.storeWords a ws).load (a + 4 * k + j) = (wordBytes ws[k])[j]? := by
    intro j hj
    unfold Memory.storeWords
    rw [load_store, if_pos (by simp only [flatMap_wordBytes_length]; omega)]
    have : a + 4 * k + j - a = 4 * k + j := by omega
    rw [this, flatMap_wordBytes_getElem? _ _ _ hj, List.getElem?_eq_getElem hk]
    rfl
  have k0 := key 0 (by omega)
  have k1 := key 1 (by omega)
  have k2 := key 2 (by omega)
  have k3 := key 3 (by omega)
  simp only [Nat.add_zero] at k0
  simp [Memory.loadWord, k0, k1, k2, k3, wordBytes]

/-- A word outside the stored run reads as before. -/
theorem loadWord_storeWords_outside {a : Nat} {ws : List Word} {m : Memory} {x : Nat}
    (h : x + 4 ≤ a ∨ a + 4 * ws.length ≤ x) : (m.storeWords a ws).loadWord x = m.loadWord x := by
  unfold Memory.loadWord
  rw [load_storeWords_outside (by omega), load_storeWords_outside (by omega), load_storeWords_outside (by omega),
    load_storeWords_outside (by omega)]

/-- A word holds a value exactly where its four bytes do. -/
theorem loadWord_isSome (m : Memory) (a : Nat) : (m.loadWord a).isSome =
    ((m.load a).isSome && (m.load (a + 1)).isSome && (m.load (a + 2)).isSome && (m.load (a + 3)).isSome) := by
  unfold Memory.loadWord
  cases m.load a <;> cases m.load (a + 1) <;> cases m.load (a + 2) <;> cases m.load (a + 3) <;> rfl

theorem loadWord_congr {m m' : Memory} {a : Nat} (h : ∀ x, a ≤ x → x < a + 4 → m'.load x = m.load x) :
    m'.loadWord a = m.loadWord a := by
  unfold Memory.loadWord
  rw [h a (by omega) (by omega), h (a + 1) (by omega) (by omega), h (a + 2) (by omega) (by omega),
    h (a + 3) (by omega) (by omega)]

/-- `loadWords` answers a list exactly when every word of the run is written, and then the list holds them in order. -/
theorem loadWords_ok_iff {m : Memory} {a n : Nat} {ws : List Word} :
    m.loadWords a n = .ok ws ↔ ws.length = n ∧ ∀ k (h : k < ws.length), m.loadWord (a + 4 * k) = some ws[k] := by
  induction n generalizing a ws with
  | zero =>
    constructor
    · intro h; cases h; simp
    · rintro ⟨h, -⟩; rw [List.length_eq_zero_iff] at h; subst h; rfl
  | succ n ih =>
    rw [Memory.loadWords]
    cases hw : m.loadWord a with
    | none =>
      constructor
      · intro h; cases h
      · rintro ⟨hl, hk⟩
        have := hk 0 (by omega)
        simp [hw] at this
    | some w =>
      simp only
      cases hr : m.loadWords (a + 4) n with
      | error e =>
        constructor
        · intro h; cases h
        · rintro ⟨hl, hk⟩
          cases ws with
          | nil => simp at hl
          | cons v vs =>
            have := (ih (a := a + 4) (ws := vs)).2 ⟨by simpa using hl, fun k h => by
              have := hk (k + 1) (by simpa using h)
              rw [show a + 4 + 4 * k = a + 4 * (k + 1) by omega, this]; simp⟩
            rw [hr] at this; cases this
      | ok vs =>
        have hv := (ih (a := a + 4) (ws := vs)).1 hr
        constructor
        · intro h
          cases h
          refine ⟨by simp [hv.1], fun k h => ?_⟩
          cases k with
          | zero => simpa using hw
          | succ k =>
            rw [show a + 4 * (k + 1) = a + 4 + 4 * k by omega, hv.2 k (by simpa using h)]; simp
        · rintro ⟨hl, hk⟩
          cases ws with
          | nil => simp at hl
          | cons u us =>
            have h0 := hk 0 (by simp)
            simp only [Nat.mul_zero, Nat.add_zero, List.getElem_cons_zero, hw, Option.some.injEq] at h0
            have hus : m.loadWords (a + 4) n = .ok us := (ih (a := a + 4) (ws := us)).2 ⟨by simpa using hl, fun k h => by
              have := hk (k + 1) (by simpa using h)
              rw [show a + 4 + 4 * k = a + 4 * (k + 1) by omega, this]; simp⟩
            rw [hr] at hus
            cases hus
            rw [h0]

/-- A failed `loadWords` names an unwritten word of the run. -/
theorem loadWords_error {m : Memory} {a n e : Nat} (h : m.loadWords a n = .error e) :
    ∃ k, k < n ∧ e = a + 4 * k ∧ m.loadWord e = none := by
  induction n generalizing a with
  | zero => cases h
  | succ n ih =>
    rw [Memory.loadWords] at h
    cases hw : m.loadWord a with
    | none => rw [hw] at h; cases h; exact ⟨0, by omega, by omega, hw⟩
    | some w =>
      rw [hw] at h
      simp only at h
      cases hr : m.loadWords (a + 4) n with
      | ok vs => rw [hr] at h; cases h
      | error e' =>
        rw [hr] at h
        cases h
        obtain ⟨k, hk, he, hn⟩ := ih hr
        exact ⟨k + 1, by omega, by omega, hn⟩

/-- A stored run of words reads back whole. -/
theorem loadWords_storeWords (a : Nat) (ws : List Word) (m : Memory) :
    (m.storeWords a ws).loadWords a ws.length = .ok ws :=
  loadWords_ok_iff.2 ⟨rfl, fun _ h => loadWord_storeWords h⟩

/-- A run of words reads as before when none of its bytes changed. -/
theorem loadWords_congr {m m' : Memory} {a n : Nat} (h : ∀ x, a ≤ x → x < a + 4 * n → m'.load x = m.load x) :
    m'.loadWords a n = m.loadWords a n := by
  induction n generalizing a with
  | zero => rfl
  | succ n ih =>
    rw [Memory.loadWords, Memory.loadWords, loadWord_congr fun x h1 h2 => h x h1 (by omega),
      ih fun x h1 h2 => h x (by omega) (by omega)]

theorem loadWords_storeWords_outside {a b n : Nat} {ws : List Word} {m : Memory}
    (h : b + 4 * n ≤ a ∨ a + 4 * ws.length ≤ b) : (m.storeWords a ws).loadWords b n = m.loadWords b n :=
  loadWords_congr fun x h1 h2 => load_storeWords_outside (by omega)

end Sys2Proof.Machine
end

