-- ==== Sys2Proof/Laws/State.lean ====
section
/-! SUPPORT. One lemma per field per update of the state, each true by rfl, so that no proof unfolds a record update;
and the slot registers read after an update of one slot. -/

namespace Sys2Proof.Machine

@[simp] theorem withEngine_ie (s : State) (e : Engine) : (s.withEngine e).ie = s.ie := rfl
@[simp] theorem withEngine_status (s : State) (e : Engine) : (s.withEngine e).status = s.status := rfl
@[simp] theorem withEngine_cmd (s : State) (e : Engine) : (s.withEngine e).cmd = s.cmd := rfl
@[simp] theorem withEngine_bitpos (s : State) (e : Engine) : (s.withEngine e).bitpos = s.bitpos := rfl
@[simp] theorem withEngine_slots (s : State) (e : Engine) : (s.withEngine e).slots = s.slots := rfl
@[simp] theorem withEngine_mem (s : State) (e : Engine) : (s.withEngine e).mem = s.mem := rfl
@[simp] theorem withEngine_rdata (s : State) (e : Engine) : (s.withEngine e).rdata = s.rdata := rfl
@[simp] theorem withEngine_schedule (s : State) (e : Engine) : (s.withEngine e).schedule = s.schedule := rfl
@[simp] theorem withEngine_draws (s : State) (e : Engine) : (s.withEngine e).draws = s.draws := rfl
@[simp] theorem withEngine_engine (s : State) (e : Engine) : (s.withEngine e).engine = e := rfl
@[simp] theorem withEngine_slot (s : State) (e : Engine) (k : Fin 4) : (s.withEngine e).slot k = s.slot k := rfl

@[simp] theorem updateSlot_ie (s : State) (n : Fin 4) (f : Slot → Slot) : (s.updateSlot n f).ie = s.ie := rfl
@[simp] theorem updateSlot_status (s : State) (n : Fin 4) (f : Slot → Slot) : (s.updateSlot n f).status = s.status := rfl
@[simp] theorem updateSlot_cmd (s : State) (n : Fin 4) (f : Slot → Slot) : (s.updateSlot n f).cmd = s.cmd := rfl
@[simp] theorem updateSlot_bitpos (s : State) (n : Fin 4) (f : Slot → Slot) : (s.updateSlot n f).bitpos = s.bitpos := rfl
@[simp] theorem updateSlot_slots (s : State) (n : Fin 4) (f : Slot → Slot) : (s.updateSlot n f).slots = s.slots.set n (f (s.slot n)) := rfl
@[simp] theorem updateSlot_mem (s : State) (n : Fin 4) (f : Slot → Slot) : (s.updateSlot n f).mem = s.mem := rfl
@[simp] theorem updateSlot_engine (s : State) (n : Fin 4) (f : Slot → Slot) : (s.updateSlot n f).engine = s.engine := rfl
@[simp] theorem updateSlot_rdata (s : State) (n : Fin 4) (f : Slot → Slot) : (s.updateSlot n f).rdata = s.rdata := rfl
@[simp] theorem updateSlot_schedule (s : State) (n : Fin 4) (f : Slot → Slot) : (s.updateSlot n f).schedule = s.schedule := rfl
@[simp] theorem updateSlot_draws (s : State) (n : Fin 4) (f : Slot → Slot) : (s.updateSlot n f).draws = s.draws := rfl

@[simp] theorem complete_ie (r : Option CmdError) (s : State) : (complete r s).ie = s.ie := rfl
@[simp] theorem complete_status (r : Option CmdError) (s : State) : (complete r s).status = s.status.complete r := rfl
@[simp] theorem complete_cmd (r : Option CmdError) (s : State) : (complete r s).cmd = s.cmd := rfl
@[simp] theorem complete_bitpos (r : Option CmdError) (s : State) : (complete r s).bitpos = s.bitpos := rfl
@[simp] theorem complete_slots (r : Option CmdError) (s : State) : (complete r s).slots = s.slots := rfl
@[simp] theorem complete_mem (r : Option CmdError) (s : State) : (complete r s).mem = s.mem := rfl
@[simp] theorem complete_engine (r : Option CmdError) (s : State) : (complete r s).engine = Engine.idle := rfl
@[simp] theorem complete_rdata (r : Option CmdError) (s : State) : (complete r s).rdata = s.rdata := rfl
@[simp] theorem complete_schedule (r : Option CmdError) (s : State) : (complete r s).schedule = s.schedule := rfl
@[simp] theorem complete_draws (r : Option CmdError) (s : State) : (complete r s).draws = s.draws := rfl

@[simp] theorem clearStatus_ie (v : Word) (s : State) : (clearStatus v s).ie = s.ie := rfl
@[simp] theorem clearStatus_status (v : Word) (s : State) : (clearStatus v s).status = s.status.clear v := rfl
@[simp] theorem clearStatus_cmd (v : Word) (s : State) : (clearStatus v s).cmd = s.cmd := rfl
@[simp] theorem clearStatus_bitpos (v : Word) (s : State) : (clearStatus v s).bitpos = s.bitpos := rfl
@[simp] theorem clearStatus_slots (v : Word) (s : State) : (clearStatus v s).slots = s.slots := rfl
@[simp] theorem clearStatus_mem (v : Word) (s : State) : (clearStatus v s).mem = s.mem := rfl
@[simp] theorem clearStatus_engine (v : Word) (s : State) : (clearStatus v s).engine = s.engine := rfl
@[simp] theorem clearStatus_rdata (v : Word) (s : State) : (clearStatus v s).rdata = s.rdata := rfl
@[simp] theorem clearStatus_schedule (v : Word) (s : State) : (clearStatus v s).schedule = s.schedule := rfl
@[simp] theorem clearStatus_draws (v : Word) (s : State) : (clearStatus v s).draws = s.draws := rfl

@[simp] theorem clearStream_ie (s : State) : (clearStream s).ie = s.ie := rfl
@[simp] theorem clearStream_status (s : State) : (clearStream s).status = s.status := rfl
@[simp] theorem clearStream_cmd (s : State) : (clearStream s).cmd = s.cmd := rfl
@[simp] theorem clearStream_bitpos (s : State) : (clearStream s).bitpos = 0 := rfl
@[simp] theorem clearStream_slots (s : State) : (clearStream s).slots = s.slots := rfl
@[simp] theorem clearStream_mem (s : State) : (clearStream s).mem = s.mem := rfl
@[simp] theorem clearStream_engine (s : State) : (clearStream s).engine = s.engine := rfl
@[simp] theorem clearStream_rdata (s : State) : (clearStream s).rdata = s.rdata := rfl
@[simp] theorem clearStream_schedule (s : State) : (clearStream s).schedule = s.schedule := rfl
@[simp] theorem clearStream_draws (s : State) : (clearStream s).draws = s.draws := rfl

@[simp] theorem appendBits_ie (l : List Bool) (s : State) : (appendBits l s).ie = s.ie := rfl
@[simp] theorem appendBits_status (l : List Bool) (s : State) : (appendBits l s).status = s.status := rfl
@[simp] theorem appendBits_cmd (l : List Bool) (s : State) : (appendBits l s).cmd = s.cmd := rfl
@[simp] theorem appendBits_bitpos (l : List Bool) (s : State) : (appendBits l s).bitpos = BitVec.ofNat 32 (s.bitpos.toNat + l.length) := rfl
@[simp] theorem appendBits_slots (l : List Bool) (s : State) : (appendBits l s).slots = s.slots := rfl
@[simp] theorem appendBits_engine (l : List Bool) (s : State) : (appendBits l s).engine = s.engine := rfl
@[simp] theorem appendBits_rdata (l : List Bool) (s : State) : (appendBits l s).rdata = s.rdata := rfl
@[simp] theorem appendBits_schedule (l : List Bool) (s : State) : (appendBits l s).schedule = s.schedule := rfl
@[simp] theorem appendBits_draws (l : List Bool) (s : State) : (appendBits l s).draws = s.draws := rfl

@[simp] theorem enterSlot_ie (n : Fin 4) (s : State) : (enterSlot n s).ie = s.ie := rfl
@[simp] theorem enterSlot_status (n : Fin 4) (s : State) : (enterSlot n s).status = s.status := rfl
@[simp] theorem enterSlot_cmd (n : Fin 4) (s : State) : (enterSlot n s).cmd = s.cmd := rfl
@[simp] theorem enterSlot_bitpos (n : Fin 4) (s : State) : (enterSlot n s).bitpos = s.bitpos := rfl
@[simp] theorem enterSlot_slots (n : Fin 4) (s : State) : (enterSlot n s).slots = s.slots := rfl
@[simp] theorem enterSlot_mem (n : Fin 4) (s : State) : (enterSlot n s).mem = s.mem := rfl
@[simp] theorem enterSlot_engine (n : Fin 4) (s : State) : (enterSlot n s).engine = { s.engine with slot := n } := rfl
@[simp] theorem enterSlot_rdata (n : Fin 4) (s : State) : (enterSlot n s).rdata = s.rdata := rfl
@[simp] theorem enterSlot_schedule (n : Fin 4) (s : State) : (enterSlot n s).schedule = s.schedule := rfl
@[simp] theorem enterSlot_draws (n : Fin 4) (s : State) : (enterSlot n s).draws = s.draws := rfl

@[simp] theorem forceQwb_ie (n : Fin 4) (s : State) : (forceQwb n s).ie = s.ie := rfl
@[simp] theorem forceQwb_status (n : Fin 4) (s : State) : (forceQwb n s).status = s.status := rfl
@[simp] theorem forceQwb_cmd (n : Fin 4) (s : State) : (forceQwb n s).cmd = s.cmd := rfl
@[simp] theorem forceQwb_bitpos (n : Fin 4) (s : State) : (forceQwb n s).bitpos = s.bitpos := rfl
@[simp] theorem forceQwb_slots (n : Fin 4) (s : State) : (forceQwb n s).slots = s.slots.set n { s.slot n with qwb := Config.qwbInit } := rfl
@[simp] theorem forceQwb_mem (n : Fin 4) (s : State) : (forceQwb n s).mem = s.mem := rfl
@[simp] theorem forceQwb_engine (n : Fin 4) (s : State) : (forceQwb n s).engine = s.engine := rfl
@[simp] theorem forceQwb_rdata (n : Fin 4) (s : State) : (forceQwb n s).rdata = s.rdata := rfl
@[simp] theorem forceQwb_schedule (n : Fin 4) (s : State) : (forceQwb n s).schedule = s.schedule := rfl
@[simp] theorem forceQwb_draws (n : Fin 4) (s : State) : (forceQwb n s).draws = s.draws := rfl

@[simp] theorem scaleSamples_ie (n : Fin 4) (ws : List Word) (s : State) : (scaleSamples n ws s).ie = s.ie :=
  withEngine_ie s _
@[simp] theorem scaleSamples_status (n : Fin 4) (ws : List Word) (s : State) : (scaleSamples n ws s).status = s.status :=
  withEngine_status s _
@[simp] theorem scaleSamples_cmd (n : Fin 4) (ws : List Word) (s : State) : (scaleSamples n ws s).cmd = s.cmd :=
  withEngine_cmd s _
@[simp] theorem scaleSamples_bitpos (n : Fin 4) (ws : List Word) (s : State) : (scaleSamples n ws s).bitpos = s.bitpos :=
  withEngine_bitpos s _
@[simp] theorem scaleSamples_slots (n : Fin 4) (ws : List Word) (s : State) : (scaleSamples n ws s).slots = s.slots :=
  withEngine_slots s _
@[simp] theorem scaleSamples_mem (n : Fin 4) (ws : List Word) (s : State) : (scaleSamples n ws s).mem = s.mem :=
  withEngine_mem s _
@[simp] theorem scaleSamples_rdata (n : Fin 4) (ws : List Word) (s : State) : (scaleSamples n ws s).rdata = s.rdata :=
  withEngine_rdata s _
@[simp] theorem scaleSamples_schedule (n : Fin 4) (ws : List Word) (s : State) : (scaleSamples n ws s).schedule = s.schedule :=
  withEngine_schedule s _
@[simp] theorem scaleSamples_draws (n : Fin 4) (ws : List Word) (s : State) : (scaleSamples n ws s).draws = s.draws :=
  withEngine_draws s _

@[simp] theorem transformPasses_ie (s : State) : (transformPasses s).ie = s.ie := rfl
@[simp] theorem transformPasses_status (s : State) : (transformPasses s).status = s.status := rfl
@[simp] theorem transformPasses_cmd (s : State) : (transformPasses s).cmd = s.cmd := rfl
@[simp] theorem transformPasses_bitpos (s : State) : (transformPasses s).bitpos = s.bitpos := rfl
@[simp] theorem transformPasses_slots (s : State) : (transformPasses s).slots = s.slots := rfl
@[simp] theorem transformPasses_engine (s : State) : (transformPasses s).engine = s.engine := rfl
@[simp] theorem transformPasses_rdata (s : State) : (transformPasses s).rdata = s.rdata := rfl
@[simp] theorem transformPasses_schedule (s : State) : (transformPasses s).schedule = s.schedule := rfl
@[simp] theorem transformPasses_draws (s : State) : (transformPasses s).draws = s.draws + 1 := rfl

@[simp] theorem hostRead_ie (l : Loc) (s : State) : (hostRead l s).ie = s.ie := rfl
@[simp] theorem hostRead_status (l : Loc) (s : State) : (hostRead l s).status = s.status := rfl
@[simp] theorem hostRead_cmd (l : Loc) (s : State) : (hostRead l s).cmd = s.cmd := rfl
@[simp] theorem hostRead_bitpos (l : Loc) (s : State) : (hostRead l s).bitpos = s.bitpos := rfl
@[simp] theorem hostRead_slots (l : Loc) (s : State) : (hostRead l s).slots = s.slots := rfl
@[simp] theorem hostRead_mem (l : Loc) (s : State) : (hostRead l s).mem = s.mem := rfl
@[simp] theorem hostRead_engine (l : Loc) (s : State) : (hostRead l s).engine = s.engine := rfl
@[simp] theorem hostRead_rdata (l : Loc) (s : State) : (hostRead l s).rdata = readValue s l := rfl
@[simp] theorem hostRead_schedule (l : Loc) (s : State) : (hostRead l s).schedule = s.schedule := rfl
@[simp] theorem hostRead_draws (l : Loc) (s : State) : (hostRead l s).draws = s.draws + 1 := rfl

@[simp] theorem hostPoll_ie (n : Nat) (s : State) : (hostPoll n s).ie = s.ie := rfl
@[simp] theorem hostPoll_status (n : Nat) (s : State) : (hostPoll n s).status = s.status := rfl
@[simp] theorem hostPoll_cmd (n : Nat) (s : State) : (hostPoll n s).cmd = s.cmd := rfl
@[simp] theorem hostPoll_bitpos (n : Nat) (s : State) : (hostPoll n s).bitpos = s.bitpos := rfl
@[simp] theorem hostPoll_slots (n : Nat) (s : State) : (hostPoll n s).slots = s.slots := rfl
@[simp] theorem hostPoll_mem (n : Nat) (s : State) : (hostPoll n s).mem = s.mem := rfl
@[simp] theorem hostPoll_engine (n : Nat) (s : State) : (hostPoll n s).engine = s.engine := rfl
@[simp] theorem hostPoll_rdata (n : Nat) (s : State) : (hostPoll n s).rdata = readValue s .status := rfl
@[simp] theorem hostPoll_draws (n : Nat) (s : State) : (hostPoll n s).draws = s.draws + 1 := rfl
@[simp] theorem hostPoll_slot (n : Nat) (s : State) (k : Fin 4) : (hostPoll n s).slot k = s.slot k := rfl

@[simp] theorem softReset_ie (s : State) : (softReset s).ie = false := rfl
@[simp] theorem softReset_status (s : State) : (softReset s).status = Status.reset := rfl
@[simp] theorem softReset_cmd (s : State) : (softReset s).cmd = 0 := rfl
@[simp] theorem softReset_bitpos (s : State) : (softReset s).bitpos = 0 := rfl
@[simp] theorem softReset_slots (s : State) : (softReset s).slots = Vector.replicate 4 Slot.reset := rfl
@[simp] theorem softReset_mem (s : State) : (softReset s).mem = softResetMemory s := rfl
@[simp] theorem softReset_engine (s : State) : (softReset s).engine = Engine.idle := rfl
@[simp] theorem softReset_rdata (s : State) : (softReset s).rdata = s.rdata := rfl
@[simp] theorem softReset_schedule (s : State) : (softReset s).schedule = s.schedule := rfl
@[simp] theorem softReset_draws (s : State) : (softReset s).draws = s.draws + 1 := rfl

@[simp] theorem powerOnReset_ie (s : State) : (powerOnReset s).ie = false := rfl
@[simp] theorem powerOnReset_status (s : State) : (powerOnReset s).status = Status.reset := rfl
@[simp] theorem powerOnReset_cmd (s : State) : (powerOnReset s).cmd = 0 := rfl
@[simp] theorem powerOnReset_bitpos (s : State) : (powerOnReset s).bitpos = 0 := rfl
@[simp] theorem powerOnReset_slots (s : State) : (powerOnReset s).slots = Vector.replicate 4 Slot.reset := rfl
@[simp] theorem powerOnReset_mem (s : State) : (powerOnReset s).mem = [] := rfl
@[simp] theorem powerOnReset_engine (s : State) : (powerOnReset s).engine = Engine.idle := rfl
@[simp] theorem powerOnReset_rdata (s : State) : (powerOnReset s).rdata = 0 := rfl
@[simp] theorem powerOnReset_schedule (s : State) : (powerOnReset s).schedule = s.schedule := rfl
@[simp] theorem powerOnReset_draws (s : State) : (powerOnReset s).draws = s.draws := rfl

@[simp] theorem withFetchWord_ie (s : State) (nbits w : Nat) : (s.withFetchWord nbits w).ie = s.ie := rfl
@[simp] theorem withFetchWord_status (s : State) (nbits w : Nat) : (s.withFetchWord nbits w).status = { s.status with busy := true } := rfl
@[simp] theorem withFetchWord_cmd (s : State) (nbits w : Nat) : (s.withFetchWord nbits w).cmd = tableWord nbits w := rfl
@[simp] theorem withFetchWord_bitpos (s : State) (nbits w : Nat) : (s.withFetchWord nbits w).bitpos = s.bitpos := rfl
@[simp] theorem withFetchWord_slots (s : State) (nbits w : Nat) : (s.withFetchWord nbits w).slots = s.slots := rfl
@[simp] theorem withFetchWord_mem (s : State) (nbits w : Nat) : (s.withFetchWord nbits w).mem = s.mem := rfl
@[simp] theorem withFetchWord_engine (s : State) (nbits w : Nat) : (s.withFetchWord nbits w).engine = { Engine.idle with command := tableWord nbits w } := rfl
@[simp] theorem withFetchWord_rdata (s : State) (nbits w : Nat) : (s.withFetchWord nbits w).rdata = s.rdata := rfl
@[simp] theorem withFetchWord_draws (s : State) (nbits w : Nat) : (s.withFetchWord nbits w).draws = s.draws := rfl

@[simp] theorem complete_slot (r : Option CmdError) (s : State) (k : Fin 4) : (complete r s).slot k = s.slot k := rfl
@[simp] theorem clearStatus_slot (v : Word) (s : State) (k : Fin 4) : (clearStatus v s).slot k = s.slot k := rfl
@[simp] theorem clearStream_slot (s : State) (k : Fin 4) : (clearStream s).slot k = s.slot k := rfl
@[simp] theorem appendBits_slot (l : List Bool) (s : State) (k : Fin 4) : (appendBits l s).slot k = s.slot k := rfl
@[simp] theorem enterSlot_slot (n : Fin 4) (s : State) (k : Fin 4) : (enterSlot n s).slot k = s.slot k := rfl
@[simp] theorem scaleSamples_slot (n : Fin 4) (ws : List Word) (s : State) (k : Fin 4) : (scaleSamples n ws s).slot k = s.slot k :=
  withEngine_slot s _ k
@[simp] theorem transformPasses_slot (s : State) (k : Fin 4) : (transformPasses s).slot k = s.slot k := rfl
@[simp] theorem hostRead_slot (l : Loc) (s : State) (k : Fin 4) : (hostRead l s).slot k = s.slot k := rfl
@[simp] theorem withFetchWord_slot (s : State) (nbits w : Nat) (k : Fin 4) : (s.withFetchWord nbits w).slot k = s.slot k := rfl

@[simp] theorem updateSlot_slot_self (s : State) (n : Fin 4) (f : Slot → Slot) :
    (s.updateSlot n f).slot n = f (s.slot n) := by
  simp [State.slot, State.updateSlot]

theorem updateSlot_slot_ne (s : State) {n k : Fin 4} (f : Slot → Slot) (h : k ≠ n) :
    (s.updateSlot n f).slot k = s.slot k := by
  have : n.val ≠ k.val := fun e => h (Fin.ext e.symm)
  simp [State.slot, State.updateSlot, this]

theorem updateSlot_slot (s : State) (n k : Fin 4) (f : Slot → Slot) :
    (s.updateSlot n f).slot k = if k = n then f (s.slot k) else s.slot k := by
  by_cases h : k = n
  · subst h; simp
  · rw [updateSlot_slot_ne _ _ h, if_neg h]

theorem forceQwb_slot (s : State) (n k : Fin 4) :
    (forceQwb n s).slot k = if k = n then { s.slot k with qwb := Config.qwbInit } else s.slot k :=
  updateSlot_slot s n k _

@[simp] theorem reset_slot (k : Fin 4) : State.reset.slot k = Slot.reset := by
  simp [State.slot, State.reset]

@[simp] theorem softReset_slot (s : State) (k : Fin 4) : (softReset s).slot k = Slot.reset := reset_slot k

@[simp] theorem powerOnReset_slot (s : State) (k : Fin 4) : (powerOnReset s).slot k = Slot.reset := reset_slot k

/-- Two states with equal slot sets have equal slots, and the other way round. -/
theorem slots_eq_iff {s t : State} : t.slots = s.slots ↔ ∀ n, t.slot n = s.slot n := by
  constructor
  · intro h n; simp [State.slot, h]
  · intro h
    apply Vector.ext
    intro i hi
    exact h ⟨i, hi⟩

@[simp] theorem complete_none_busy (t : Status) : (t.complete none).busy = false := rfl
@[simp] theorem complete_none_done (t : Status) : (t.complete none).done = true := rfl
@[simp] theorem complete_none_err (t : Status) : (t.complete none).err = t.err := rfl
@[simp] theorem complete_none_ecode (t : Status) : (t.complete none).ecode = t.ecode := rfl
@[simp] theorem complete_some_err (t : Status) (e : CmdError) : (t.complete (some e)).err = true := rfl
@[simp] theorem complete_some_ecode (t : Status) (e : CmdError) : (t.complete (some e)).ecode = e.code := rfl
@[simp] theorem complete_some_busy (t : Status) (e : CmdError) : (t.complete (some e)).busy = false := rfl
@[simp] theorem complete_some_done (t : Status) (e : CmdError) : (t.complete (some e)).done = true := rfl
@[simp] theorem complete_wdrop (t : Status) (r : Option CmdError) : (t.complete r).wdrop = t.wdrop := by cases r <;> rfl
@[simp] theorem complete_cdrop (t : Status) (r : Option CmdError) : (t.complete r).cdrop = t.cdrop := by cases r <;> rfl

end Sys2Proof.Machine
end

