-- ==== Sys2Proof/Laws/Stream.lean ====
section
/-! SUPPORT. What the bit-stream writer does: the lengths of packed fields, and the one law of appending: the stream
after it is the stream before it followed by the new bits, and every other byte of memory is unchanged. -/

namespace Sys2Proof.Machine

@[simp] theorem bitsDown_length (v : Word) (lo n : Nat) : (bitsDown v lo n).length = n := by
  induction n with
  | zero => rfl
  | succ n ih => simp [bitsDown, ih]

theorem flatMap_bitsDown_length (v : Word) (l : List Nat) :
    (l.flatMap fun i => bitsDown v (8 * i) 8).length = 8 * l.length := by
  induction l with
  | nil => rfl
  | cons a l ih => rw [List.flatMap_cons, List.length_append, ih, bitsDown_length, List.length_cons]; omega

@[simp] theorem packBits_length (o : PackOrder) (v : Word) (n : Nat) : (packBits o v n).length = n := by
  cases o with
  | msb => simp [packBits]
  | leb =>
    rw [packBits, List.length_append, flatMap_bitsDown_length, List.length_range, bitsDown_length]
    omega

@[simp] theorem pack_length (v : Word) (n : Nat) : (pack v n).length = n := packBits_length _ _ _

/-- Bit `i` of `PackBits(v, n)` is `v[n-1-i]` (R91). -/
theorem bitsDown_getElem? (v : Word) (lo n i : Nat) (h : i < n) :
    (bitsDown v lo n)[i]? = some (v.getLsbD (lo + (n - 1 - i))) := by
  induction n generalizing i with
  | zero => omega
  | succ n ih =>
    cases i with
    | zero => simp [bitsDown]
    | succ i =>
      rw [bitsDown, List.getElem?_cons_succ, ih i (by omega)]
      congr 3
      omega

theorem pack_eq (v : Word) (n : Nat) : pack v n = bitsDown v 0 n := rfl

theorem pack_getElem? (v : Word) (n i : Nat) (h : i < n) : (pack v n)[i]? = some (v.getLsbD (n - 1 - i)) := by
  rw [pack_eq, bitsDown_getElem? _ _ _ _ h, Nat.zero_add]

theorem byteOfBits_getLsbD (a b c d e f g h : Bool) (j : Fin 8) :
    (byteOfBits a b c d e f g h).getLsbD (7 - j.val) = [a, b, c, d, e, f, g, h].getD j.val false := by
  revert a b c d e f g h j
  decide +kernel

@[simp] theorem packBytes_length (l : List Bool) : (packBytes l).length = (l.length + 7) / 8 := by
  induction l using packBytes.induct with
  | case9 a b c d e f g h rest ih => simp only [packBytes, List.length_cons, ih]; omega
  | _ => simp [packBytes]

/-- Bit `t` of the packed bytes is bit `t` of the list, and the fill is zero (R89, R93). -/
theorem packBytes_bit (l : List Bool) (t : Nat) :
    ((packBytes l)[t / 8]?.getD 0).getLsbD (7 - t % 8) = l.getD t false := by
  have short : ∀ (k : List Bool) (a b c d e f g h : Bool), k.length ≤ 8 →
      (∀ j, j < 8 → k.getD j false = [a, b, c, d, e, f, g, h].getD j false) →
      (([byteOfBits a b c d e f g h] : List Byte)[t / 8]?.getD 0).getLsbD (7 - t % 8) = k.getD t false := by
    intro k a b c d e f g h hk hj
    by_cases ht : t < 8
    · have h0 : t / 8 = 0 := by omega
      have h1 : t % 8 = t := by omega
      rw [h0, h1]
      have := byteOfBits_getLsbD a b c d e f g h ⟨t, ht⟩
      rw [hj t ht]
      simpa using this
    · obtain ⟨q, hq⟩ : ∃ q, t / 8 = q + 1 := ⟨t / 8 - 1, by omega⟩
      rw [hq, List.getD_eq_default _ _ (by omega)]
      simp
  induction l using packBytes.induct generalizing t with
  | case1 => simp [packBytes]
  | case9 a b c d e f g h rest ih =>
    by_cases ht : t < 8
    · have h0 : t / 8 = 0 := by omega
      have h1 : t % 8 = t := by omega
      have := byteOfBits_getLsbD a b c d e f g h ⟨t, ht⟩
      rw [h0, h1, packBytes]
      simp only [List.getElem?_cons_zero, Option.getD_some]
      rw [this]
      interval_cases t <;> rfl
    · obtain ⟨q, rfl⟩ : ∃ q, t = q + 8 := ⟨t - 8, by omega⟩
      have h0 : (q + 8) / 8 = q / 8 + 1 := by omega
      have h1 : (q + 8) % 8 = q % 8 := by omega
      rw [h0, h1, packBytes, List.getElem?_cons_succ, ih q]
      · rfl
      · intro k a b c d e f g h hk hj
        by_cases ht' : q < 8
        · have h0 : q / 8 = 0 := by omega
          have h1 : q % 8 = q := by omega
          rw [h0, h1]
          have := byteOfBits_getLsbD a b c d e f g h ⟨q, ht'⟩
          rw [hj q ht']
          simpa using this
        · obtain ⟨r, hr⟩ : ∃ r, q / 8 = r + 1 := ⟨q / 8 - 1, by omega⟩
          rw [hr, List.getD_eq_default _ _ (by omega)]
          simp
  | _ =>
    rw [packBytes]
    refine short _ _ _ _ _ _ _ _ _ (by simp) fun j hj => ?_
    interval_cases j <;> rfl

/-- The bytes an append of `n` bits at bit position `pos` stores: first offset and one past the last. -/
def appendFrom (pos : Nat) : Nat := streamBase + pos / 8
def appendTo (pos n : Nat) : Nat := streamBase + pos / 8 + (pos % 8 + n + 7) / 8

theorem appendBits_load_outside {bits : List Bool} {s : State} {x : Nat}
    (h : x < appendFrom s.bitpos.toNat ∨ appendTo s.bitpos.toNat bits.length ≤ x) :
    (appendBits bits s).mem.load x = s.mem.load x := by
  apply load_store_outside
  simp only [packBytes_length, List.length_append, List.length_map, List.length_range]
  exact h

/-- A stream bit after an append: an old bit, a new bit, or the zero fill of the last byte (R89, R91, R93). -/
theorem appendBits_streamBit (bits : List Bool) (s : State) (t : Nat)
    (ht : streamBase + t / 8 < appendTo s.bitpos.toNat bits.length) :
    streamBit (appendBits bits s).mem t =
      if t < s.bitpos.toNat then streamBit s.mem t else bits.getD (t - s.bitpos.toNat) false := by
  by_cases h8 : t / 8 < s.bitpos.toNat / 8
  · rw [if_pos (by omega)]
    unfold streamBit
    rw [appendBits_load_outside (.inl (by unfold appendFrom; omega))]
  · have hm : (appendBits bits s).mem.load (streamBase + t / 8) =
        (packBytes ((List.range (s.bitpos.toNat % 8)).map
          (fun i => streamBit s.mem (8 * (s.bitpos.toNat / 8) + i)) ++ bits))[t / 8 - s.bitpos.toNat / 8]? := by
      unfold appendBits
      simp only
      rw [load_store, if_pos]
      · congr 1
        omega
      · simp only [packBytes_length, List.length_append, List.length_map, List.length_range]
        unfold appendTo at ht
        omega
    have hp := packBytes_bit ((List.range (s.bitpos.toNat % 8)).map
          (fun i => streamBit s.mem (8 * (s.bitpos.toNat / 8) + i)) ++ bits) (t - 8 * (s.bitpos.toNat / 8))
    have e1 : (t - 8 * (s.bitpos.toNat / 8)) / 8 = t / 8 - s.bitpos.toNat / 8 := by omega
    have e2 : (t - 8 * (s.bitpos.toNat / 8)) % 8 = t % 8 := by omega
    rw [e1, e2] at hp
    conv_lhs => unfold streamBit
    rw [hm, hp]
    by_cases hlt : t < s.bitpos.toNat
    · rw [if_pos hlt, List.getD_eq_getElem?_getD, List.getElem?_append_left (by simp; omega), List.getElem?_map,
        List.getElem?_range (by omega)]
      simp only [Option.map_some, Option.getD_some]
      congr 1
      omega
    · rw [if_neg hlt, List.getD_eq_getElem?_getD, List.getElem?_append_right (by simp; omega),
        List.getD_eq_getElem?_getD]
      congr 2
      simp only [List.length_map, List.length_range]
      omega

theorem appendBits_bitpos_toNat {bits : List Bool} {s : State} (h : s.bitpos.toNat + bits.length < 2 ^ 32) :
    (appendBits bits s).bitpos.toNat = s.bitpos.toNat + bits.length := by
  unfold appendBits
  simp only [BitVec.toNat_ofNat]
  exact Nat.mod_eq_of_lt h

/-- THE law of the writer: appending puts the new bits after the stream (R89, R91). -/
theorem streamOf_appendBits {bits : List Bool} {s : State} (h : s.bitpos.toNat + bits.length < 2 ^ 32) :
    streamOf (appendBits bits s) = streamOf s ++ bits := by
  unfold streamOf
  rw [appendBits_bitpos_toNat h, List.range_add, List.map_append, List.map_map]
  have hin : ∀ t, t < s.bitpos.toNat + bits.length → streamBase + t / 8 < appendTo s.bitpos.toNat bits.length := by
    intro t ht; unfold appendTo; omega
  congr 1
  · apply List.map_congr_left
    intro t ht
    rw [List.mem_range] at ht
    rw [appendBits_streamBit _ _ _ (hin t (by omega)), if_pos ht]
  · apply List.ext_getElem
    · simp
    · intro i h1 h2
      simp only [List.getElem_map, List.getElem_range, Function.comp_apply]
      rw [appendBits_streamBit _ _ _ (hin _ (by omega)), if_neg (by omega), Nat.add_sub_cancel_left,
        List.getD_eq_getElem _ _ h2]

/-- Memory keeps its canonical form under an append. -/
theorem appendBits_wf {s : State} (h : s.mem.wf) (bits : List Bool) : (appendBits bits s).mem.wf := store_wf h _ _

@[simp] theorem streamOf_clearStream (s : State) : streamOf (clearStream s) = [] := rfl

theorem overflows_eq_true {s : State} {l : Nat} : overflows s l = true ↔ 32768 < s.bitpos.toNat + l := by
  unfold overflows
  exact decide_eq_true_iff

theorem overflows_eq_false {s : State} {l : Nat} : overflows s l = false ↔ s.bitpos.toNat + l ≤ 32768 := by
  rw [← Bool.not_eq_true, overflows_eq_true]
  omega

end Sys2Proof.Machine
end

