-- ==== Sys2Proof/Laws/Ops.lean ====
section
/-! SUPPORT. What each shared operation and each stage of a command can do, said once: later proofs cite these and do not
unfold the operations. -/

namespace Sys2Proof.Machine

/-- `finish` answers a next state exactly when the command ended, and then it is the completion step's. -/
theorem finish_eq_next {r : CmdResult} {t : State} :
    finish r = .next t ↔ (∃ s, r = .done s ∧ t = complete none s) ∨ (∃ e s, r = .error e s ∧ t = complete (some e) s) := by
  cases r with
  | done s =>
    simp only [finish, Host.Outcome.next.injEq, CmdResult.done.injEq, exists_eq_left', reduceCtorEq, false_and,
      exists_false, or_false]
    exact eq_comm
  | error e s =>
    constructor
    · intro h; cases h; exact .inr ⟨e, s, rfl, rfl⟩
    · rintro (⟨_, h, -⟩ | ⟨_, _, h, rfl⟩)
      · cases h
      · cases h; rfl
  | fault f =>
    constructor
    · intro h; cases h
    · rintro (⟨_, h, -⟩ | ⟨_, _, h, -⟩) <;> cases h

@[simp] theorem finish_done (s : State) : finish (.done s) = .next (complete none s) := rfl
@[simp] theorem finish_error (e : CmdError) (s : State) : finish (.error e s) = .next (complete (some e) s) := rfl
@[simp] theorem finish_fault (f : Fault) : finish (.fault f) = .fault f := rfl

@[simp] theorem andThen_done (s : State) (f : State → CmdResult) : (CmdResult.done s).andThen f = f s := rfl
@[simp] theorem andThen_error (e : CmdError) (s : State) (f : State → CmdResult) :
    (CmdResult.error e s).andThen f = .error e s := rfl
@[simp] theorem andThen_fault (x : Fault) (f : State → CmdResult) : (CmdResult.fault x).andThen f = .fault x := rfl

/-- A successful command ends as R263 says. -/
theorem endsOk_complete (s t : State) (h : t.status = s.status) (hc : ControlKept s t) :
    EndsOk s (complete none t) := by
  refine ⟨?_, rfl, hc⟩
  rw [complete_status, h]; rfl

/-- A failing command ends as R263 says. -/
theorem endsIn_complete (e : CmdError) (s t : State) (h : t.status = s.status) (hc : ControlKept s t) :
    EndsIn e.code s (complete (some e) t) := by
  refine ⟨?_, rfl, hc⟩
  rw [complete_status, h]; rfl

theorem controlKept_refl (s : State) : ControlKept s s := ⟨rfl, rfl, rfl, rfl⟩

theorem ControlKept.trans {s t u : State} (h : ControlKept s t) (h' : ControlKept t u) : ControlKept s u :=
  ⟨h'.1.trans h.1, h'.2.1.trans h.2.1, h'.2.2.1.trans h.2.2.1, h'.2.2.2.trans h.2.2.2⟩

/-- Reading samples either hands over the 256 words or ends in the fault at an unwritten one. -/
theorem withSamples_cases (n : Fin 4) (s : State) (f : List Word → CmdResult) :
    (∃ ws, Samples s n ws ∧ withSamples n s f = f ws) ∨
      (∃ a, s.mem.loadWords (sampleBase n) 256 = .error a ∧ withSamples n s f = .fault (.unwrittenState a)) := by
  unfold withSamples Samples
  cases s.mem.loadWords (sampleBase n) 256 with
  | ok ws => exact .inl ⟨ws, rfl, rfl⟩
  | error a => exact .inr ⟨a, rfl, rfl⟩

theorem withSamples_of {n : Fin 4} {s : State} {ws : List Word} (h : Samples s n ws) (f : List Word → CmdResult) :
    withSamples n s f = f ws := by
  unfold withSamples; rw [h]

/-- Reading coefficients either hands over the 256 words or ends in the fault at an unwritten one. -/
theorem withCoefs_cases (s : State) (f : List Word → CmdResult) :
    (∃ cs, Coefs s cs ∧ withCoefs s f = f cs) ∨
      (∃ a, s.mem.loadWords coefBase 256 = .error a ∧ withCoefs s f = .fault (.unwrittenState a)) := by
  unfold withCoefs Coefs
  cases s.mem.loadWords coefBase 256 with
  | ok ws => exact .inl ⟨ws, rfl, rfl⟩
  | error a => exact .inr ⟨a, rfl, rfl⟩

theorem withCoefs_of {s : State} {cs : List Word} (h : Coefs s cs) (f : List Word → CmdResult) :
    withCoefs s f = f cs := by
  unfold withCoefs; rw [h]

theorem samples_length {s : State} {n : Fin 4} {ws : List Word} (h : Samples s n ws) : ws.length = 256 :=
  (loadWords_ok_iff.1 h).1

theorem coefs_length {s : State} {cs : List Word} (h : Coefs s cs) : cs.length = 256 := (loadWords_ok_iff.1 h).1

/-- The state after PRESCAN's effects. -/
def afterPrescan (n : Fin 4) (ws : List Word) (s : State) : State :=
  { s.updateSlot n (fun r =>
      { r with dcoff := prescanMin ws, range := prescanRange (Config.freeWord s.draws) ws }) with
    draws := s.draws + 1 }

/-- PRESCAN succeeds on written samples and faults on an unwritten one; it raises no error (R170). -/
theorem prescanStage_cases (n : Fin 4) (s : State) :
    (∃ ws, Samples s n ws ∧ prescanStage n s = .done (afterPrescan n ws s)) ∨
      (∃ a, prescanStage n s = .fault (.unwrittenState a)) := by
  rcases withSamples_cases n s _ with ⟨ws, h, e⟩ | ⟨a, -, e⟩
  · exact .inl ⟨ws, h, e⟩
  · exact .inr ⟨a, e⟩

/-- The state after TRANSFORM's effects. -/
def afterTransform (n : Fin 4) (ws : List Word) (s : State) : State := transformPasses (scaleSamples n ws s)

@[simp] theorem afterTransform_ie (n : Fin 4) (ws : List Word) (s : State) : (afterTransform n ws s).ie = s.ie := by
  rw [afterTransform, transformPasses_ie, scaleSamples_ie]
@[simp] theorem afterTransform_status (n : Fin 4) (ws : List Word) (s : State) : (afterTransform n ws s).status = s.status := by
  rw [afterTransform, transformPasses_status, scaleSamples_status]
@[simp] theorem afterTransform_cmd (n : Fin 4) (ws : List Word) (s : State) : (afterTransform n ws s).cmd = s.cmd := by
  rw [afterTransform, transformPasses_cmd, scaleSamples_cmd]
@[simp] theorem afterTransform_bitpos (n : Fin 4) (ws : List Word) (s : State) : (afterTransform n ws s).bitpos = s.bitpos := by
  rw [afterTransform, transformPasses_bitpos, scaleSamples_bitpos]
@[simp] theorem afterTransform_slots (n : Fin 4) (ws : List Word) (s : State) : (afterTransform n ws s).slots = s.slots := by
  rw [afterTransform, transformPasses_slots, scaleSamples_slots]
@[simp] theorem afterTransform_rdata (n : Fin 4) (ws : List Word) (s : State) : (afterTransform n ws s).rdata = s.rdata := by
  rw [afterTransform, transformPasses_rdata, scaleSamples_rdata]
@[simp] theorem afterTransform_schedule (n : Fin 4) (ws : List Word) (s : State) : (afterTransform n ws s).schedule = s.schedule := by
  rw [afterTransform, transformPasses_schedule, scaleSamples_schedule]
@[simp] theorem afterTransform_draws (n : Fin 4) (ws : List Word) (s : State) :
    (afterTransform n ws s).draws = s.draws + 1 := by
  rw [afterTransform, transformPasses_draws, scaleSamples_draws]
@[simp] theorem afterTransform_slot (n : Fin 4) (ws : List Word) (s : State) (k : Fin 4) :
    (afterTransform n ws s).slot k = s.slot k := by
  rw [afterTransform, transformPasses_slot, scaleSamples_slot]

theorem afterTransform_control (n : Fin 4) (ws : List Word) (s : State) : ControlKept s (afterTransform n ws s) := by
  refine ⟨?_, ?_, ?_, ?_⟩ <;> simp only [afterTransform_ie, afterTransform_cmd, afterTransform_rdata, afterTransform_schedule]

/-- TRANSFORM raises BAD_RANGE and changes nothing, or succeeds, or faults (R180, R181). -/
theorem transformStage_cases (n : Fin 4) (s : State) :
    ((s.slot n).range = 0 ∧ transformStage n s = .error .badRange s) ∨
      ((s.slot n).range ≠ 0 ∧ ∃ ws, Samples s n ws ∧ transformStage n s = .done (afterTransform n ws s)) ∨
        ((s.slot n).range ≠ 0 ∧ ∃ a, transformStage n s = .fault (.unwrittenState a)) := by
  by_cases h : (s.slot n).range = 0
  · exact .inl ⟨h, by rw [transformStage, if_pos h]⟩
  · rw [transformStage, if_neg h]
    rcases withSamples_cases n s (fun ws => .done (transformPasses (scaleSamples n ws s))) with ⟨ws, hw, e⟩ | ⟨a, -, e⟩
    · exact .inr (.inl ⟨h, ws, hw, e⟩)
    · exact .inr (.inr ⟨h, a, e⟩)

/-- The state in which HDRENC has written the slot registers, before the header's bits. -/
def afterHeaderSlot (n : Fin 4) (ext : Bool) (cs : List Word) (s : State) : State :=
  s.updateSlot n (headerSlot (chooseWidth Config.scanTop (s.slot n).qwb cs) ext)

/-- The state after HDRENC's effects. -/
def afterHeader (n : Fin 4) (ext : Bool) (cs : List Word) (s : State) : State :=
  appendBits (headerBits ((afterHeaderSlot n ext cs s).slot n) ext) (afterHeaderSlot n ext cs s)

/-- HDRENC raises OVERFLOW and changes nothing, or succeeds, or faults (R200, R201). -/
theorem hdrencStage_cases (n : Fin 4) (ext : Bool) (s : State) :
    (32768 < s.bitpos.toNat + headerLength ext ∧ hdrencStage n ext s = .error .overflow s) ∨
      (s.bitpos.toNat + headerLength ext ≤ 32768 ∧
        ∃ cs, Coefs s cs ∧ hdrencStage n ext s = .done (afterHeader n ext cs s)) ∨
        (s.bitpos.toNat + headerLength ext ≤ 32768 ∧ ∃ a, hdrencStage n ext s = .fault (.unwrittenState a)) := by
  cases h : overflows s (headerLength ext) with
  | true => exact .inl ⟨overflows_eq_true.1 h, by rw [hdrencStage, h]; rfl⟩
  | false =>
    have hb := overflows_eq_false.1 h
    rcases withCoefs_cases s (fun cs => .done (afterHeader n ext cs s)) with ⟨cs, hc, e⟩ | ⟨a, -, e⟩
    · exact .inr (.inl ⟨hb, cs, hc, by rw [hdrencStage, h]; exact e⟩)
    · exact .inr (.inr ⟨hb, a, by rw [hdrencStage, h]; exact e⟩)

/-- COEFENC raises OVERFLOW and changes nothing, or succeeds, or faults (R220, R226). -/
theorem coefencStage_cases (n : Fin 4) (s : State) :
    (∃ cs, Coefs s cs ∧ 32768 < s.bitpos.toNat + coefLength (coefWidth (s.slot n).qwb) cs ∧
        coefencStage n s = .error .overflow s) ∨
      (∃ cs, Coefs s cs ∧ s.bitpos.toNat + coefLength (coefWidth (s.slot n).qwb) cs ≤ 32768 ∧
        coefencStage n s = .done (appendBits (tokens (coefWidth (s.slot n).qwb) cs) s)) ∨
        (∃ a, coefencStage n s = .fault (.unwrittenState a)) := by
  rcases withCoefs_cases s (fun cs =>
      if overflows s (coefLength (coefWidth (s.slot n).qwb) cs) then .error .overflow s
      else .done (appendBits (tokens (coefWidth (s.slot n).qwb) cs) s)) with ⟨cs, hc, e⟩ | ⟨a, -, e⟩
  · cases h : overflows s (coefLength (coefWidth (s.slot n).qwb) cs) with
    | true =>
      rw [h, if_pos rfl] at e
      exact .inl ⟨cs, hc, overflows_eq_true.1 h, e⟩
    | false =>
      rw [h, if_neg Bool.false_ne_true] at e
      exact .inr (.inl ⟨cs, hc, overflows_eq_false.1 h, e⟩)
  · exact .inr (.inr ⟨a, e⟩)

/-- TERM raises OVERFLOW and changes nothing, or succeeds (R245). -/
theorem termStage_cases (s : State) :
    (32768 < s.bitpos.toNat + 8 ∧ termStage s = .error .overflow s) ∨
      (s.bitpos.toNat + 8 ≤ 32768 ∧ termStage s = .done (appendBits (pack Config.endOfPatches 8) s)) := by
  cases h : overflows s 8 with
  | true => exact .inl ⟨overflows_eq_true.1 h, by rw [termStage, h]; rfl⟩
  | false => exact .inr ⟨overflows_eq_false.1 h, by rw [termStage, h]; rfl⟩

/-- `P` holds of the state a command ends in, with its effects or with an error; a fault leaves no state. -/
def CmdResult.Holds (P : State → Prop) : CmdResult → Prop
  | .done t => P t
  | .error _ t => P t
  | .fault _ => True

theorem CmdResult.Holds.andThen {P : State → Prop} {r : CmdResult} {f : State → CmdResult} (h : r.Holds P)
    (hf : ∀ s, P s → (f s).Holds P) : (r.andThen f).Holds P := by
  cases r with
  | done s => exact hf s h
  | error e s => exact h
  | fault x => trivial

/-- A property that every stage's effects keep, and that turning the engine to a slot and forcing QWB keep, holds of
whatever state the stages of one slot end in. -/
theorem buildSlot_keeps {P : State → Prop} {ext : Bool} {n : Fin 4}
    (enter : ∀ s, P s → P (enterSlot n s)) (pre : ∀ s ws, P s → Samples s n ws → P (afterPrescan n ws s))
    (force : ∀ s, P s → P (forceQwb n s))
    (tra : ∀ s ws, P s → Samples s n ws → P (afterTransform n ws s))
    (hdr : ∀ s cs, P s → Coefs s cs → s.bitpos.toNat + headerLength ext ≤ 32768 → P (afterHeader n ext cs s))
    (coe : ∀ s cs, P s → Coefs s cs → s.bitpos.toNat + coefLength (coefWidth (s.slot n).qwb) cs ≤ 32768 →
      P (appendBits (tokens (coefWidth (s.slot n).qwb) cs) s))
    {s : State} (h : P s) : (buildSlot ext n s).Holds P := by
  have hp : (prescanStage n (enterSlot n s)).Holds P := by
    rcases prescanStage_cases n (enterSlot n s) with ⟨ws, hw, e⟩ | ⟨a, e⟩ <;> rw [e]
    · exact pre _ _ (enter _ h) hw
    · trivial
  refine hp.andThen fun s1 h1 => ?_
  have ht : (transformStage n (forceQwb n s1)).Holds P := by
    rcases transformStage_cases n (forceQwb n s1) with ⟨-, e⟩ | ⟨-, ws, hw, e⟩ | ⟨-, a, e⟩ <;> rw [e]
    · exact force _ h1
    · exact tra _ _ (force _ h1) hw
    · trivial
  refine ht.andThen fun s2 h2 => ?_
  have hh : (hdrencStage n ext s2).Holds P := by
    rcases hdrencStage_cases n ext s2 with ⟨-, e⟩ | ⟨hb, cs, hc, e⟩ | ⟨-, a, e⟩ <;> rw [e]
    · exact h2
    · exact hdr _ _ h2 hc hb
    · trivial
  refine hh.andThen fun s3 h3 => ?_
  rcases coefencStage_cases n s3 with ⟨cs, -, -, e⟩ | ⟨cs, hc, hb, e⟩ | ⟨a, e⟩ <;> rw [e]
  · exact h3
  · exact coe _ _ h3 hc hb
  · trivial

/-- A property that holds of a start result and that every slot's stages keep holds of what the slots of BUILD end in. -/
theorem foldl_andThen_keeps {P : State → Prop} {f : Fin 4 → State → CmdResult} (l : List (Fin 4))
    (hf : ∀ n ∈ l, ∀ s, P s → (f n s).Holds P) {r : CmdResult} (hr : r.Holds P) :
    (l.foldl (fun r n => r.andThen (f n)) r).Holds P := by
  induction l generalizing r with
  | nil => exact hr
  | cons n l ih =>
    rw [List.foldl_cons]
    exact ih (fun k hk => hf k (List.mem_cons_of_mem _ hk)) (hr.andThen (hf n (by simp)))

/-- BUILD after its count check: what GHDR starts, the slots keep and TERM keeps, its end has. -/
theorem buildMessage_keeps {P : State → Prop} {count : Nat} {ext : Bool} {type : BitVec 8} {s : State}
    (start : P (appendBits (groupHeaderBits type) (clearStream s)))
    (slots : ∀ n ∈ buildSlots count, ∀ s, P s → (buildSlot ext n s).Holds P)
    (trm : ∀ s, P s → s.bitpos.toNat + 8 ≤ 32768 → P (appendBits (pack Config.endOfPatches 8) s)) :
    (buildMessage count ext type s).Holds P := by
  refine (foldl_andThen_keeps _ slots (r := ghdrStage type s) start).andThen fun t h => ?_
  rcases termStage_cases t with ⟨-, e⟩ | ⟨hb, e⟩ <;> rw [e]
  · exact h
  · exact trm _ h hb

/-- The error of a result, where it is one, is among these. -/
def CmdResult.ErrorIn (es : List CmdError) : CmdResult → Prop
  | .done _ => True
  | .error e _ => e ∈ es
  | .fault _ => True

theorem CmdResult.ErrorIn.andThen {es : List CmdError} {r : CmdResult} {f : State → CmdResult} (h : r.ErrorIn es)
    (hf : ∀ s, (f s).ErrorIn es) : (r.andThen f).ErrorIn es := by
  cases r with
  | done s => exact hf s
  | error e s => exact h
  | fault x => trivial

/-- Inside BUILD only BAD_RANGE and OVERFLOW can be raised (R268). -/
theorem buildMessage_errorIn (count : Nat) (ext : Bool) (type : BitVec 8) (s : State) :
    (buildMessage count ext type s).ErrorIn [.badRange, .overflow] := by
  have slot : ∀ n s, (buildSlot ext n s).ErrorIn [.badRange, .overflow] := by
    intro n s
    have hp : (prescanStage n (enterSlot n s)).ErrorIn [.badRange, .overflow] := by
      rcases prescanStage_cases n (enterSlot n s) with ⟨ws, -, e⟩ | ⟨a, e⟩ <;> rw [e] <;> trivial
    refine hp.andThen fun s1 => ?_
    have ht : (transformStage n (forceQwb n s1)).ErrorIn [.badRange, .overflow] := by
      rcases transformStage_cases n (forceQwb n s1) with ⟨-, e⟩ | ⟨-, ws, -, e⟩ | ⟨-, a, e⟩ <;> rw [e]
      · exact List.mem_cons_self
      all_goals trivial
    refine ht.andThen fun s2 => ?_
    have hh : (hdrencStage n ext s2).ErrorIn [.badRange, .overflow] := by
      rcases hdrencStage_cases n ext s2 with ⟨-, e⟩ | ⟨-, cs, -, e⟩ | ⟨-, a, e⟩ <;> rw [e]
      · exact List.mem_cons_of_mem _ List.mem_cons_self
      all_goals trivial
    refine hh.andThen fun s3 => ?_
    rcases coefencStage_cases n s3 with ⟨cs, -, -, e⟩ | ⟨cs, -, -, e⟩ | ⟨a, e⟩ <;> rw [e]
    · exact List.mem_cons_of_mem _ List.mem_cons_self
    all_goals trivial
  have fold : ∀ (l : List (Fin 4)) (r : CmdResult), r.ErrorIn [.badRange, .overflow] →
      (l.foldl (fun r n => r.andThen (buildSlot ext n)) r).ErrorIn [.badRange, .overflow] := by
    intro l
    induction l with
    | nil => exact fun r h => h
    | cons n l ih => exact fun r h => ih _ (h.andThen (slot n))
  refine (fold (buildSlots count) (ghdrStage type s) trivial).andThen fun t => ?_
  rcases termStage_cases t with ⟨-, e⟩ | ⟨-, e⟩ <;> rw [e]
  · exact List.mem_cons_of_mem _ List.mem_cons_self
  · trivial

/-- BUILD: BAD_COUNT and no effect; or its message; or an error inside it with free outputs; or a fault (R250, R251,
R257). -/
theorem buildStage_cases (count : Nat) (ext : Bool) (type : BitVec 8) (s : State) :
    ((count < 1 ∨ 4 < count) ∧ buildStage count ext type s = .error .badCount s) ∨
      (1 ≤ count ∧ count ≤ 4 ∧
        ((∃ t, buildMessage count ext type s = .done t ∧ buildStage count ext type s = .done t) ∨
          (∃ e t, buildMessage count ext type s = .error e t ∧
            buildStage count ext type s = .error e (freeOutputs count t)) ∨
          (∃ f, buildMessage count ext type s = .fault f ∧ buildStage count ext type s = .fault f))) := by
  unfold buildStage Config.maxPatches
  by_cases h : count < 1 ∨ 4 < count
  · exact .inl ⟨h, if_pos h⟩
  · rw [if_neg h]
    refine .inr ⟨by omega, by omega, ?_⟩
    cases buildMessage count ext type s with
    | done t => exact .inl ⟨t, rfl, rfl⟩
    | error e t => exact .inr (.inl ⟨e, t, rfl, rfl⟩)
    | fault f => exact .inr (.inr ⟨f, rfl, rfl⟩)

/-- What the free outputs of BUILD leave alone: the registers no command writes, and every slot's POSX, POSY and SERIAL. -/
theorem freeOutputs_kept (count : Nat) (s : State) :
    (freeOutputs count s).status = s.status ∧ (freeOutputs count s).engine = s.engine ∧
      ControlKept s (freeOutputs count s) ∧
      ∀ k, ((freeOutputs count s).slot k).posx = (s.slot k).posx ∧ ((freeOutputs count s).slot k).posy = (s.slot k).posy ∧
        ((freeOutputs count s).slot k).serial = (s.slot k).serial ∧
        (k ∉ buildSlots count → (freeOutputs count s).slot k = s.slot k) := by
  have key : ∀ (l : List (Fin 4)) (t : State),
      (l.foldl (freeSlot s.draws) t).status = t.status ∧ (l.foldl (freeSlot s.draws) t).engine = t.engine ∧
        ControlKept t (l.foldl (freeSlot s.draws) t) ∧
        ∀ k, ((l.foldl (freeSlot s.draws) t).slot k).posx = (t.slot k).posx ∧
          ((l.foldl (freeSlot s.draws) t).slot k).posy = (t.slot k).posy ∧
          ((l.foldl (freeSlot s.draws) t).slot k).serial = (t.slot k).serial ∧
          (k ∉ l → (l.foldl (freeSlot s.draws) t).slot k = t.slot k) := by
    intro l
    induction l with
    | nil => intro t; exact ⟨rfl, rfl, controlKept_refl t, fun k => ⟨rfl, rfl, rfl, fun _ => rfl⟩⟩
    | cons n l ih =>
      intro t
      rw [List.foldl_cons]
      obtain ⟨h1, h2, h3, h4⟩ := ih (freeSlot s.draws t n)
      refine ⟨h1, h2, ControlKept.trans (t := freeSlot s.draws t n) ⟨rfl, rfl, rfl, rfl⟩ h3, fun k => ?_⟩
      obtain ⟨k1, k2, k3, k4⟩ := h4 k
      have hs : (freeSlot s.draws t n).slot k = if k = n then _ else t.slot k := updateSlot_slot t n k _
      refine ⟨?_, ?_, ?_, fun hk => ?_⟩
      · rw [k1, hs]; split <;> rfl
      · rw [k2, hs]; split <;> rfl
      · rw [k3, hs]; split <;> rfl
      · simp only [List.mem_cons, not_or] at hk
        rw [k4 hk.2, hs, if_neg hk.1]
  exact key (buildSlots count) s

@[simp] theorem freeWords_length (d a n : Nat) : (freeWords d a n).length = n := by simp [freeWords]
@[simp] theorem freeBytes_length (d a n : Nat) : (freeBytes d a n).length = n := by simp [freeBytes]

/-- A free ROWBUF touches ROWBUF only. -/
theorem freeRowbuf_load_outside {d : Nat} {m : Memory} {a : Nat} (h : a < 0x3400 ∨ 0x3800 ≤ a) :
    (freeRowbuf d m).load a = m.load a := by
  unfold freeRowbuf
  rw [load_storeWords_outside (by rw [freeWords_length]; unfold rowbufBase; omega)]

/-- Free transform outputs touch COEF and ROWBUF only. -/
theorem freeTransform_load_outside {d : Nat} {m : Memory} {a : Nat} (h : a < 0x3000 ∨ 0x3800 ≤ a) :
    (freeTransform d m).load a = m.load a := by
  unfold freeTransform
  rw [load_storeWords_outside (by rw [freeWords_length]; unfold coefBase; omega), freeRowbuf_load_outside (by omega)]

/-- Freed COEF words touch COEF only. -/
theorem freeWrittenCoefs_load_outside {d : Nat} {m : Memory} {a : Nat} (h : a < 0x3000 ∨ 0x3400 ≤ a) :
    (freeWrittenCoefs d m).load a = m.load a := by
  unfold freeWrittenCoefs
  rw [load_refresh_outside (by unfold coefBase; omega)]

/-- Free stream bytes touch the stream buffer only, and all of it. -/
theorem freeStream_load_outside {d : Nat} {m : Memory} {a : Nat} (h : a < 0x2000 ∨ 0x3000 ≤ a) :
    (freeStream d m).load a = m.load a := by
  unfold freeStream
  rw [load_store_outside]
  rw [freeBytes_length]
  unfold Config.streamBytes streamBase
  omega

theorem freeStream_written {d : Nat} {m : Memory} {i : Nat} (h : i < 4096) :
    ((freeStream d m).load (streamBase + i)).isSome = true := by
  unfold freeStream
  rw [load_store, freeBytes_length, if_pos (by unfold Config.streamBytes; omega)]
  rw [List.getElem?_eq_getElem (by rw [freeBytes_length]; unfold Config.streamBytes; omega)]
  rfl

theorem freeRowbuf_wf {d : Nat} {m : Memory} (h : m.wf) : (freeRowbuf d m).wf := storeWords_wf h _ _

theorem freeWrittenCoefs_wf {d : Nat} {m : Memory} (h : m.wf) : (freeWrittenCoefs d m).wf := refresh_wf h _ _ _

theorem freeTransform_wf {d : Nat} {m : Memory} (h : m.wf) : (freeTransform d m).wf := storeWords_wf (storeWords_wf h _ _) _ _

theorem freeStream_wf {d : Nat} {m : Memory} (h : m.wf) : (freeStream d m).wf := store_wf h _ _

/-- The free outputs of BUILD touch the stream buffer, COEF and ROWBUF only. -/
theorem freeOutputs_load_outside {count : Nat} {s : State} {a : Nat} (h : a < 0x2000 ∨ 0x3800 ≤ a) :
    (freeOutputs count s).mem.load a = s.mem.load a := by
  unfold freeOutputs
  rw [freeStream_load_outside (by omega), freeWrittenCoefs_load_outside (by omega), freeRowbuf_load_outside (by omega)]

/-- The free outputs of BUILD neither clear nor set a mark of COEF (R295). -/
theorem freeOutputs_coef_isSome (count : Nat) (s : State) {k : Nat} (h : k < 256) :
    ((freeOutputs count s).mem.loadWord (coefBase + 4 * k)).isSome = (s.mem.loadWord (coefBase + 4 * k)).isSome := by
  have key : ∀ j, j < 4 → ((freeOutputs count s).mem.load (coefBase + 4 * k + j)).isSome =
      (s.mem.load (coefBase + 4 * k + j)).isSome := by
    intro j hj
    unfold freeOutputs freeWrittenCoefs coefBase
    rw [freeStream_load_outside (by omega), load_refresh_isSome, freeRowbuf_load_outside (by omega)]
  have h0 := key 0 (by omega)
  rw [Nat.add_zero] at h0
  rw [loadWord_isSome, loadWord_isSome, h0, key 1 (by omega), key 2 (by omega), key 3 (by omega)]

/-- The free outputs of BUILD keep the canonical form. -/
theorem freeOutputs_wf {count : Nat} {s : State} (h : s.mem.wf) : (freeOutputs count s).mem.wf :=
  freeStream_wf (freeWrittenCoefs_wf (freeRowbuf_wf h))

/-- The two passes write ROWBUF and COEF and no other byte. -/
theorem columnPass_length (free : Nat → Word) (rows : List Word) : (columnPass free rows).length = 256 := by
  unfold columnPass zigReorder
  have : ∀ (l : List (Nat × Word)) (acc : List Word), (l.foldl (fun acc x => acc.set x.1 x.2) acc).length = acc.length := by
    intro l
    induction l with
    | nil => intro acc; rfl
    | cons x l ih => intro acc; rw [List.foldl_cons, ih, List.length_set]
  rw [this, List.length_replicate]

@[simp] theorem rowPass_length (free : Nat → Word) (b : List Word) : (rowPass free b).length = 256 := by simp [rowPass]

theorem transformPasses_mem (s : State) :
    (transformPasses s).mem =
      (s.mem.storeWords rowbufBase (rowPass (Config.freeWord s.draws) s.engine.block)).storeWords coefBase
        (columnPass (Config.freeWord s.draws) (rowPass (Config.freeWord s.draws) s.engine.block)) := by
  unfold transformPasses
  rfl

theorem transformPasses_load_outside {s : State} {a : Nat} (h : a < 0x3000 ∨ 0x3800 ≤ a) :
    (transformPasses s).mem.load a = s.mem.load a := by
  rw [transformPasses_mem, load_storeWords_outside (by rw [columnPass_length]; unfold coefBase; omega),
    load_storeWords_outside (by rw [rowPass_length]; unfold rowbufBase; omega)]

theorem transformPasses_coefs (s : State) :
    Coefs (transformPasses s)
      (columnPass (Config.freeWord s.draws) (rowPass (Config.freeWord s.draws) s.engine.block)) := by
  unfold Coefs
  rw [transformPasses_mem]
  have := loadWords_storeWords coefBase
    (columnPass (Config.freeWord s.draws) (rowPass (Config.freeWord s.draws) s.engine.block))
    (s.mem.storeWords rowbufBase (rowPass (Config.freeWord s.draws) s.engine.block))
  rwa [columnPass_length] at this

theorem transformPasses_wf {s : State} (h : s.mem.wf) : (transformPasses s).mem.wf := by
  rw [transformPasses_mem]
  exact storeWords_wf (storeWords_wf h _ _) _ _

/-- One host access is refused, or is a read, or is a write (R81). -/
theorem hostAccess_cases (a : Access) (s : State) :
    (a.width ≠ 4 ∧ hostAccess a s = .refused (.accessWidth a.width)) ∨
      (a.width = 4 ∧ a.offset.toNat % 4 ≠ 0 ∧ hostAccess a s = .refused (.accessMisaligned a.offset.toNat)) ∨
        (a.width = 4 ∧ a.offset.toNat % 4 = 0 ∧ a.kind = .read ∧
          hostAccess a s = .next (hostRead (locate a.offset) s)) ∨
          (a.width = 4 ∧ a.offset.toNat % 4 = 0 ∧ ∃ v, a.kind = .write v ∧
            hostAccess a s = .next (hostWrite v (locate a.offset) s)) := by
  by_cases h1 : a.width = 4
  · by_cases h2 : a.offset.toNat % 4 = 0
    · cases h3 : a.kind with
      | read => exact .inr (.inr (.inl ⟨h1, h2, rfl, by simp [hostAccess, h1, h2, h3]⟩))
      | write v => exact .inr (.inr (.inr ⟨h1, h2, v, rfl, by simp [hostAccess, h1, h2, h3]⟩))
    · exact .inr (.inl ⟨h1, h2, by simp [hostAccess, h1, h2]⟩)
  · exact .inl ⟨h1, by simp [hostAccess, h1]⟩

/-- A pass of WAIT ends the loop or goes on; it reads STATUS and changes nothing else (R128). -/
theorem hostPoll_cases (n : Nat) (s : State) :
    (s.status.busy = false ∧ hostPoll n s = hostRead .status s) ∨
      (s.status.busy = true ∧ n = 0 ∧
        hostPoll n s = { hostRead .status s with schedule := .engine :: .poll 0 :: s.schedule }) ∨
      (s.status.busy = true ∧ ∃ k, n = k + 1 ∧
        hostPoll n s = { hostRead .status s with schedule := .poll k :: s.schedule }) := by
  have h0 : (hostRead .status s).rdata.getLsbD 0 = s.status.busy := by
    rw [hostRead_rdata]
    simp [readValue, Loc.commandWrites, locValue, Status.toWord]
  unfold hostPoll waitTurns
  simp only [h0]
  cases s.status.busy with
  | false => exact .inl ⟨rfl, rfl⟩
  | true =>
    cases n with
    | zero => exact .inr (.inl ⟨rfl, rfl, rfl⟩)
    | succ k => exact .inr (.inr ⟨rfl, k, rfl, rfl⟩)

/-- What one step can be: an engine turn, an idle wait, a power-on reset, a host access, or a pass of WAIT. -/
theorem step_cases (s : State) :
    (∃ s', (s' = s ∧ s.schedule = [] ∨ ∃ rest, s.schedule = .engine :: rest ∧ s' = { s with schedule := rest }) ∧
        ((s.status.busy = false ∧ step s = .next s') ∨
          (s.status.busy = true ∧ ∃ i, decode s.engine.command = .ok i ∧ step s = exec i s') ∨
          (s.status.busy = true ∧ ∃ e, decode s.engine.command = .error e ∧
            step s = .next (complete (some .illegal) s')))) ∨
      (∃ rest, s.schedule = .powerOn :: rest ∧ step s = .next (powerOnReset { s with schedule := rest })) ∨
      (∃ a rest, s.schedule = .host a :: rest ∧ step s = hostAccess a { s with schedule := rest }) ∨
      (∃ n rest, s.schedule = .poll n :: rest ∧ step s = .next (hostPoll n { s with schedule := rest })) := by
  have turn : ∀ s' : State, s'.status = s.status → s'.engine = s.engine → step s = engineTurn s' →
      (s.status.busy = false ∧ step s = .next s') ∨
        (s.status.busy = true ∧ ∃ i, decode s.engine.command = .ok i ∧ step s = exec i s') ∨
        (s.status.busy = true ∧ ∃ e, decode s.engine.command = .error e ∧
          step s = .next (complete (some .illegal) s')) := by
    intro s' hs he h
    rw [h]
    unfold engineTurn
    rw [hs, he]
    cases s.status.busy with
    | false => exact .inl ⟨rfl, rfl⟩
    | true =>
      rw [if_pos rfl]
      cases hd : decode s.engine.command with
      | ok i => exact .inr (.inl ⟨rfl, i, rfl, rfl⟩)
      | error e => exact .inr (.inr ⟨rfl, e, rfl, rfl⟩)
  cases h : s.schedule with
  | nil => exact .inl ⟨s, .inl ⟨rfl, rfl⟩, turn s rfl rfl (by unfold step; rw [h])⟩
  | cons t rest =>
    cases t with
    | engine =>
      exact .inl ⟨{ s with schedule := rest }, .inr ⟨rest, rfl, rfl⟩,
        turn { s with schedule := rest } rfl rfl (by unfold step; rw [h])⟩
    | powerOn => exact .inr (.inl ⟨rest, rfl, by unfold step; rw [h]⟩)
    | host a => exact .inr (.inr (.inl ⟨a, rest, rfl, by unfold step; rw [h]⟩))
    | poll n => exact .inr (.inr (.inr ⟨n, rest, rfl, by unfold step; rw [h]⟩))

end Sys2Proof.Machine
end

