-- ==== Sys2Proof/Laws/Bus.lean ====
section
/-! SUPPORT. What the host's accesses can do: where an offset lies, and the cases of a write and of an issued word. -/

namespace Sys2Proof.Machine

/-- Offset `a`, below the size of the space, as a number. -/
theorem offset_toNat {a : Nat} (h : a < 0x10000) : (BitVec.ofNat 16 a).toNat = a := by
  rw [BitVec.toNat_ofNat]; omega

theorem locate_slotReg (n : Fin 4) {k : Nat} (h : k < 8) :
    locate (BitVec.ofNat 16 (0x0100 + 0x20 * n.val + 4 * k)) = .slotReg n (slotRegAt k) := by
  have hn := n.isLt
  rw [locate, offset_toNat (by omega), if_pos (by omega), locateRegister, if_neg (by omega), if_pos (by omega),
    show (0x0100 + 0x20 * n.val + 4 * k) % 0x20 / 4 = k by omega]
  congr 1
  apply Fin.ext
  simp only [Fin.val_ofNat]
  omega

theorem locate_sample (n : Fin 4) {k : Nat} (h : k < 256) :
    locate (BitVec.ofNat 16 (0x1000 + 0x400 * n.val + 4 * k)) = .sample n k := by
  have hn := n.isLt
  rw [locate, offset_toNat (by omega), if_neg (by omega), if_pos (by omega), locateRam, if_pos (by omega),
    show (0x1000 + 0x400 * n.val + 4 * k) % 0x400 / 4 = k by omega]
  congr 1
  apply Fin.ext
  simp only [Fin.val_ofNat]
  omega

theorem locate_stream {k : Nat} (h : k < 1024) : locate (BitVec.ofNat 16 (0x2000 + 4 * k)) = .stream k := by
  rw [locate, offset_toNat (by omega), if_neg (by omega), if_pos (by omega), locateRam, if_neg (by omega),
    if_pos (by omega), show (0x2000 + 4 * k - 0x2000) / 4 = k by omega]

theorem locate_coef {k : Nat} (h : k < 256) : locate (BitVec.ofNat 16 (0x3000 + 4 * k)) = .coef k := by
  rw [locate, offset_toNat (by omega), if_neg (by omega), if_pos (by omega), locateRam, if_neg (by omega),
    if_neg (by omega), if_pos (by omega), show (0x3000 + 4 * k - 0x3000) / 4 = k by omega]

theorem locate_rowbuf {k : Nat} (h : k < 256) : locate (BitVec.ofNat 16 (0x3400 + 4 * k)) = .rowbuf k := by
  rw [locate, offset_toNat (by omega), if_neg (by omega), if_pos (by omega), locateRam, if_neg (by omega),
    if_neg (by omega), if_neg (by omega), if_pos (by omega), show (0x3400 + 4 * k - 0x3400) / 4 = k by omega]

theorem locate_cos {k : Nat} (h : k < 256) : locate (BitVec.ofNat 16 (0x4000 + 4 * k)) = .cos k := by
  rw [locate, offset_toNat (by omega), if_neg (by omega), if_neg (by omega), locateRom, if_pos (by omega),
    show (0x4000 + 4 * k - 0x4000) / 4 = k by omega]

theorem locate_qnt {k : Nat} (h : k < 256) : locate (BitVec.ofNat 16 (0x4400 + 4 * k)) = .qnt k := by
  rw [locate, offset_toNat (by omega), if_neg (by omega), if_neg (by omega), locateRom, if_neg (by omega),
    if_pos (by omega), show (0x4400 + 4 * k - 0x4400) / 4 = k by omega]

theorem locate_deq {k : Nat} (h : k < 256) : locate (BitVec.ofNat 16 (0x4800 + 4 * k)) = .deq k := by
  rw [locate, offset_toNat (by omega), if_neg (by omega), if_neg (by omega), locateRom, if_neg (by omega),
    if_neg (by omega), if_pos (by omega), show (0x4800 + 4 * k - 0x4800) / 4 = k by omega]

theorem locate_zig {k : Nat} (h : k < 256) : locate (BitVec.ofNat 16 (0x4C00 + 4 * k)) = .zig k := by
  rw [locate, offset_toNat (by omega), if_neg (by omega), if_neg (by omega), locateRom, if_neg (by omega),
    if_neg (by omega), if_neg (by omega), if_pos (by omega), show (0x4C00 + 4 * k - 0x4C00) / 4 = k by omega]

/-- A sample location is one of the slot's 256 words. -/
theorem locate_sample_lt {o : Offset} {n : Fin 4} {k : Nat} (h : locate o = .sample n k) : k < 256 := by
  unfold locate at h
  split at h
  · unfold locateRegister at h
    (repeat' split at h) <;> cases h
  · split at h
    · unfold locateRam at h
      (repeat' split at h) <;> cases h
      omega
    · unfold locateRom at h
      (repeat' split at h) <;> cases h

/-- A COEF location is one of its 256 words. -/
theorem locate_coef_lt {o : Offset} {k : Nat} (h : locate o = .coef k) : k < 256 := by
  unfold locate at h
  split at h
  · unfold locateRegister at h
    (repeat' split at h) <;> cases h
  · split at h
    · unfold locateRam at h
      (repeat' split at h) <;> cases h
      omega
    · unfold locateRom at h
      (repeat' split at h) <;> cases h

/-- Only the first three registers are CTRL, STATUS and CMD. -/
theorem locate_control {o : Offset} :
    (locate o = .ctrl ↔ o = 0x0000) ∧ (locate o = .status ↔ o = 0x0004) ∧ (locate o = .cmd ↔ o = 0x0008) := by
  have to0 : ∀ c : Nat, c < 0x10000 → (o = BitVec.ofNat 16 c ↔ o.toNat = c) := fun c h => by
    rw [← BitVec.toNat_inj, offset_toNat h]
  rw [show (0x0000 : Offset) = BitVec.ofNat 16 0x0000 from rfl, show (0x0004 : Offset) = BitVec.ofNat 16 0x0004 from rfl,
    show (0x0008 : Offset) = BitVec.ofNat 16 0x0008 from rfl, to0 _ (by omega), to0 _ (by omega), to0 _ (by omega)]
  unfold locate
  generalize o.toNat = a
  split
  · unfold locateRegister
    repeat' split
    all_goals simp only [reduceCtorEq, false_iff, true_iff]
    all_goals omega
  · split
    · unfold locateRam
      repeat' split
      all_goals simp only [reduceCtorEq, false_iff]
      all_goals omega
    · unfold locateRom
      repeat' split
      all_goals simp only [reduceCtorEq, false_iff]
      all_goals omega

/-- A host write is one of seven things (R33, R38 to R40, R302). -/
theorem hostWrite_cases (v : Word) (l : Loc) (s : State) :
    (l = .ctrl ∧ v.getLsbD 1 = true ∧ hostWrite v l s = softReset s) ∨
      (l = .ctrl ∧ v.getLsbD 1 = false ∧ hostWrite v l s = { s with ie := v.getLsbD 0 }) ∨
      (l = .status ∧ hostWrite v l s = clearStatus v s) ∨
      (l = .cmd ∧ s.status.busy = true ∧ hostWrite v l s = { s with status := { s.status with cdrop := true } }) ∨
      (l = .cmd ∧ s.status.busy = false ∧ hostWrite v l s = issue v s) ∨
      (l ≠ .ctrl ∧ l ≠ .status ∧ l ≠ .cmd ∧ s.status.busy = true ∧
        hostWrite v l s = { s with status := { s.status with wdrop := true } }) ∨
      (l ≠ .ctrl ∧ l ≠ .status ∧ l ≠ .cmd ∧ s.status.busy = false ∧ hostWrite v l s = writeLoc v l s) := by
  cases hb : s.status.busy <;> cases hv : v.getLsbD 1 <;> cases l <;>
    simp only [hostWrite, hb, hv, if_true, if_false, Bool.false_eq_true, reduceCtorEq, ne_eq, not_true_eq_false,
      not_false_eq_true, false_and, and_false, true_and, false_or, or_false, and_self, or_self]

/-- An issued word is accepted or ends at once with ILLEGAL (R121, R262). -/
theorem issue_cases (w : Word) (s : State) :
    (∃ i, decode w = .ok i ∧ issue w s =
        { s with cmd := w, status := { s.status with busy := true }, engine := { Engine.idle with command := w } }) ∨
      (∃ e, decode w = .error e ∧ issue w s = complete (some .illegal) { s with cmd := w }) := by
  cases h : decode w with
  | ok i => exact .inl ⟨i, rfl, by simp only [issue, h]⟩
  | error e => exact .inr ⟨e, rfl, by simp only [issue, h]⟩

/-- A write while BUSY = 0 changes one slot register, one sample word and its SERIAL, one COEF word, or nothing. -/
theorem writeLoc_cases (v : Word) (l : Loc) (s : State) :
    (∃ n r, l = .slotReg n r ∧ writeLoc v l s = s.updateSlot n fun x => slotRegWrite v x r) ∨
      (∃ n k, l = .sample n k ∧ writeLoc v l s =
        { s.updateSlot n (fun x => { x with serial := nextSerial x.serial }) with
          mem := s.mem.storeWords (sampleBase n + 4 * k) [v] }) ∨
      (∃ k, l = .coef k ∧ writeLoc v l s = { s with mem := s.mem.storeWords (coefBase + 4 * k) [v] }) ∨
      writeLoc v l s = s := by
  cases l with
  | slotReg n r => exact .inl ⟨n, r, rfl, rfl⟩
  | sample n k => exact .inr (.inl ⟨n, k, rfl, rfl⟩)
  | coef k => exact .inr (.inr (.inl ⟨k, rfl, rfl⟩))
  | _ => exact .inr (.inr (.inr rfl))

/-- A soft reset keeps the sample RAM, whatever ran (R292). -/
theorem softResetMemory_load_sample {s : State} {a : Nat} (h : a < 0x2000) :
    (softResetMemory s).load a = s.mem.load a := by
  have ht : ∀ m, (freeTransform s.draws m).load a = m.load a := fun m => freeTransform_load_outside (.inl (by omega))
  have hs : ∀ m, (freeStream s.draws m).load a = m.load a := fun m => freeStream_load_outside (.inl h)
  unfold softResetMemory
  split
  · split
    · rename_i i _
      cases i <;> simp only [abortMemory, ht, hs]
    · rfl
  · rfl

/-- A soft reset keeps the canonical form of memory. -/
theorem softResetMemory_wf {s : State} (h : s.mem.wf) : (softResetMemory s).wf := by
  unfold softResetMemory
  split
  · split
    · rename_i i _
      cases i <;> simp only [abortMemory] <;>
        first | exact h | exact freeTransform_wf h | exact freeStream_wf h | exact freeStream_wf (freeTransform_wf h)
    · exact h
  · exact h

end Sys2Proof.Machine
end

