-- ==== Sys2Proof/Laws/Float.lean ====
section
/-! SUPPORT. What each binary32 operation gives: a NaN, a rounded exact value, or the free word. -/

namespace Sys2Proof.Machine

theorem roundMag_le (n d : Nat) : roundMag n d ≤ f32InfMag := Nat.min_le_right _ _

theorem f32Make_toNat {neg : Bool} {m : Nat} (h : m ≤ f32InfMag) :
    (f32Make neg m).toNat = if neg then 0x80000000 + m else m := by
  unfold f32InfMag at h
  unfold f32Make
  rw [BitVec.toNat_ofNat]
  split <;> omega

/-- The fields of an encoding built from a sign and a magnitude. -/
theorem f32Make_fields {neg : Bool} {m : Nat} (h : m ≤ f32InfMag) :
    f32Neg (f32Make neg m) = neg ∧ f32Exp (f32Make neg m) = m / 0x800000 ∧ f32Frac (f32Make neg m) = m % 0x800000 := by
  have e := f32Make_toNat (neg := neg) h
  unfold f32InfMag at h
  refine ⟨?_, ?_, ?_⟩
  · unfold f32Neg
    rw [BitVec.getLsbD_eq_getElem (by omega), BitVec.getElem_eq_testBit_toNat, e, Nat.testBit_eq_decide_div_mod_eq]
    cases neg <;> simp only [if_true, Bool.false_eq_true, if_false, decide_eq_true_eq, decide_eq_false_iff_not] <;> omega
  · unfold f32Exp
    rw [e]
    cases neg <;> simp only [if_true, Bool.false_eq_true, if_false] <;> omega
  · unfold f32Frac
    rw [e]
    cases neg <;> simp only [if_true, Bool.false_eq_true, if_false]
    omega

theorem isNaN_f32Make {neg : Bool} {m : Nat} (h : m ≤ f32InfMag) : isNaN (f32Make neg m) = false := by
  obtain ⟨-, h1, h2⟩ := f32Make_fields (neg := neg) h
  unfold f32InfMag at h
  unfold isNaN
  rw [h1, h2]
  by_cases h3 : m / 0x800000 = 255
  · have : m % 0x800000 = 0 := by omega
    rw [this]; simp
  · simp [h3]

/-- A finite encoding is no NaN and no infinity. -/
theorem not_special_of_finite {a : Word} (h : isFinite a = true) : isNaN a = false ∧ isInf a = false := by
  unfold isFinite at h
  unfold isNaN isInf
  rw [bne_iff_ne] at h
  simp [h]

/-- The sum of finite operands (R10). -/
theorem fadd_of_finite {φ a b : Word} (ha : isFinite a = true) (hb : isFinite b = true) :
    fadd φ a b =
      if f32Value a + f32Value b = 0 then f32Make (f32Neg a && f32Neg b) 0
      else f32Make (decide (f32Value a + f32Value b < 0)) (roundMag (f32Value a + f32Value b).natAbs 1) := by
  unfold fadd
  simp [not_special_of_finite ha, not_special_of_finite hb]

/-- The product of finite operands (R10). -/
theorem fmul_of_finite {φ a b : Word} (ha : isFinite a = true) (hb : isFinite b = true) :
    fmul φ a b = f32Make (f32Neg a != f32Neg b) (roundMag (f32Units a * f32Units b) (1 <<< 149)) := by
  unfold fmul
  simp [not_special_of_finite ha, not_special_of_finite hb]

/-- The quotient of finite operands, the divisor not a zero (R10). -/
theorem fdiv_of_finite {φ a b : Word} (ha : isFinite a = true) (hb : isFinite b = true) (hz : f32Units b ≠ 0) :
    fdiv φ a b = f32Make (f32Neg a != f32Neg b) (roundMag (f32Units a <<< 149) (f32Units b)) := by
  unfold fdiv
  simp [not_special_of_finite ha, not_special_of_finite hb, hz]

theorem truncS32_of_fits {φ w : Word} (h : truncFits w = true) : truncS32 φ w = BitVec.ofInt 32 (truncInt w) := if_pos h

theorem truncS32_of_not_fits {φ w : Word} (h : truncFits w = false) : truncS32 φ w = φ := by
  unfold truncS32
  rw [h]
  rfl

end Sys2Proof.Machine
end

