-- ==== Sys2Proof/Laws/PerInstr.lean ====
section
/-! SUPPORT. Statements about every instruction as syntax, one lemma per constructor. Family `EncodesOwnRow`: the
command word of an instruction is of the opcode-map row of its own mnemonic (30_encoding R122, R123). -/

namespace Sys2Proof.Laws

/-- The mnemonic of an instruction's row. -/
def mnemonicOf : Instr → String
  | .nop => "NOP"
  | .prescan _ => "PRESCAN"
  | .transform _ => "TRANSFORM"
  | .hdrenc _ _ => "HDRENC"
  | .coefenc _ => "COEFENC"
  | .ghdr _ => "GHDR"
  | .term => "TERM"
  | .sclr => "SCLR"
  | .build _ _ _ => "BUILD"

/-- The rows of the opcode map that the word of `i` is of are exactly the row of its mnemonic. -/
def ownRow (i : Instr) : Bool :=
  (opcodeMap.filter fun r => r.matches (encode i)).map OpcodeRow.mnemonic == [mnemonicOf i]

/-- The word of `i` is of exactly one row of the opcode map, the row of its mnemonic. -/
def EncodesOwnRow.Statement (i : Instr) : Prop := ownRow i = true

theorem ownRow_slot : ∀ slot : Fin 4, ownRow (.prescan slot) = true ∧ ownRow (.transform slot) = true ∧
    ownRow (.coefenc slot) = true ∧ ∀ ext : Bool, ownRow (.hdrenc slot ext) = true := by decide

theorem ownRow_ghdr : ∀ type : BitVec 8, ownRow (.ghdr type) = true := by decide +kernel

theorem ownRow_build : ∀ (c : BitVec 3) (ext : Bool) (type : BitVec 8), ownRow (.build c.toNat ext type) = true := by
  decide +kernel

theorem EncodesOwnRow.nop : EncodesOwnRow.Statement .nop := by unfold EncodesOwnRow.Statement; decide
theorem EncodesOwnRow.prescan (slot : Fin 4) : EncodesOwnRow.Statement (.prescan slot) := (ownRow_slot slot).1
theorem EncodesOwnRow.transform (slot : Fin 4) : EncodesOwnRow.Statement (.transform slot) := (ownRow_slot slot).2.1
theorem EncodesOwnRow.hdrenc (slot : Fin 4) (ext : Bool) : EncodesOwnRow.Statement (.hdrenc slot ext) :=
  (ownRow_slot slot).2.2.2 ext
theorem EncodesOwnRow.coefenc (slot : Fin 4) : EncodesOwnRow.Statement (.coefenc slot) := (ownRow_slot slot).2.2.1
theorem EncodesOwnRow.ghdr (type : BitVec 8) : EncodesOwnRow.Statement (.ghdr type) := ownRow_ghdr type
theorem EncodesOwnRow.term : EncodesOwnRow.Statement .term := by unfold EncodesOwnRow.Statement; decide
theorem EncodesOwnRow.sclr : EncodesOwnRow.Statement .sclr := by unfold EncodesOwnRow.Statement; decide
theorem EncodesOwnRow.build (count : Nat) (ext : Bool) (type : BitVec 8) :
    EncodesOwnRow.Statement (.build count ext type) := by
  have h := ownRow_build (BitVec.ofNat 3 count) ext type
  have e : countBits (BitVec.ofNat 3 count).toNat = countBits count := by
    unfold countBits
    rw [show BitVec.ofNat 3 (BitVec.ofNat 3 count).toNat = BitVec.ofNat 3 count from
      BitVec.eq_of_toNat_eq (by simp)]
  unfold EncodesOwnRow.Statement
  unfold ownRow encode mnemonicOf at *
  simp only [e] at h
  exact h

end Sys2Proof.Laws
end

