-- ==== Sys2Proof/Laws/Transform.lean ====
section
/-! SUPPORT. What the two passes of TRANSFORM leave word by word: the reorder unit, the sums and the lines. -/

namespace Sys2Proof.Machine

/-- Writing a list of entries at distinct places leaves each entry at its place. -/
theorem foldl_set_getElem? (l : List (Nat × Word)) (hl : (l.map Prod.fst).Nodup) (acc : List Word) (k : Nat) (v : Word)
    (hk : k < acc.length) (h : (k, v) ∈ l) :
    (l.foldl (fun acc x => acc.set x.1 x.2) acc)[k]? = some v := by
  induction l generalizing acc with
  | nil => cases h
  | cons x l ih =>
    rw [List.map_cons, List.nodup_cons] at hl
    rw [List.foldl_cons]
    rcases List.mem_cons.1 h with rfl | h
    · have keep : ∀ (l : List (Nat × Word)) (acc : List Word), k ∉ l.map Prod.fst →
          (l.foldl (fun acc x => acc.set x.1 x.2) acc)[k]? = acc[k]? := by
        intro l
        induction l with
        | nil => intro acc _; rfl
        | cons y l ih =>
          intro acc hn
          rw [List.map_cons, List.mem_cons, not_or] at hn
          rw [List.foldl_cons, ih _ hn.2, List.getElem?_set_ne (Ne.symm hn.1)]
      rw [keep l _ hl.1, List.getElem?_set_self hk]
    · exact ih hl.2 _ (by rw [List.length_set]; exact hk) h

theorem zigList_length : zigList.length = 256 := by decide +kernel
theorem zigList_nodup : zigList.Nodup := by decide +kernel

theorem zigAt_lt {u c : Nat} (hu : u < 16) (hc : c < 16) : zigAt u c < 256 := by
  have h : ∀ p : Fin 256, zigList.getD p.val 0 < 256 := by decide +kernel
  exact h ⟨16 * u + c, by omega⟩

/-- The reorder unit leaves the value of natural position (u, c) at index `ZIG[u][c]` (R158). -/
theorem zigReorder_getElem? {values : List Word} (hv : values.length = 256) {u c : Nat} (hu : u < 16) (hc : c < 16) :
    (zigReorder values)[zigAt u c]? = values[16 * u + c]? := by
  have hp : 16 * u + c < 256 := by omega
  rw [List.getElem?_eq_getElem (l := values) (i := 16 * u + c) (by omega)]
  refine foldl_set_getElem? _ ?_ _ _ _ (by rw [List.length_replicate]; exact zigAt_lt hu hc) ?_
  · rw [List.map_fst_zip (by rw [zigList_length]; omega)]
    exact zigList_nodup
  · rw [List.mem_iff_getElem]
    refine ⟨16 * u + c, by rw [List.length_zip, zigList_length]; omega, ?_⟩
    rw [List.getElem_zip]
    congr 1
    unfold zigAt
    rw [List.getD_eq_getElem?_getD, List.getElem?_eq_getElem (h := by rw [zigList_length]; omega)]
    rfl

theorem columnPass_getElem? (free : Nat → Word) (rows : List Word) {u c : Nat} (hu : u < 16) (hc : c < 16) :
    (columnPass free rows)[zigAt u c]? = some (coefValue free rows u c) := by
  unfold columnPass
  rw [zigReorder_getElem? (by simp) hu hc, List.getElem?_map, List.getElem?_range (by omega), Option.map_some,
    show (16 * u + c) / 16 = u by omega, show (16 * u + c) % 16 = c by omega]

theorem rowPass_getElem? (free : Nat → Word) (b : List Word) {r u : Nat} (hr : r < 16) (hu : u < 16) :
    (rowPass free b)[16 * r + u]? = some (rowValue free b r u) := by
  unfold rowPass
  rw [List.getElem?_map, List.getElem?_range (by omega), Option.map_some,
    show (16 * r + u) / 16 = r by omega, show (16 * r + u) % 16 = u by omega]

theorem sumSeq_snoc (free : Nat → Word) (ts : List Word) (t : Word) :
    sumSeq free (ts ++ [t]) = fadd (free ts.length) (sumSeq free ts) t := by
  unfold sumSeq
  rw [List.zipIdx_append, List.foldl_append]
  simp

/-- The accumulator after each term (R187). -/
theorem sumSeq_take (free : Nat → Word) (ts : List Word) {n : Nat} (h : n < ts.length) :
    sumSeq free (ts.take (n + 1)) = fadd (free n) (sumSeq free (ts.take n)) ts[n] := by
  rw [List.take_succ_eq_append_getElem h, sumSeq_snoc, List.length_take, Nat.min_eq_left (by omega)]

theorem isSum_sumSeq (free : Nat → Word) {ts : List Word} (h : ts.length = 16) : IsSum (fun n => ts.getD n 0) (sumSeq free ts) := by
  refine ⟨fun n => sumSeq free (ts.take n), rfl, fun n hn => ⟨free n, ?_⟩, ?_⟩
  · have hn' : n < ts.length := by omega
    show sumSeq free (ts.take (n + 1)) = fadd (free n) (sumSeq free (ts.take n)) (ts.getD n 0)
    rw [sumSeq_take free ts hn', List.getD_eq_getElem?_getD, List.getElem?_eq_getElem hn']
    rfl
  · show _ = sumSeq free (ts.take 16)
    rw [← h, List.take_length]

theorem cosRow_length {u : Nat} (hu : u < 16) : (cosRow u).length = 16 := by
  have h : ∀ u : Fin 16, (cosRow u.val).length = 16 := by decide +kernel
  exact h ⟨u, hu⟩

theorem isSum_congr {t t' : Nat → Word} {v : Word} (h : ∀ n, n < 16 → t n = t' n) (hs : IsSum t v) : IsSum t' v := by
  obtain ⟨acc, h0, h1, h2⟩ := hs
  exact ⟨acc, h0, fun n hn => by rw [← h n hn]; exact h1 n hn, h2⟩

theorem isLine_dctLine (free : Nat → Word) {u : Nat} (hu : u < 16) {xs : List Word} (h : xs.length = 16) :
    IsLine u (fun n => xs.getD n 0) (dctLine free u xs) := by
  by_cases hz : u = 0
  · subst hz
    exact .inl ⟨rfl, _, _, isSum_sumSeq free h, by unfold dctLine; rw [if_pos rfl]⟩
  · refine .inr ⟨hz, fun n => fmul (free (16 + n)) (xs.getD n 0) (cosAt u n), fun n hn => ⟨_, rfl⟩, ?_⟩
    unfold dctLine
    rw [if_neg hz]
    refine isSum_congr ?_ (isSum_sumSeq free (by simp [h, cosRow_length hu]))
    intro n hn
    have h1 : n < xs.length := by omega
    have h2 : n < (cosRow u).length := by rw [cosRow_length hu]; exact hn
    simp [List.getD_eq_getElem?_getD, h1, h2, cosAt]

end Sys2Proof.Machine
end

