-- ==== Sys2Proof/Tests/Slice0.lean ====
section
/-! SUPPORT. Small tests. Expected values are the spec's: words from its encoding tables (30_encoding), vectors `V-…`
and `S…` of 95_test_vectors. At the end, one witness for each obligation that has hypotheses. -/

namespace Sys2Proof.Machine

/-! ### Well-formedness, decoding, encoding -/

theorem test_build_count_8_is_ill_formed : (Instr.build 8 false 0).wellFormed = false := by decide
theorem test_build_count_7_is_well_formed : (Instr.build 7 true 0xFF).wellFormed = true := by decide

/-- OP 7:0 = 0, all other bits 0. -/
theorem test_decode_nop : decode 0b00000000_00000000_00000000_00000000 = .ok .nop := by decide
/-- SLOT 9:8 = 0b11. -/
theorem test_decode_prescan : decode 0b00000000_00000000_00000011_00000001 = .ok (.prescan 3) := by decide
theorem test_decode_transform : decode 0b00000000_00000000_00000010_00000010 = .ok (.transform 2) := by decide
/-- EXT is bit 13. -/
theorem test_decode_hdrenc : decode 0b00000000_00000000_00100001_00000011 = .ok (.hdrenc 1 true) := by decide
theorem test_decode_coefenc : decode 0b00000000_00000000_00000001_00000100 = .ok (.coefenc 1) := by decide
/-- TYPE 23:16 = 0x4C; the word of V-G1. -/
theorem test_decode_ghdr : decode 0b00000000_01001100_00000000_00000101 = .ok (.ghdr 0x4C) := by decide
theorem test_decode_term : decode 0b00000000_00000000_00000000_00000110 = .ok .term := by decide
theorem test_decode_sclr : decode 0b00000000_00000000_00000000_00000111 = .ok .sclr := by decide
/-- COUNT 12:10 = 5, the word 0x004C1408 of V-E2. -/
theorem test_decode_build : decode 0b00000000_01001100_00010100_00001000 = .ok (.build 5 false 0x4C) := by decide
/-- `BUILD 1, 0x4D, EXT` (0x004D2408), V-B3. -/
theorem test_encode_build : encode (.build 1 true 0x4D) = 0x004D2408 := by decide
/-- V-E1. -/
theorem test_decode_op9 : decode 0x00000009 = .error (.reservedOpcode 9) := by decide
/-- V-E4: EXT in a PRESCAN. -/
theorem test_decode_prescan_ext : decode 0x00002001 = .error .unusedField := by decide
/-- V-E5: SLOT in a BUILD. -/
theorem test_decode_build_slot : decode 0x00000108 = .error .unusedField := by decide
/-- V-E6: bit 24. -/
theorem test_decode_bit24 : decode 0x01000000 = .error .reservedBits := by decide
theorem test_decode_bit15 : decode 0x00008000 = .error .reservedBits := by decide
theorem test_decode_table_word : decodeTableWord 32 0x004D2408 = some (.build 1 true 0x4D) := by decide

/-! ### Binary32 and the tables -/

/-- V-TAB8. -/
theorem test_fmul_rounds : fmul 0 dctK dctK = 0x3EFFFFFF := by decide
/-- V-T1: premult and sub of the flat patch. -/
theorem test_premult : premultOf (fun _ => 0) 10 1 = 0x44800000 := by decide
theorem test_sub : subOf (fun _ => 0) 10 0x41A80000 0x44800000 = 0x46AC0000 := by decide
/-- V-T4: 1024/31. -/
theorem test_fdiv_rounds : premultOf (fun _ => 0) 10 31 = 0x42042108 := by decide
/-- V-T1: -8191.9985 truncates toward zero. -/
theorem test_trunc_toward_zero : truncS32 0 0xC5FFFFFD = BitVec.ofInt 32 (-8191) := by decide
/-- R12: a NaN compares false; the zeros compare equal. -/
theorem test_compare : flt 0x7FC00000 0 = false ∧ fgt 0x7FC00000 0 = false ∧ flt 0x80000000 0 = false := by decide
/-- V-TAB1, V-TAB4, V-TAB6, S10. -/
theorem test_tables : cosAt 1 0 = 0x3F7EC46D ∧ qntAt 0 1 = 0x3EAAAAAB ∧ zigAt 0 15 = 120 ∧ zigAt 15 0 = 135 ∧
    deqAt 15 15 = 0x42740000 := by decide

/-! ### One step of each command -/

/-- The state in which the engine runs this command next, from reset with memory `m`. -/
def running (i : Instr) (m : Memory) : State := { State.reset with mem := m }.withFetchWord 32 (encode i).toNat

/-- The checked fields of a next state. -/
def after {α : Type} (o : Host.Outcome State Fault Refusal) (f : State → α) : Option α :=
  match o with
  | .next s => some (f s)
  | .fault _ => none
  | .refused _ => none

/-- V-G5. -/
theorem test_nop : after (step (running .nop [])) (fun s => (s.status.toWord, s.bitpos)) = some (0x002, 0) := by decide
/-- V-G1. -/
theorem test_ghdr : after (step (running (.ghdr 0x4C) [])) (fun s => (s.mem, s.bitpos)) =
    some ([(0x2000, 0x01), (0x2001, 0x08), (0x2002, 0x10), (0x2003, 0x4C)], 32) := by decide
/-- V-G4: the old stream is dropped. -/
theorem test_ghdr_drops : after (exec (.ghdr 0x57) { State.reset with bitpos := 99 })
    (fun s => (s.mem.load 0x2003, s.bitpos)) = some (some 0x57, 32) := by decide
/-- V-G2: the sentinel after the GroupHeader is 0x61. -/
theorem test_term : after (exec .term { State.reset with bitpos := 32 })
    (fun s => (s.mem, s.bitpos, streamLen s)) = some ([(0x2004, 0x61)], 40, 5) := by decide
/-- V-G6. -/
theorem test_term_overflows : after (exec .term { State.reset with bitpos := 32761 })
    (fun s => (s.status.toWord, s.bitpos, s.mem)) = some (0x406, 32761, []) := by decide
/-- V-G3. -/
theorem test_sclr : after (exec .sclr { State.reset with bitpos := 99 })
    (fun s => (s.bitpos, streamLen s)) = some (0, 0) := by decide
/-- V-E7 on slot 1. -/
theorem test_transform_range_zero :
    after (exec (.transform 1) (State.reset.updateSlot 1 fun r => { r with range := 0 })) (fun s => s.status.toWord) =
      some 0x306 := by decide
/-- V-E2, V-E3. -/
theorem test_build_5 : after (exec (.build 5 false 0x4C) State.reset) (fun s => (s.status.toWord, s.bitpos, s.mem)) =
    some (0x206, 0, []) := by decide
theorem test_build_0 : after (exec (.build 0 false 0x4C) State.reset) (fun s => s.status.toWord) = some 0x206 := by decide
/-- R295: the free outputs of a BUILD with an inner BAD_RANGE leave COEF marked unwritten. -/
theorem test_bad_range_keeps_marks : ((freeOutputs 1 State.reset).mem.loadWord 0x3000).isSome = false :=
  freeOutputs_coef_isSome 1 State.reset (k := 0) (by decide)
/-- A refresh changes the bytes that hold a value, in its range, and lists no other. -/
theorem test_refresh : Memory.refresh 0x3000 0x3400 (fun _ => 9) [(0x2FFF, 1), (0x3000, 2), (0x3400, 3)] =
    [(0x2FFF, 1), (0x3000, 9), (0x3400, 3)] := by decide
/-- V-R3, V-R4. -/
theorem test_prescan_unwritten : step (running (.prescan 0) []) = .fault (.unwrittenState 0x1000) := rfl
theorem test_hdrenc_unwritten : step (running (.hdrenc 0 false) []) = .fault (.unwrittenState 0x3000) := rfl
theorem test_coefenc_unwritten : exec (.coefenc 0) State.reset = .fault (.unwrittenState 0x3000) := rfl

/-- V-P6 with the sample at (0,0) last: -100.5, ..., 100.0. -/
theorem test_prescan_min : prescanMin (0x42C80000 :: List.replicate 7 0xC2C90000) = 0xC2C90000 := by decide
theorem test_prescan_range : prescanRange (fun _ => 0) (0x42C80000 :: List.replicate 7 0xC2C90000) = 201 := by decide
/-- V-P4: the first of two equal zeros is kept. -/
theorem test_prescan_signed_zero : prescanMin (0x80000000 :: List.replicate 7 0) = 0x80000000 := by decide
/-- V-P2: 0.99999994 is floored. -/
theorem test_prescan_floor : prescanRange (fun _ => 0) [0, 0x3F7FFFFF] = 1 := by decide
/-- V-T1: ROWBUF[16r], [16r+1] and [16r+2] of sixteen times -512.0. -/
theorem test_row_pass : ([0, 1, 2].map fun u => dctLine (fun _ => 0) u (List.replicate 16 0xC4000000)) =
    [0xC5B504F3, 0xB9000000, 0xB8000000] := by
  decide +kernel
/-- V-T1: g(0,0) from the column of those values. -/
theorem test_column_pass :
    columnValue (fun _ => 0) ((List.range 256).map fun k => if k % 16 = 0 then 0xC5B504F3 else 0) 0 0 = 0xC5FFFFFD := by
  decide +kernel
/-- V-H1: wbits 11, QWB 0x89, PATCHIDS 0x064. -/
theorem test_header_slot :
    chooseWidth .doc 0x88 (BitVec.ofInt 32 (-8191) :: List.replicate 3 0) = 11 ∧ qwbWithWidth 0x88 11 = 0x89 ∧
      patchId false 3 4 = 0x064 := by decide
/-- V-C4, V-C11: a bit above maxW is not seen; the scan goes up to minW + 5. -/
theorem test_width_scan : chooseWidth .doc 0x88 [4096] = 6 ∧ chooseWidth .doc 0x8F [0x3FFF] = 14 := by decide
/-- V-H3, S4: both forms of PatchIDs. -/
theorem test_patch_id : patchId true 1000 2000 = 0x03E807D0 ∧ patchId false 5 10 = 0xAA := by decide
/-- V-H1: the 66 header bits. -/
theorem test_header_bits :
    headerBits { Slot.reset with qwb := 0x89, dcoff := 0x41A80000, patchids := 0x064 } false =
      bitsDown 0b10001001 0 8 ++ bitsDown 0b01000001101010000000000000000000 0 32 ++ bitsDown 1 0 16 ++
        [false, false, false, true, true, false, false, true, false, false] := by decide
/-- V-C2: `110 000101 111 000011 10`. -/
theorem test_tokens : tokens 6 [5, BitVec.ofInt 32 (-3), 0, 0] =
    [true, true, false, false, false, false, true, false, true, true, true, true, false, false, false, false, true, true,
      true, false] := by decide
/-- V-C5, V-C8: 2048 at width 11 packs to zeros; -2^31 at width 6 is clipped. -/
theorem test_tokens_clip :
    tokens 11 [2048] = [true, true, false] ++ List.replicate 11 false ∧
      tokens 6 [0x80000000] = [true, true, true] ++ List.replicate 6 false := by decide

/-! ### The host side -/

/-- Reset, then one host write. -/
def writing (offset : Offset) (v : Word) : State := { State.reset with schedule := [hostWR offset v] }

/-- Reset, then one host read. -/
def reading (offset : Offset) : State := { State.reset with schedule := [hostRD offset] }

/-- V-E1. -/
theorem test_illegal_word : after (step (writing 0x0008 9)) (fun s => (s.status.toWord, s.cmd)) = some (0x106, 9) := by
  decide
/-- R121: a legal word sets BUSY. -/
theorem test_legal_word : after (step (writing 0x0008 0x004C0408)) (fun s => (s.status.toWord, s.engine.command)) =
    some (1, 0x004C0408) := by decide
/-- V-E12, V-E13: writes while BUSY = 1. -/
theorem test_busy_writes :
    after (step { running .nop [] with schedule := [hostWR 8 1] }) (fun s => (s.status.toWord, s.cmd)) = some (0x11, 0) ∧
      after (step { running .nop [] with schedule := [hostWR 0x1000 1] })
        (fun s => (s.status.toWord, (s.slot 0).serial)) = some (0x9, 1) := by decide
/-- V-E9: ERR and ECODE are cleared, DONE is kept. -/
theorem test_clear_err : after (step { writing 4 4 with
      status := { busy := false, done := true, err := true, wdrop := false, cdrop := false, ecode := 3 } })
    (fun s => s.status.toWord) = some 0x002 := by decide
/-- V-S1: SERIAL wraps to 1. -/
theorem test_serial_wraps : after (step ((writing 0x1000 0x3F800000).updateSlot 0 fun r => { r with serial := 0xFFFFFFFF }))
    (fun s => ((s.slot 0).serial, s.mem.loadWord 0x1000)) = some (1, some 0x3F800000) := by decide
/-- V-M2, V-M3, V-M4. -/
theorem test_reserved_bits :
    after (step (writing 0x0100 0xFFFFFFFF)) (fun s => locValue s (locate 0x0100)) = some 0xFFFF ∧
      after (step (writing 0x0108 0x1234)) (fun s => locValue s (locate 0x0108)) = some 0x34 ∧
      after (step (writing 0x0114 5)) (fun s => locValue s (locate 0x0114)) = some 0 := by decide
/-- V-M1, V-R2, V-TAB1. -/
theorem test_reads :
    after (step (reading 0x0180)) (·.rdata) = some 0 ∧ after (step (reading 0x0128)) (·.rdata) = some 0x88 ∧
      after (step (reading 0x4040)) (·.rdata) = some 0x3F7EC46D := by decide
/-- R81: a byte access and a misaligned one. -/
theorem test_refused :
    step { State.reset with schedule := [.host ⟨0, 1, .read⟩] } = .refused (.accessWidth 1) ∧
      step { State.reset with schedule := [hostRD 2] } = .refused (.accessMisaligned 2) := ⟨rfl, rfl⟩
/-- R128: a pass of WAIT with BUSY = 1 goes on, one with BUSY = 0 ends the loop. -/
theorem test_wait_polls :
    after (step { running .nop [] with schedule := hostWAIT 0 }) (fun s => (s.rdata, s.schedule)) =
        some (1, [.engine, .poll 0]) ∧
      after (step { running .nop [] with schedule := hostWAIT 3 }) (·.schedule) = some [.poll 2] := by decide
theorem test_wait_ends :
    after (step { State.reset with schedule := hostWAIT 3 ++ [hostRD 8] }) (·.schedule) = some [hostRD 8] := by decide
/-- V-R5: a soft reset. -/
theorem test_soft_reset : after (step { (writing 0 2).updateSlot 2 (fun r => { r with posx := 5 }) with
      mem := [(0x1000, 7)], bitpos := 122, ie := true }) (fun s => (s.bitpos, (s.slot 2).posx, s.mem, s.ie)) =
    some (0, 0, [(0x1000, 7)], false) := by decide

/-! ### Witnesses: for each obligation with hypotheses, a state and operands that meet them together -/

/-- The samples of one slot, all 1.0. -/
def ones : List Word := List.replicate 256 0x3F800000

/-- 256 zero coefficients. -/
def zeros : List Word := List.replicate 256 0

/-- Reset with every sample word of the first `c` slots written, 1.0 in all of them. -/
def sampledTo (c : Nat) : State :=
  { State.reset with mem := Memory.storeWords 0x1000 (List.replicate (256 * c) 0x3F800000) [] }

/-- Reset with every sample word written, 1.0 in all of them. -/
def sampled : State := sampledTo 4

/-- Reset with COEF written: 256 zeros. -/
def coefed : State := { State.reset with mem := Memory.storeWords 0x3000 zeros [] }

theorem sampledTo_samples {c : Nat} (n : Fin 4) (h : n.val < c) : Samples (sampledTo c) n ones := by
  refine loadWords_ok_iff.2 ⟨List.length_replicate, fun k hk => ?_⟩
  rw [ones, List.length_replicate] at hk
  have e := loadWord_storeWords (a := 0x1000) (ws := List.replicate (256 * c) (0x3F800000 : Word)) (m := ([] : Memory))
    (k := 256 * n.val + k) (by rw [List.length_replicate]; omega)
  rw [show sampleBase n + 4 * k = 0x1000 + 4 * (256 * n.val + k) by unfold sampleBase; omega]
  unfold sampledTo
  rw [e]
  simp only [ones, List.getElem_replicate]

theorem sampled_samples (n : Fin 4) : Samples sampled n ones := sampledTo_samples n n.isLt

theorem sampledTo_unwritten {c a : Nat} (h : 0x1000 + 0x400 * c ≤ a) : (sampledTo c).mem.loadWord a = none := by
  unfold sampledTo
  rw [loadWord_storeWords_outside (by rw [List.length_replicate]; omega)]
  rfl

theorem coefed_coefs : Coefs coefed zeros := by
  have h := loadWords_storeWords 0x3000 zeros []
  rw [show zeros.length = 256 from List.length_replicate] at h
  exact h

theorem fsub_ones (φ : Word) : fsub φ 0x3F800000 0x3F800000 = 0 := by
  unfold fsub fadd
  rw [if_neg (by decide), if_neg (by decide), if_neg (by decide)]
  decide

theorem ones_range (free : Nat → Word) : prescanRange free ones = 1 := by
  have h1 : prescanMin ones = 0x3F800000 := by decide +kernel
  have h2 : prescanMax ones = 0x3F800000 := by decide +kernel
  unfold prescanRange
  rw [h1, h2, fsub_ones, truncS32, if_pos (by decide)]
  decide

theorem ones_getD {k : Nat} (h : k < 256) : ones.getD k 0 = 0x3F800000 := by
  rw [List.getD_eq_getElem?_getD, ones, List.getElem?_replicate, if_pos h]
  rfl

theorem ones_mem {w : Word} (h : w ∈ ones) : w = 0x3F800000 := List.eq_of_mem_replicate h

theorem zeros_length : coefLength 10 zeros = 2 := by decide +kernel

/-- The largest COUNT, and every operand bit of a BUILD. -/
theorem witness_DecodeOfEncodeIsTheInstruction : (Instr.build 7 true 0xFF).wellFormed = true := by decide

theorem witness_EncodeOfDecodeIsTheWord : decode 0x00FF3C08 = .ok (.build 7 true 0xFF) := by decide

theorem witness_WordDecodesIffOneRowMatches :
    ∃ r ∈ opcodeMap, (0x00FF3C08 : Word) &&& r.mask = r.pattern ∧ r.mnemonic = "BUILD" := by decide

/-- Nothing scheduled; the engine scheduled. -/
theorem witness_EngineTurnRunsTheDecodedCommand :
    (running (.ghdr 0x4C) []).status.busy = true ∧ decode (running (.ghdr 0x4C) []).engine.command = .ok (.ghdr 0x4C) ∧
      (running (.ghdr 0x4C) []).schedule = [] ∧
      { running (.ghdr 0x4C) [] with schedule := [.engine, hostRD 4] }.schedule = .engine :: [hostRD 4] := by decide

theorem witness_LegalCommandIsAccepted :
    (writing 0x0008 0x004C0408).status.busy = false ∧ legalWord 0x004C0408 = true ∧
      (writing 0x0008 0x004C0408).schedule = .host { offset := 0x0008, width := 4, kind := .write 0x004C0408 } :: [] := by
  decide

theorem witness_IllegalCommandEndsAtOnce :
    (writing 0x0008 9).status.busy = false ∧ (∀ r ∈ opcodeMap, (9 : Word) &&& r.mask ≠ r.pattern) ∧
      (writing 0x0008 9).schedule = .host { offset := 0x0008, width := 4, kind := .write 9 } :: [] := by decide

/-- CMD, the first and the last other location. -/
theorem witness_BusyWritesAreDropped (o : Offset) (h : o ∈ ([0x0008, 0x000C, 0xFFFC] : List Offset)) :
    (running .nop []).status.busy = true ∧ (o.toNat % 4 = 0 ∧ o ≠ 0x0000 ∧ o ≠ 0x0004) ∧
      { running .nop [] with schedule := [hostWR o 1] }.schedule =
        .host { offset := o, width := 4, kind := .write 1 } :: [] := by
  refine ⟨rfl, ?_, rfl⟩
  simp only [List.mem_cons, List.not_mem_nil, or_false] at h
  rcases h with rfl | rfl | rfl <;> decide

/-- A dropped write, and a write to CTRL that is no soft reset. -/
theorem witness_BusySnapshotIsKept : ∀ o ∈ ([0x1000, 0x0000] : List Offset),
    (running .nop []).status.busy = true ∧ (1 : Word).getLsbD 1 = false ∧
      ∃ t, step { running .nop [] with schedule := [.host { offset := o, width := 4, kind := .write 1 }] } = .next t := by
  intro o ho
  refine ⟨rfl, rfl, ?_⟩
  rw [List.mem_cons, List.mem_singleton] at ho
  rcases ho with rfl | rfl <;> exact ⟨_, rfl⟩

theorem witness_CtrlHoldsInterruptEnable :
    (1 : Word).getLsbD 1 = false ∧
      (writing 0 1).schedule = .host { offset := 0x0000, width := 4, kind := .write 1 } :: [] ∧
      (reading 0).schedule = .host { offset := 0x0000, width := 4, kind := .read } :: [] := by decide

theorem witness_StatusWriteClearsOnlyTheWrittenOnes :
    (writing 4 0x1E).schedule = .host { offset := 0x0004, width := 4, kind := .write 0x1E } :: [] := by decide

/-- A read, and passes of WAIT, with BUSY = 1 and with BUSY = 0. -/
theorem witness_StatusReadsAndWaitPolls :
    (reading 4).schedule = .host { offset := 0x0004, width := 4, kind := .read } :: [] ∧
      (reading 4).status.busy = false ∧ (running .nop []).status.busy = true ∧
      ∀ n ∈ [0, 1], { running .nop [] with schedule := hostWAIT n ++ [hostRD 4] }.schedule = .poll n :: [hostRD 4] := by
  decide

/-- The first and the last offset. -/
theorem witness_HostReadHasNoSideEffect (o : Offset) (h : o ∈ ([0x0000, 0xFFFC] : List Offset)) : o.toNat % 4 = 0 ∧
    (reading o).schedule = .host { offset := o, width := 4, kind := .read } :: [] := by
  refine ⟨?_, rfl⟩
  simp only [List.mem_cons, List.not_mem_nil, or_false] at h
  rcases h with rfl | rfl <;> decide

/-- Both ends of every reserved range. -/
theorem witness_ReservedOffsetsReadZeroIgnoreWrites (o : Offset)
    (h : o ∈ ([0x0014, 0x00FC, 0x011C, 0x017C, 0x0180, 0x0FFC, 0x5000, 0xFFFC] : List Offset)) :
    (o.toNat % 4 = 0 ∧
      ((0x0014 ≤ o.toNat ∧ o.toNat < 0x0100) ∨
        (0x0100 ≤ o.toNat ∧ o.toNat < 0x0180 ∧ o.toNat % 0x20 = 0x1C) ∨
        (0x0180 ≤ o.toNat ∧ o.toNat < 0x1000) ∨ 0x5000 ≤ o.toNat)) ∧
      (reading o).schedule = .host { offset := o, width := 4, kind := .read } :: [] ∧
      (writing o 1).schedule = .host { offset := o, width := 4, kind := .write 1 } :: [] := by
  refine ⟨?_, rfl, rfl⟩
  simp only [List.mem_cons, List.not_mem_nil, or_false] at h
  rcases h with rfl | rfl | rfl | rfl | rfl | rfl | rfl | rfl <;> decide

/-- Both ends of every read-only range. -/
theorem witness_ReadOnlyLocationsIgnoreWrites (o : Offset)
    (h : o ∈ ([0x000C, 0x0010, 0x0114, 0x0174, 0x2000, 0x2FFC, 0x3400, 0x37FC, 0x4000, 0x4FFC] : List Offset)) :
    (writing o 1).status.busy = false ∧ (o.toNat % 4 = 0 ∧
      (o = 0x000C ∨ o = 0x0010 ∨ (0x0100 ≤ o.toNat ∧ o.toNat < 0x0180 ∧ o.toNat % 0x20 = 0x14) ∨
        (0x2000 ≤ o.toNat ∧ o.toNat < 0x3000) ∨ (0x3400 ≤ o.toNat ∧ o.toNat < 0x3800) ∨
        (0x4000 ≤ o.toNat ∧ o.toNat < 0x5000))) ∧
      (writing o 1).schedule = .host { offset := o, width := 4, kind := .write 1 } :: [] := by
  refine ⟨rfl, ?_, rfl⟩
  simp only [List.mem_cons, List.not_mem_nil, or_false] at h
  rcases h with rfl | rfl | rfl | rfl | rfl | rfl | rfl | rfl | rfl | rfl <;> decide

/-- Every register of every slot; a read while BUSY = 1. -/
theorem witness_SlotRegistersStoreAndReadBack (n : Fin 4) (k : Nat) (h : k < 8) :
    (writing (BitVec.ofNat 16 (0x0100 + 0x20 * n.val + 4 * k)) 0).status.busy = false ∧ k < 8 ∧
      (writing (BitVec.ofNat 16 (0x0100 + 0x20 * n.val + 4 * k)) 0).schedule =
        .host { offset := BitVec.ofNat 16 (0x0100 + 0x20 * n.val + 4 * k), width := 4, kind := .write 0 } :: [] ∧
      (reading (BitVec.ofNat 16 (0x0100 + 0x20 * n.val + 4 * k))).status.busy = false ∧
      (reading (BitVec.ofNat 16 (0x0100 + 0x20 * n.val + 4 * k))).schedule =
        .host { offset := BitVec.ofNat 16 (0x0100 + 0x20 * n.val + 4 * k), width := 4, kind := .read } :: [] ∧
      { running .nop [] with schedule := [hostRD (BitVec.ofNat 16 (0x0100 + 0x20 * n.val + 4 * k))] }.schedule =
        .host { offset := BitVec.ofNat 16 (0x0100 + 0x20 * n.val + 4 * k), width := 4, kind := .read } :: [] :=
  ⟨rfl, h, rfl, rfl, rfl, rfl⟩

/-- The first and the last sample word of each slot. -/
theorem witness_SampleWriteStoresAndCounts (n : Fin 4) (k : Nat) (h : k = 0 ∨ k = 255) :
    (writing (BitVec.ofNat 16 (0x1000 + 0x400 * n.val + 4 * k)) 1).status.busy = false ∧ k < 256 ∧
      (writing (BitVec.ofNat 16 (0x1000 + 0x400 * n.val + 4 * k)) 1).schedule =
        .host { offset := BitVec.ofNat 16 (0x1000 + 0x400 * n.val + 4 * k), width := 4, kind := .write 1 } :: [] :=
  ⟨rfl, by omega, rfl⟩

/-- A write and a read at both ends of the sample RAM and of COEF; a write of the first and the last word of COEF; and a
read at both ends of the sample RAM, BUSY = 1 or 0, and of COEF and ROWBUF. -/
theorem witness_RamWordsStoreAndReadBack :
    (∀ o : Offset, o ∈ ([0x1000, 0x1FFC, 0x3000, 0x33FC] : List Offset) →
      { State.reset with schedule := [hostWR o 1, hostRD o] }.status.busy = false ∧ (o.toNat % 4 = 0 ∧
        ((0x1000 ≤ o.toNat ∧ o.toNat < 0x2000) ∨ (0x3000 ≤ o.toNat ∧ o.toNat < 0x3400))) ∧
        { State.reset with schedule := [hostWR o 1, hostRD o] }.schedule =
          .host { offset := o, width := 4, kind := .write 1 } :: .host { offset := o, width := 4, kind := .read } :: []) ∧
    (∀ k ∈ [0, 255], (writing (BitVec.ofNat 16 (0x3000 + 4 * k)) 1).status.busy = false ∧ k < 256 ∧
      (writing (BitVec.ofNat 16 (0x3000 + 4 * k)) 1).schedule =
        .host { offset := BitVec.ofNat 16 (0x3000 + 4 * k), width := 4, kind := .write 1 } :: []) ∧
    (∀ o : Offset, o ∈ ([0x1000, 0x1FFC] : List Offset) →
      Memory.loadWord (Memory.storeWords o.toNat [7] []) o.toNat = some 7 ∧ o.toNat % 4 = 0 ∧ 0x1000 ≤ o.toNat ∧
        o.toNat < 0x2000 ∧ { running .nop (Memory.storeWords o.toNat [7] []) with schedule := [hostRD o] }.schedule =
          .host { offset := o, width := 4, kind := .read } :: []) ∧
    ∀ o : Offset, o ∈ ([0x3000, 0x33FC, 0x3400, 0x37FC] : List Offset) →
      Memory.loadWord (Memory.storeWords o.toNat [7] []) o.toNat = some 7 ∧ o.toNat % 4 = 0 ∧ 0x3000 ≤ o.toNat ∧
        o.toNat < 0x3800 ∧ { reading o with mem := Memory.storeWords o.toNat [7] [] }.status.busy = false ∧
        { reading o with mem := Memory.storeWords o.toNat [7] [] }.schedule =
          .host { offset := o, width := 4, kind := .read } :: [] := by
  refine ⟨fun o h => ⟨rfl, ?_, rfl⟩, fun k h => ⟨rfl, ?_, rfl⟩, fun o h => ?_, fun o h => ?_⟩ <;>
    simp only [List.mem_cons, List.not_mem_nil, or_false] at h
  · rcases h with rfl | rfl | rfl | rfl <;> decide
  · omega
  · rcases h with rfl | rfl <;> exact ⟨by decide, by decide, by decide, by decide, rfl⟩
  · rcases h with rfl | rfl | rfl | rfl <;> exact ⟨by decide, by decide, by decide, by decide, rfl, rfl⟩

/-- Both ends of each ROM. -/
theorem witness_RomsReadAsTheTables (j base : Nat) (h : j = 0 ∨ j = 15) : j < 16 ∧
    (reading (BitVec.ofNat 16 (base + 4 * (16 * j + j)))).schedule =
      .host { offset := BitVec.ofNat 16 (base + 4 * (16 * j + j)), width := 4, kind := .read } :: [] :=
  ⟨by omega, rfl⟩

/-- The first byte of the stream and the last one of a full stream. -/
theorem witness_StreamBytesReadLittleEndian :
    ({ reading 0x2000 with bitpos := 1, mem := [(0x2000, 0x80)] }.status.busy = false ∧
      0 < streamLen { reading 0x2000 with bitpos := 1, mem := [(0x2000, 0x80)] } ∧
      Memory.load [(0x2000, 0x80)] 0x2000 = some 0x80) ∧
    4095 < 4096 ∧ 4095 < streamLen { reading 0x2FFC with bitpos := 32768, mem := [(0x2FFF, 1)] } ∧
      Memory.load [(0x2FFF, 1)] (0x2000 + 4095) = some 1 ∧ (reading 0x2FFC).schedule =
        .host { offset := BitVec.ofNat 16 (0x2000 + 4 * (4095 / 4)), width := 4, kind := .read } :: [] := by decide

/-- CMD with BUSY = 1; BITPOS and STREAMLEN of a full stream. -/
theorem witness_CmdBitposAndStreamlenRead :
    { running .nop [] with schedule := [hostRD 8] }.schedule =
        .host { offset := 0x0008, width := 4, kind := .read } :: [] ∧
      (reading 0xC).status.busy = false ∧
      (reading 0xC).schedule = .host { offset := 0x000C, width := 4, kind := .read } :: [] ∧
      { reading 0x10 with bitpos := 32768 }.status.busy = false ∧
      { reading 0x10 with bitpos := 32768 }.bitpos.toNat ≤ 32768 ∧
      { reading 0x10 with bitpos := 32768 }.schedule = .host { offset := 0x0010, width := 4, kind := .read } :: [] := by
  decide

theorem witness_NarrowAndMisalignedAccessesAreRefused :
    { State.reset with schedule := [.host ⟨1, 2, .read⟩] }.schedule = .host ⟨1, 2, .read⟩ :: [] := by decide

theorem witness_PowerOnResetsEverything :
    { running .nop [(0x1000, 1)] with schedule := [.powerOn] }.schedule = .powerOn :: [] := by decide

/-- No command running, and a running NOP, TRANSFORM and BUILD. -/
theorem witness_SoftResetResetsRegistersKeepsSamples :
    (2 : Word).getLsbD 1 = true ∧
      (writing 0 2).schedule = .host { offset := 0x0000, width := 4, kind := .write 2 } :: [] ∧
      (writing 0 2).status.busy = false ∧ decode (running .nop []).engine.command = .ok .nop ∧
      ∀ i ∈ [Instr.transform 3, Instr.build 1 false 0], (running i []).status.busy = true ∧
        decode (running i []).engine.command = .ok i := by decide

theorem witness_EveryCommandEndsByTheCompletionStep : ∃ t, exec (.ghdr 0x4C) State.reset = .next t := ⟨_, rfl⟩

theorem witness_CommandsKeepSamplesPositionAndSerial : ∃ t, exec (.ghdr 0x4C) State.reset = .next t := ⟨_, rfl⟩

theorem witness_FailingCommandsHaveNoEffect :
    ∃ t, exec .term { State.reset with bitpos := 32761 } = .next t ∧ State.reset.status.err = false ∧
      t.status.err = true := ⟨_, rfl, rfl, rfl⟩

/-- The first and the last word of each RAM, and the last BITPOS that leaves room for a header; for BUILD, nothing written,
and slot 3 unwritten after three slots that PRESCAN gives RANGE 1. -/
theorem witness_ReadingUnwrittenStateFaults :
    (∀ k ∈ [0, 255], k < 256 ∧ State.reset.mem.loadWord (0x1000 + 0x400 * 3 + 4 * k) = none ∧
      (State.reset.slot 3).range ≠ 0 ∧ State.reset.mem.loadWord (0x3000 + 4 * k) = none ∧
      { State.reset with bitpos := 32680 }.bitpos.toNat + 88 ≤ 32768 ∧
      { State.reset with bitpos := 32702 }.bitpos.toNat + 66 ≤ 32768) ∧
    (1 ≤ 4 ∧ (0 : Fin 4).val < 1 ∧ State.reset.mem.loadWord 0x1000 = none ∧ ∀ m : Fin 4, ¬ m.val < (0 : Fin 4).val) ∧
    4 ≤ 4 ∧ (3 : Fin 4).val < 4 ∧ (∀ k ∈ [0, 255], (sampledTo 3).mem.loadWord (0x1000 + 0x400 * 3 + 4 * k) = none) ∧
    ∀ (m : Fin 4) (ws : List Word) (free : Nat → Word), m.val < (3 : Fin 4).val → Samples (sampledTo 3) m ws →
      prescanRange free ws ≠ 0 := by
  refine ⟨by decide, by decide, by decide, by decide, fun k _ => sampledTo_unwritten (by omega), fun m ws free hm hs => ?_⟩
  have h : ws = ones := by
    have e := hs.symm.trans (sampledTo_samples m hm)
    injection e
  rw [h, ones_range]
  decide

theorem witness_CommandsFaultOnlyOnUnwrittenState :
    exec (.prescan 3) State.reset = .fault (.unwrittenState 0x1C00) := rfl

/-- The last BITPOS that leaves room for the sentinel. -/
theorem witness_TermCompletesWithTheSentinel : { State.reset with bitpos := 32760 }.bitpos.toNat + 8 ≤ 32768 := by decide

/-- The first BITPOS without room, for each command. -/
theorem witness_AppendsThatDoNotFitOverflow :
    32768 < { State.reset with bitpos := 32761 }.bitpos.toNat + 8 ∧
      32768 < { State.reset with bitpos := 32703 }.bitpos.toNat + (if false then 88 else 66) ∧
      32768 < { State.reset with bitpos := 32681 }.bitpos.toNat + (if true then 88 else 66) ∧
      Coefs { coefed with bitpos := 32767 } zeros ∧
      32768 < { coefed with bitpos := 32767 }.bitpos.toNat +
        coefLength (((coefed.slot 0).qwb.extractLsb' 0 4).toNat + 2) zeros := by
  refine ⟨by decide, by decide, by decide, coefed_coefs, ?_⟩
  rw [show ((coefed.slot 0).qwb.extractLsb' 0 4).toNat + 2 = 10 from rfl, zeros_length]
  decide

theorem witness_PrescanCompletesWithMinimumAndRange :
    Samples sampled 3 ones ∧ IsScan flt ones (fun _ => 0x3F800000) ∧ IsScan fgt ones (fun _ => 0x3F800000) := by
  refine ⟨sampled_samples 3, ⟨(ones_getD (by omega)).symm, fun k hk => ?_⟩, (ones_getD (by omega)).symm, fun k hk => ?_⟩ <;>
    rw [ones_getD (by omega), ite_self]

theorem witness_PrescanKeepsTheFirstLeastSample : Samples sampled 0 ones ∧ ∀ w ∈ ones, isNaN w = false :=
  ⟨sampled_samples 0, fun w h => by rw [ones_mem h]; decide⟩

theorem witness_HostDutyGivesPositiveRange : Samples sampled 0 ones ∧ HostDuty ones := by
  refine ⟨sampled_samples 0, fun w h => by rw [ones_mem h]; decide, fun v hv w hw => ?_⟩
  rw [ones_mem hv, ones_mem hw]
  decide

theorem witness_TransformCompletesWithTheTwoPasses : Samples sampled 3 ones ∧ (sampled.slot 3).range ≠ 0 :=
  ⟨sampled_samples 3, by rw [show (sampled.slot 3).range = 1 from rfl]; decide⟩

theorem witness_TransformWithRangeZeroIsBadRange :
    ((State.reset.updateSlot 3 fun r => { r with range := 0 }).slot 3).range = 0 := by decide

/-- Two slots of two different states. -/
theorem witness_TransformDependsOnlyOnItsOperands :
    Samples sampled 0 ones ∧ Samples { sampled with bitpos := 7, ie := true } 3 ones ∧
      (sampled.slot 0).qwb.extractLsb' 4 4 = (sampled.slot 3).qwb.extractLsb' 4 4 ∧
      (sampled.slot 0).dcoff = (sampled.slot 3).dcoff ∧ (sampled.slot 0).range = (sampled.slot 3).range ∧
      (sampled.slot 0).range ≠ 0 :=
  ⟨sampled_samples 0, sampled_samples 3, rfl, rfl, rfl, by rw [show (sampled.slot 0).range = 1 from rfl]; decide⟩

/-- The last BITPOS that leaves room, for both forms of the header. -/
theorem witness_HdrencCompletesWithTheHeader :
    Coefs { coefed with bitpos := 32680 } zeros ∧ (32680 : Word).toNat + (if true then 88 else 66) ≤ 32768 ∧
      (32702 : Word).toNat + (if false then 88 else 66) ≤ 32768 := ⟨coefed_coefs, by decide, by decide⟩

/-- wbits at minW + 1 and at minW + 6, and a seen bit at each end of the scan. -/
theorem witness_WbitsIsTheHighestSeenBitPlusOne :
    5 = (((0x88 : BitVec 8).extractLsb' 0 4).toNat + 2) / 2 ∧ 6 = chooseWidth .doc 0x88 [32, 2048] ∧
      7 = chooseWidth .doc 0x88 [64] ∧ (absU32 64).getLsbD 6 = true ∧ 11 = chooseWidth .doc 0x88 [1024] ∧
      (absU32 1024).getLsbD 10 = true := by decide

/-- The last BITPOS that leaves room. -/
theorem witness_CoefencCompletesWithTheTokens : Coefs { coefed with bitpos := 32766 } zeros ∧
    { coefed with bitpos := 32766 }.bitpos.toNat + coefLength (((coefed.slot 0).qwb.extractLsb' 0 4).toNat + 2) zeros ≤
      32768 := by
  refine ⟨coefed_coefs, ?_⟩
  rw [show ((coefed.slot 0).qwb.extractLsb' 0 4).toNat + 2 = 10 from rfl, zeros_length]
  decide

/-- One list for each kind of token, at the largest w. -/
theorem witness_TokensFollowTheRules :
    17 ≤ 17 ∧ (∀ x ∈ (0 : Word) :: [0], x = 0) ∧ (∃ x ∈ ([1] : List Word), x ≠ 0) ∧ 0 < (0x7FFFFFFF : Word).toInt ∧
      (0x80000000 : Word).toInt < 0 :=
  ⟨by decide, by simp, ⟨1, by simp⟩, by decide, by decide⟩

/-- A last nonzero coefficient followed by zeros, one that is last of all, and 256 coefficients. -/
theorem witness_CoefLengthCountsTheTokenBits :
    (1 < ([0, 5, 0, 0] : List Word).length ∧ ([0, 5, 0, 0] : List Word).getD 1 0 ≠ 0 ∧
      ∀ k, k < ([0, 5, 0, 0] : List Word).length → 1 < k → ([0, 5, 0, 0] : List Word).getD k 0 = 0) ∧
      (1 < ([0, 5] : List Word).length ∧ ([0, 5] : List Word).getD 1 0 ≠ 0) ∧ ones.length = 256 :=
  ⟨by decide, by decide, by rw [ones, List.length_replicate]⟩

/-- Two different coefficients that are both clipped to 1 << w. -/
theorem witness_TokensSplitBackUniquely :
    2 ≤ 17 ∧ ([5] : List Word).length = ([9] : List Word).length ∧
      tokens 2 [5] ++ [true] = tokens 2 [9] ++ [true] := by decide

/-- The counts on both sides of the legal ones. -/
theorem witness_BuildWithBadCountHasNoEffect : (0 < 1 ∨ 4 < 0) ∧ (5 < 1 ∨ 4 < 5) := by decide

/-- One patch and four. -/
theorem witness_BuildCompletesWithOneMessage : ∀ count ∈ [1, 4], 1 ≤ count ∧ count ≤ 4 ∧
    ∀ n : Fin 4, n.val < count → Samples sampled n ones ∧ ∀ free, prescanRange free ones ≠ 0 := by
  intro count h
  refine ⟨by simp at h; omega, by simp at h; omega, fun n _ => ⟨sampled_samples n, fun free => ?_⟩⟩
  rw [ones_range]
  decide

theorem witness_BuildOnWrittenSamplesAlwaysEnds : ∀ count ∈ [1, 4], 1 ≤ count ∧ count ≤ 4 ∧
    ∀ n : Fin 4, n.val < count → ∃ ws, Samples sampled n ws := by
  intro count h
  exact ⟨by simp at h; omega, by simp at h; omega, fun n _ => ⟨ones, sampled_samples n⟩⟩

theorem witness_BuildEqualsTheStageCommands : ∀ count ∈ [1, 4], 1 ≤ count ∧ count ≤ 4 ∧
    ∀ n : Fin 4, n.val < count → Samples sampled n ones ∧ ∀ free, prescanRange free ones ≠ 0 :=
  witness_BuildCompletesWithOneMessage

/-- A full stream byte, a running command, and its step. -/
theorem witness_EveryStepKeepsTheInvariant :
    ∃ s t : State, Inv s ∧ s.status.busy = true ∧ s.bitpos = 3 ∧ step s = .next t := by
  refine ⟨{ running .term [(0x2000, 0xE0)] with bitpos := 3 }, _, ?_, rfl, rfl, rfl⟩
  refine ⟨by decide, by decide, by decide, ?_, by decide, by decide, by decide, by decide, by decide⟩
  intro i hi
  have h1 : i < 1 := hi
  have h0 : i = 0 := by omega
  subst h0
  rfl

/-- A tie, the least value that rounds to infinity, finite operands (a sum and a difference of zero, a divisor 0 and a
divisor that is not), and one infinity. -/
theorem witness_OperationsRoundToNearestEven :
    (0 < 2 ∧ isFinite (f32Make true (roundMag 1 2)) = true ∧
      isFinite (f32Make false (roundMag ((2 ^ 25 - 1) <<< 252) 1)) = false ∧
      Representable 1 ∧ (1 : Nat) ≠ f32Units (f32Make true (roundMag 1 2))) ∧
    (isFinite 0x80000000 = true ∧ isFinite 0x3F800000 = true ∧ isFinite 0xBF800000 = true ∧
      f32Value 0x3F800000 + f32Value 0xBF800000 = 0 ∧ f32Value 0x80000000 - f32Value 0x00000000 = 0 ∧
      f32Units 0xBF800000 ≠ 0 ∧ f32Units 0x80000000 = 0) ∧
    isInf 0xFF800000 = true :=
  ⟨⟨by decide, by decide, by decide, ⟨1, by decide, by decide⟩, by decide⟩, by decide, by decide⟩

theorem witness_InvalidOperationsGiveNaN :
    isNaN 0x7F800001 = true ∧ isInf 0x7F800000 = true ∧ isInf 0xFF800000 = true ∧
      f32Neg 0x7F800000 ≠ f32Neg 0xFF800000 ∧ f32Units 0x80000000 = 0 := by decide

theorem witness_ComparisonsAreOrdered : isNaN 0x7F800001 = true ∧ isNaN 0xFF800000 = false ∧ isNaN 0 = false := by decide

/-- The least and the greatest binary32 whose truncation is an s32. -/
theorem witness_TruncationIsTowardZero : truncFits 0xCF000000 = true ∧ truncFits 0x4EFFFFFF = true := by decide

/-- The last row and column of each table. -/
theorem witness_tables : 15 < 16 ∧ 255 < 256 := by decide

end Sys2Proof.Machine
end

section
/-! ### The host's turn on the RAMs (R53 to R55, R81, R99) -/

namespace Sys2Proof.Machine

/-! #### One aligned access is one step -/

theorem step_of_host_read {s : State} {o : Offset} {rest : List Turn} (ho : o.toNat % 4 = 0)
    (h : s.schedule = .host { offset := o, width := 4, kind := .read } :: rest) :
    step s = .next (hostRead (locate o) { s with schedule := rest }) := by
  unfold step hostAccess
  simp [h, ho]

theorem step_of_host_write {s : State} {o : Offset} {v : Word} {rest : List Turn} (ho : o.toNat % 4 = 0)
    (h : s.schedule = .host { offset := o, width := 4, kind := .write v } :: rest) :
    step s = .next (hostWrite v (locate o) { s with schedule := rest }) := by
  unfold step hostAccess
  simp [h, ho]

theorem readValue_of_idle {s : State} (l : Loc) (h : s.status.busy = false) : readValue s l = locValue s l := by
  unfold readValue
  simp [h]

/-- BUSY does not matter at a location that no command writes (R99). -/
theorem readValue_of_not_commandWrites (s : State) {l : Loc} (h : l.commandWrites = false) :
    readValue s l = locValue s l := by
  unfold readValue
  simp [h]

/-- While BUSY = 0 a write to any location but CTRL, STATUS and CMD is accepted. -/
theorem hostWrite_of_idle {s : State} (v : Word) {l : Loc} (h : s.status.busy = false) (hctrl : l ≠ .ctrl)
    (hstatus : l ≠ .status) (hcmd : l ≠ .cmd) : hostWrite v l s = writeLoc v l s := by
  unfold hostWrite
  split
  case h_1 => exact absurd rfl hctrl
  case h_2 => exact absurd rfl hstatus
  case h_3 => exact absurd rfl hcmd
  case h_4 => rw [if_neg (by simp [h])]

/-! #### The location of a RAM offset -/

section Locate
variable {o : Offset}

theorem exists_locate_sample (ho : o.toNat % 4 = 0) (hlo : 0x1000 ≤ o.toNat) (hhi : o.toNat < 0x2000) :
    ∃ n k, locate o = .sample n k ∧ sampleBase n + 4 * k = o.toNat := by
  let n : Fin 4 := ⟨(o.toNat - 0x1000) / 0x400, by omega⟩
  have haddr : 0x1000 + 0x400 * n.val + 4 * (o.toNat % 0x400 / 4) = o.toNat := by
    simp only [n]
    omega
  refine ⟨n, o.toNat % 0x400 / 4, ?_, haddr⟩
  rw [← locate_sample n (by omega), haddr, BitVec.ofNat_toNat, BitVec.setWidth_eq]

theorem exists_locate_coef (ho : o.toNat % 4 = 0) (hlo : 0x3000 ≤ o.toNat) (hhi : o.toNat < 0x3400) :
    ∃ k, locate o = .coef k ∧ coefBase + 4 * k = o.toNat := by
  have haddr : 0x3000 + 4 * ((o.toNat - 0x3000) / 4) = o.toNat := by omega
  refine ⟨(o.toNat - 0x3000) / 4, ?_, haddr⟩
  rw [← locate_coef (by omega), haddr, BitVec.ofNat_toNat, BitVec.setWidth_eq]

theorem exists_locate_rowbuf (ho : o.toNat % 4 = 0) (hlo : 0x3400 ≤ o.toNat) (hhi : o.toNat < 0x3800) :
    ∃ k, locate o = .rowbuf k ∧ rowbufBase + 4 * k = o.toNat := by
  have haddr : 0x3400 + 4 * ((o.toNat - 0x3400) / 4) = o.toNat := by omega
  refine ⟨(o.toNat - 0x3400) / 4, ?_, haddr⟩
  rw [← locate_rowbuf (by omega), haddr, BitVec.ofNat_toNat, BitVec.setWidth_eq]

/-- A RAM word is read from its own offset: the sample RAM at any time, COEF and ROWBUF while BUSY = 0 (R53 to R55, R99). -/
theorem readValue_of_ram {s : State} (ho : o.toNat % 4 = 0)
    (h : (0x1000 ≤ o.toNat ∧ o.toNat < 0x2000) ∨
      (s.status.busy = false ∧ 0x3000 ≤ o.toNat ∧ o.toNat < 0x3800)) :
    readValue s (locate o) = ramWord s o.toNat := by
  rcases h with ⟨hlo, hhi⟩ | ⟨hidle, hlo, hhi⟩
  · obtain ⟨n, k, hloc, haddr⟩ := exists_locate_sample ho hlo hhi
    rw [hloc, readValue_of_not_commandWrites s rfl, ← haddr]
    rfl
  · rw [readValue_of_idle _ hidle]
    rcases Nat.lt_or_ge o.toNat 0x3400 with hc | hr
    · obtain ⟨k, hloc, haddr⟩ := exists_locate_coef ho hlo hc
      rw [hloc, ← haddr]
      rfl
    · obtain ⟨k, hloc, haddr⟩ := exists_locate_rowbuf ho hr hhi
      rw [hloc, ← haddr]
      rfl

/-- An accepted write to the sample RAM or to COEF stores its word at the offset, and leaves STATUS and the turns to come. -/
theorem hostWrite_of_ram {s : State} (v : Word) (hidle : s.status.busy = false) (ho : o.toNat % 4 = 0)
    (h : (0x1000 ≤ o.toNat ∧ o.toNat < 0x2000) ∨ (0x3000 ≤ o.toNat ∧ o.toNat < 0x3400)) :
    (hostWrite v (locate o) s).mem = s.mem.storeWords o.toNat [v] ∧
      (hostWrite v (locate o) s).status = s.status ∧ (hostWrite v (locate o) s).schedule = s.schedule := by
  rcases h with ⟨hlo, hhi⟩ | ⟨hlo, hhi⟩
  · obtain ⟨n, k, hloc, haddr⟩ := exists_locate_sample ho hlo hhi
    rw [hloc, hostWrite_of_idle v hidle (by simp) (by simp) (by simp), ← haddr]
    exact ⟨rfl, rfl, rfl⟩
  · obtain ⟨k, hloc, haddr⟩ := exists_locate_coef ho hlo hhi
    rw [hloc, hostWrite_of_idle v hidle (by simp) (by simp) (by simp), ← haddr]
    exact ⟨rfl, rfl, rfl⟩

end Locate

theorem ramWord_of_written {s : State} {a : Nat} {v : Word} (h : s.mem.loadWord a = some v) : ramWord s a = v := by
  unfold ramWord
  rw [h, Option.getD_some]

theorem loadWord_storeWords_singleton (a : Nat) (v : Word) (m : Memory) : (m.storeWords a [v]).loadWord a = some v :=
  loadWord_storeWords (ws := [v]) (k := 0) Nat.one_pos

/-- The step of a host read of a written RAM word gives that word (R53 to R55, R99). -/
theorem step_reads_written_ram {s : State} {o : Offset} {v : Word} {rest : List Turn} (ho : o.toNat % 4 = 0)
    (hram : (0x1000 ≤ o.toNat ∧ o.toNat < 0x2000) ∨
      (s.status.busy = false ∧ 0x3000 ≤ o.toNat ∧ o.toNat < 0x3800))
    (hv : s.mem.loadWord o.toNat = some v)
    (h : s.schedule = .host { offset := o, width := 4, kind := .read } :: rest) :
    ∃ t, step s = .next t ∧ t.rdata = v := by
  refine ⟨_, step_of_host_read ho h, ?_⟩
  rw [hostRead_rdata]
  exact (readValue_of_ram (s := { s with schedule := rest }) ho hram).trans (ramWord_of_written hv)

/-- The step of an accepted host write to word `k` of COEF: the word is stored there and only there (R54). -/
theorem step_writes_coef {s : State} {k : Nat} {v : Word} {rest : List Turn} (hidle : s.status.busy = false)
    (hk : k < 256)
    (h : s.schedule = .host { offset := BitVec.ofNat 16 (0x3000 + 4 * k), width := 4, kind := .write v } :: rest) :
    step s = .next { s with schedule := rest, mem := s.mem.storeWords (0x3000 + 4 * k) [v] } := by
  rw [step_of_host_write (by rw [offset_toNat (by omega)]; omega) h, locate_coef hk,
    hostWrite_of_idle (s := { s with schedule := rest }) v hidle (by simp) (by simp) (by simp)]
  rfl

/-- Settles O19: the write's step stores the word at its offset, and the read's step returns the word stored there. -/
theorem ramWordsStoreAndReadBack : Obligations.RamWordsStoreAndReadBack := by
  unfold Obligations.RamWordsStoreAndReadBack
  refine ⟨fun s o v rest hidle ho hram h => ?_, fun s k v rest hidle hk h => ?_, fun s o v rest ho hram hv h => ?_⟩
  · obtain ⟨hmem, hstatus, hsched⟩ := hostWrite_of_ram
      (s := { s with schedule := .host { offset := o, width := 4, kind := .read } :: rest }) v hidle ho hram
    have hread : (0x1000 ≤ o.toNat ∧ o.toNat < 0x2000) ∨ (s.status.busy = false ∧ 0x3000 ≤ o.toNat ∧ o.toNat < 0x3800) :=
      hram.imp_right fun ⟨hlo, hhi⟩ => ⟨hidle, hlo, by omega⟩
    obtain ⟨u, hu, hdata⟩ := step_reads_written_ram (v := v) ho (by rwa [hstatus])
      (by rw [hmem]; exact loadWord_storeWords_singleton _ _ _) hsched
    exact ⟨_, u, step_of_host_write ho h, hu, hdata⟩
  · refine ⟨_, step_writes_coef hidle hk h, rfl, loadWord_storeWords_singleton _ _ _, fun a ha => ?_⟩
    exact load_storeWords_outside ha
  · exact step_reads_written_ram ho hram hv h

end Sys2Proof.Machine
end

section
/-! ### Binary32: the fields of an encoding, NaNs, infinities, comparison and truncation (R10, R12, R14) -/

namespace Sys2Proof.Machine

theorem f32Exp_eq_extract (w : Word) : f32Exp w = (w.extractLsb' 23 8).toNat := by
  unfold f32Exp
  rw [BitVec.extractLsb'_toNat, Nat.shiftRight_eq_div_pow]

theorem f32Frac_eq_extract (w : Word) : f32Frac w = (w.extractLsb' 0 23).toNat := by
  unfold f32Frac
  rw [BitVec.extractLsb'_toNat, Nat.shiftRight_zero]

theorem isNaN_iff {w : Word} : isNaN w = true ↔ f32Exp w = 255 ∧ f32Frac w ≠ 0 := by
  unfold isNaN
  simp

theorem isInf_iff {w : Word} : isInf w = true ↔ f32Exp w = 255 ∧ f32Frac w = 0 := by
  unfold isInf
  simp

theorem isFinite_iff {w : Word} : isFinite w = true ↔ f32Exp w ≠ 255 := by
  unfold isFinite
  simp

theorem isNaN_false_of_isInf {w : Word} (h : isInf w = true) : isNaN w = false := by
  rw [Bool.eq_false_iff, ne_eq, isNaN_iff]
  exact fun hn => hn.2 (isInf_iff.1 h).2

/-- The NaN of an operation is a NaN, whatever the free word (R10, log 2). -/
theorem isNaN_nanOf (free : Word) : isNaN (nanOf free) = true := by
  rw [isNaN_iff, f32Exp_eq_extract, f32Frac_eq_extract]
  unfold nanOf
  split
  next h =>
    rw [f32Frac_eq_extract] at h
    have h0 : free.extractLsb' 0 23 = 0#23 := BitVec.eq_of_toNat_eq h
    rw [BitVec.extractLsb'_or, BitVec.extractLsb'_or, h0,
      show (0x7FC00000 : Word).extractLsb' 23 8 = BitVec.allOnes 8 by decide, BitVec.or_allOnes]
    decide
  next h =>
    rw [f32Frac_eq_extract] at h
    rw [BitVec.extractLsb'_or, BitVec.extractLsb'_or,
      show (0x7F800000 : Word).extractLsb' 23 8 = BitVec.allOnes 8 by decide, BitVec.or_allOnes,
      show (0x7F800000 : Word).extractLsb' 0 23 = 0#23 by decide, BitVec.or_zero]
    exact ⟨by decide, h⟩

/-! #### The operand with its sign inverted -/

theorem f32Exp_fneg (a : Word) : f32Exp (fneg a) = f32Exp a := by
  unfold fneg
  rw [f32Exp_eq_extract, f32Exp_eq_extract, BitVec.extractLsb'_xor,
    show (0x80000000 : Word).extractLsb' 23 8 = 0#8 by decide, BitVec.xor_zero]

theorem f32Frac_fneg (a : Word) : f32Frac (fneg a) = f32Frac a := by
  unfold fneg
  rw [f32Frac_eq_extract, f32Frac_eq_extract, BitVec.extractLsb'_xor,
    show (0x80000000 : Word).extractLsb' 0 23 = 0#23 by decide, BitVec.xor_zero]

@[simp] theorem f32Neg_fneg (a : Word) : f32Neg (fneg a) = !f32Neg a := by
  unfold fneg f32Neg
  rw [BitVec.getLsbD_xor, show (0x80000000 : Word).getLsbD 31 = true by decide, Bool.xor_true]

@[simp] theorem isNaN_fneg (a : Word) : isNaN (fneg a) = isNaN a := by
  unfold isNaN
  rw [f32Exp_fneg, f32Frac_fneg]

@[simp] theorem isInf_fneg (a : Word) : isInf (fneg a) = isInf a := by
  unfold isInf
  rw [f32Exp_fneg, f32Frac_fneg]

@[simp] theorem isFinite_fneg (a : Word) : isFinite (fneg a) = isFinite a := by
  unfold isFinite
  rw [f32Exp_fneg]

@[simp] theorem f32Units_fneg (a : Word) : f32Units (fneg a) = f32Units a := by
  unfold f32Units
  rw [f32Exp_fneg, f32Frac_fneg]

@[simp] theorem f32Value_fneg (a : Word) : f32Value (fneg a) = -f32Value a := by
  unfold f32Value
  rw [f32Neg_fneg, f32Units_fneg]
  cases f32Neg a <;> simp

/-! #### Infinities -/

theorem f32Units_ne_zero_of_isInf {w : Word} (h : isInf w = true) : f32Units w ≠ 0 := by
  obtain ⟨hexp, hfrac⟩ := isInf_iff.1 h
  unfold f32Units
  rw [hexp, hfrac]
  decide

theorem isInf_false_of_units_zero {w : Word} (h : f32Units w = 0) : isInf w = false := by
  rw [Bool.eq_false_iff]
  exact fun hi => f32Units_ne_zero_of_isInf hi h

theorem f32Make_infMag (neg : Bool) : f32Make neg f32InfMag = infinity neg := by cases neg <;> rfl

theorem f32Make_zero (neg : Bool) : f32Make neg 0 = if neg then 0x80000000 else 0 := by cases neg <;> rfl

/-- A word is the sign bit and the two fields. -/
theorem toNat_eq_fields (w : Word) :
    w.toNat = (if f32Neg w then 0x80000000 else 0) + f32Exp w * 0x800000 + f32Frac w := by
  have hlt := w.isLt
  have hneg : f32Neg w = decide (w.toNat / 0x80000000 % 2 = 1) := by
    unfold f32Neg
    rw [← BitVec.testBit_toNat, Nat.testBit_eq_decide_div_mod_eq]
  unfold f32Exp f32Frac
  rw [hneg]
  by_cases h : w.toNat / 0x80000000 % 2 = 1
  · rw [decide_eq_true h, if_pos rfl]; omega
  · rw [decide_eq_false h, if_neg Bool.false_ne_true]; omega

theorem eq_infinity_of_isInf {w : Word} (h : isInf w = true) : w = infinity (f32Neg w) := by
  obtain ⟨hexp, hfrac⟩ := isInf_iff.1 h
  apply BitVec.eq_of_toNat_eq
  rw [toNat_eq_fields, hexp, hfrac]
  cases f32Neg w <;> rfl

theorem fneg_infinity (neg : Bool) : fneg (infinity neg) = infinity (!neg) := by cases neg <;> rfl

/-! #### What each operation gives for special operands -/

section Special
variable {φ a b : Word}

theorem fadd_of_nan (h : isNaN a = true ∨ isNaN b = true) : fadd φ a b = nanOf φ := by
  unfold fadd
  rw [if_pos (by simpa using h)]

theorem fsub_of_nan (h : isNaN a = true ∨ isNaN b = true) : fsub φ a b = nanOf φ :=
  fadd_of_nan (by rwa [isNaN_fneg])

theorem fmul_of_nan (h : isNaN a = true ∨ isNaN b = true) : fmul φ a b = nanOf φ := by
  unfold fmul
  rw [if_pos (by simpa using h)]

theorem fdiv_of_nan (h : isNaN a = true ∨ isNaN b = true) : fdiv φ a b = nanOf φ := by
  unfold fdiv
  rw [if_pos (by simpa using h)]

/-- Infinities of opposite sign cancel (R10). -/
theorem fadd_of_inf_of_inf (ha : isInf a = true) (hb : isInf b = true) (h : f32Neg a ≠ f32Neg b) :
    fadd φ a b = nanOf φ := by
  unfold fadd
  simp [isNaN_false_of_isInf ha, isNaN_false_of_isInf hb, ha, hb, h]

theorem fdiv_of_inf_of_inf (ha : isInf a = true) (hb : isInf b = true) : fdiv φ a b = nanOf φ := by
  unfold fdiv
  simp [isNaN_false_of_isInf ha, isNaN_false_of_isInf hb, ha, hb]

/-- Zero times infinity, in this order (R10). -/
theorem fmul_of_zero_of_inf (ha : f32Units a = 0) (hb : isInf b = true) : fmul φ a b = nanOf φ := by
  unfold fmul
  simp [isInf_false_of_units_zero ha, ha, hb]

theorem fmul_of_inf_of_zero (ha : isInf a = true) (hb : f32Units b = 0) : fmul φ a b = nanOf φ := by
  unfold fmul
  simp [ha, hb]

theorem fdiv_of_zero_of_zero (ha : f32Units a = 0) (hb : f32Units b = 0) : fdiv φ a b = nanOf φ := by
  unfold fdiv
  simp [isInf_false_of_units_zero ha, isInf_false_of_units_zero hb, ha, hb]

/-- A finite nonzero value over a zero (R10, log 27). -/
theorem fdiv_of_finite_of_zero (ha : isFinite a = true) (hb : f32Units b = 0) (hbf : isFinite b = true)
    (hz : f32Units a ≠ 0) : fdiv φ a b = infinity (f32Neg a != f32Neg b) := by
  unfold fdiv
  simp [not_special_of_finite ha, not_special_of_finite hbf, hb, hz, f32Make_infMag]

theorem fadd_of_inf_of_finite (ha : isInf a = true) (hb : isFinite b = true) : fadd φ a b = a := by
  unfold fadd
  simp [isNaN_false_of_isInf ha, not_special_of_finite hb, ha]

theorem fadd_of_finite_of_inf (ha : isFinite a = true) (hb : isInf b = true) : fadd φ a b = b := by
  unfold fadd
  simp [isNaN_false_of_isInf hb, not_special_of_finite ha, hb]

theorem fsub_of_inf_of_finite (ha : isInf a = true) (hb : isFinite b = true) : fsub φ a b = a :=
  fadd_of_inf_of_finite ha (by rwa [isFinite_fneg])

theorem fsub_of_finite_of_inf (ha : isFinite a = true) (hb : isInf b = true) :
    fsub φ a b = infinity (!f32Neg b) := by
  unfold fsub
  rw [fadd_of_finite_of_inf ha (by rwa [isInf_fneg]), ← fneg_infinity, ← eq_infinity_of_isInf hb]

theorem fmul_of_inf_of_finite (ha : isInf a = true) (hb : isFinite b = true) (hz : f32Units b ≠ 0) :
    fmul φ a b = infinity (f32Neg a != f32Neg b) := by
  unfold fmul
  simp [isNaN_false_of_isInf ha, not_special_of_finite hb, ha, hz, f32Make_infMag]

theorem fmul_of_finite_of_inf (ha : isFinite a = true) (hz : f32Units a ≠ 0) (hb : isInf b = true) :
    fmul φ a b = infinity (f32Neg a != f32Neg b) := by
  unfold fmul
  simp [isNaN_false_of_isInf hb, not_special_of_finite ha, hb, hz, f32Make_infMag]

theorem fdiv_of_inf_of_finite (ha : isInf a = true) (hb : isFinite b = true) :
    fdiv φ a b = infinity (f32Neg a != f32Neg b) := by
  unfold fdiv
  simp [isNaN_false_of_isInf ha, not_special_of_finite hb, ha, f32Make_infMag]

theorem fdiv_of_finite_of_inf (ha : isFinite a = true) (hb : isInf b = true) :
    fdiv φ a b = if f32Neg a != f32Neg b then 0x80000000 else 0 := by
  unfold fdiv
  simp only [isNaN_false_of_isInf hb, not_special_of_finite ha, hb, Bool.or_self, Bool.false_eq_true, if_false, if_true,
    f32Make_zero]

end Special

/-- Settles O55: each invalid case by the lemma about its operation; `nanOf` is a NaN for every free word. -/
theorem invalidOperationsGiveNaN : Obligations.InvalidOperationsGiveNaN := by
  unfold Obligations.InvalidOperationsGiveNaN
  intro φ a b
  have hnan := isNaN_nanOf φ
  refine ⟨fun h => ?_, fun ha hb => ⟨?_, fun hne => ?_, fun heq => ?_⟩, fun ha hb => ⟨?_, ?_⟩, fun ha hb => ?_⟩
  · rw [fadd_of_nan h, fsub_of_nan h, fmul_of_nan h, fdiv_of_nan h]
    exact ⟨hnan, hnan, hnan, hnan⟩
  · rwa [fdiv_of_inf_of_inf ha hb]
  · rwa [fadd_of_inf_of_inf ha hb hne]
  · unfold fsub
    rwa [fadd_of_inf_of_inf ha (by rwa [isInf_fneg]) (by simp [heq])]
  · rwa [fmul_of_zero_of_inf ha hb]
  · rwa [fmul_of_inf_of_zero hb ha]
  · rwa [fdiv_of_zero_of_zero ha hb]

/-! #### Comparison -/

theorem flt_iff {a b : Word} : flt a b = true ↔ isNaN a = false ∧ isNaN b = false ∧ f32Value a < f32Value b := by
  unfold flt
  simp [and_assoc]

theorem flt_of_nan {a b : Word} (h : isNaN a = true ∨ isNaN b = true) : flt a b = false := by
  rw [Bool.eq_false_iff, ne_eq, flt_iff]
  rintro ⟨ha, hb, -⟩
  simp [ha, hb] at h

theorem flt_iff_of_not_nan {a b : Word} (ha : isNaN a = false) (hb : isNaN b = false) :
    flt a b = true ↔ f32Value a < f32Value b := by
  rw [flt_iff]
  simp [ha, hb]

/-- Settles O56: `flt` is the order of the values once no operand is a NaN, and `fgt` is `flt` with its operands swapped. -/
theorem comparisonsAreOrdered : Obligations.ComparisonsAreOrdered := by
  unfold Obligations.ComparisonsAreOrdered fgt
  refine ⟨fun a b h => ⟨flt_of_nan h, flt_of_nan h.symm⟩, ?_, fun a b ha hb => ⟨?_, ?_⟩⟩
  · decide
  · exact flt_iff_of_not_nan ha hb
  · exact flt_iff_of_not_nan hb ha

/-! #### Truncation -/

theorem truncInt_natAbs (w : Word) : (truncInt w).natAbs = f32Units w >>> 149 := by
  unfold truncInt
  split
  · rw [Int.natAbs_neg, Int.natAbs_natCast]
  · rw [Int.natAbs_natCast]

theorem truncInt_nonneg {w : Word} (h : f32Neg w = false) : 0 ≤ truncInt w := by
  unfold truncInt
  rw [h]
  exact Int.natCast_nonneg _

theorem truncInt_nonpos {w : Word} (h : f32Neg w = true) : truncInt w ≤ 0 := by
  unfold truncInt
  rw [h]
  exact Int.neg_nonpos_of_nonneg (Int.natCast_nonneg _)

theorem truncFits_iff {w : Word} :
    truncFits w = true ↔ isFinite w = true ∧ -0x80000000 ≤ truncInt w ∧ truncInt w < 0x80000000 := by
  unfold truncFits
  simp [and_assoc]

theorem truncS32_toInt {φ w : Word} (h : truncFits w = true) : (truncS32 φ w).toInt = truncInt w := by
  obtain ⟨-, hlo, hhi⟩ := truncFits_iff.1 h
  rw [truncS32_of_fits h]
  exact BitVec.toInt_ofInt_eq_self (by decide) (by simpa using hlo) (by simpa using hhi)

/-- Settles O57: the result is `truncInt`, whose magnitude is the units shifted right by 149. -/
theorem truncationIsTowardZero : Obligations.TruncationIsTowardZero := by
  unfold Obligations.TruncationIsTowardZero
  intro φ w hfits
  rw [truncS32_toInt hfits, truncInt_natAbs, Nat.shiftLeft_eq, Nat.shiftLeft_eq, Nat.shiftRight_eq_div_pow]
  have hlt := Nat.lt_div_mul_add (a := f32Units w) (Nat.two_pow_pos 149)
  rw [← Nat.succ_mul] at hlt
  exact ⟨Nat.div_mul_le_self _ _, hlt, truncInt_nonneg, truncInt_nonpos⟩

end Sys2Proof.Machine
end

section
/-! ### Binary32: rounding to nearest, ties to even (R10) -/

namespace Sys2Proof.Machine

/-! #### Encodings and the units they stand for -/

theorem isFinite_f32Make {neg : Bool} {e : Nat} (h : e ≤ f32InfMag) :
    isFinite (f32Make neg e) = true ↔ e < f32InfMag := by
  rw [isFinite_iff, (f32Make_fields h).2.1]
  unfold f32InfMag at *
  omega

theorem f32Make_bit_zero {neg : Bool} {e : Nat} (h : e ≤ f32InfMag) (heven : e % 2 = 0) :
    (f32Make neg e).getLsbD 0 = false := by
  rw [← BitVec.testBit_toNat, f32Make_toNat h, Nat.testBit_zero, decide_eq_false_iff_not]
  split <;> omega

/-- The encoding `k * 2^23 + m` stands for `m * 2^k` units, subnormals (`k = 0`) and the carry into the next exponent
(`m = 2^24`) included. -/
theorem f32Units_f32Make {neg : Bool} {k m : Nat} (hle : k * 0x800000 + m ≤ f32InfMag) (hm : m ≤ 0x1000000)
    (hk : k = 0 ∨ 0x800000 ≤ m) : f32Units (f32Make neg (k * 0x800000 + m)) = m * 2 ^ k := by
  obtain ⟨-, hexp, hfrac⟩ := f32Make_fields (neg := neg) hle
  unfold f32Units
  rw [hexp, hfrac, Nat.shiftLeft_eq]
  rcases Nat.lt_or_ge m 0x800000 with hsub | hnorm
  · have hk0 : k = 0 := by omega
    subst hk0
    rw [if_pos (by omega), Nat.pow_zero]
    omega
  · rcases Nat.lt_or_eq_of_le hm with hlt | rfl
    · rw [if_neg (by omega), show (k * 0x800000 + m) / 0x800000 - 1 = k by omega,
        show 0x800000 + (k * 0x800000 + m) % 0x800000 = m by omega]
    · rw [if_neg (by omega), show (k * 0x800000 + 0x1000000) / 0x800000 - 1 = k + 1 by omega,
        show 0x800000 + (k * 0x800000 + 0x1000000) % 0x800000 = 0x800000 by omega, Nat.pow_succ]
      omega

/-- A representable magnitude has at most 24 significant bits. -/
theorem Representable.eq_mul_two_pow {v : Nat} (h : Representable v) : ∃ j i, j < 0x1000000 ∧ v = j * 2 ^ i := by
  obtain ⟨w, -, rfl⟩ := h
  have hfrac : f32Frac w < 0x800000 := Nat.mod_lt _ (by decide)
  unfold f32Units
  split
  · exact ⟨f32Frac w, 0, by omega, by rw [Nat.pow_zero, Nat.mul_one]⟩
  · exact ⟨0x800000 + f32Frac w, f32Exp w - 1, by omega, Nat.shiftLeft_eq _ _⟩

/-- No representable magnitude lies strictly between two neighbours of the exponent `k`. -/
theorem Representable.not_between {v k m : Nat} (h : Representable v) (hk : k = 0 ∨ 0x800000 ≤ m) :
    v ≤ m * 2 ^ k ∨ (m + 1) * 2 ^ k ≤ v := by
  obtain ⟨j, i, hj, rfl⟩ := h.eq_mul_two_pow
  rcases Nat.lt_or_ge i k with hik | hki
  · left
    obtain ⟨e, rfl⟩ : ∃ e, k = e + 1 := ⟨k - 1, by omega⟩
    calc j * 2 ^ i ≤ 0x1000000 * 2 ^ e := Nat.mul_le_mul (by omega) (Nat.pow_le_pow_right (by omega) (by omega))
      _ = 0x800000 * 2 ^ (e + 1) := by rw [Nat.pow_succ]; omega
      _ ≤ m * 2 ^ (e + 1) := Nat.mul_le_mul_right _ (by omega)
  · obtain ⟨e, rfl⟩ : ∃ e, i = k + e := ⟨i - k, by omega⟩
    rw [show j * 2 ^ (k + e) = j * 2 ^ e * 2 ^ k by rw [Nat.add_comm, Nat.pow_add, Nat.mul_assoc]]
    rcases Nat.lt_or_ge m (j * 2 ^ e) with hlt | hge
    · exact .inr (Nat.mul_le_mul_right _ hlt)
    · exact .inl (Nat.mul_le_mul_right _ hge)

/-! #### The parts of `roundMag` -/

/-- The exponent of the unit in the last place of the exact value `n / d`. -/
def ulpExp (n d : Nat) : Nat := if n / d < 0x1000000 then 0 else (n / d).log2 - 23

/-- The unit in the last place, times the denominator. -/
def ulp (n d : Nat) : Nat := d * 2 ^ ulpExp n d

/-- The number of units in the last place after rounding. -/
def significand (n d : Nat) : Nat :=
  if ulp n d < 2 * (n % ulp n d) ∨ (2 * (n % ulp n d) = ulp n d ∧ n / ulp n d % 2 = 1) then n / ulp n d + 1
  else n / ulp n d

theorem roundMag_eq (n d : Nat) : roundMag n d = min (ulpExp n d * 0x800000 + significand n d) f32InfMag := by
  unfold roundMag significand ulp ulpExp
  simp only [Nat.shiftLeft_eq]

/-- Where the exponent is not 0 the whole part has exactly `24 + ulpExp n d` bits. -/
theorem div_lt_and_le (n d : Nat) :
    n / d < 0x1000000 * 2 ^ ulpExp n d ∧ (ulpExp n d = 0 ∨ 0x800000 * 2 ^ ulpExp n d ≤ n / d) := by
  unfold ulpExp
  split
  next h => exact ⟨by omega, .inl rfl⟩
  next h =>
    have hlog : 24 ≤ (n / d).log2 := (Nat.le_log2 (by omega)).2 (by omega)
    obtain ⟨e, he⟩ : ∃ e, (n / d).log2 = e + 23 := ⟨(n / d).log2 - 23, by omega⟩
    have hlo : 2 ^ (e + 23) ≤ n / d := he ▸ Nat.log2_self_le (by omega)
    have hhi : n / d < 2 ^ (e + 23 + 1) := he ▸ Nat.lt_log2_self
    rw [he, Nat.add_sub_cancel]
    rw [Nat.pow_add] at hlo
    rw [Nat.add_assoc, Nat.pow_add] at hhi
    omega

theorem div_ulp_eq (n d : Nat) : n / ulp n d = n / d / 2 ^ ulpExp n d := by
  unfold ulp
  rw [Nat.div_div_eq_div_mul]

theorem div_ulp_lt (n d : Nat) : n / ulp n d < 0x1000000 := by
  rw [div_ulp_eq, Nat.div_lt_iff_lt_mul (Nat.two_pow_pos _)]
  exact (div_lt_and_le n d).1

theorem le_div_ulp (n d : Nat) : ulpExp n d = 0 ∨ 0x800000 ≤ n / ulp n d := by
  rw [div_ulp_eq, Nat.le_div_iff_mul_le (Nat.two_pow_pos _)]
  exact (div_lt_and_le n d).2

theorem ulp_pos {n d : Nat} (hd : 0 < d) : 0 < ulp n d := Nat.mul_pos hd (Nat.two_pow_pos _)

/-- The significand is the whole number of units, or one more; which, its distance to the exact value decides. -/
theorem significand_cases (n d : Nat) :
    (significand n d = n / ulp n d ∧ 2 * (n % ulp n d) ≤ ulp n d ∧
        (2 * (n % ulp n d) = ulp n d → n / ulp n d % 2 = 0)) ∨
      (significand n d = n / ulp n d + 1 ∧ ulp n d ≤ 2 * (n % ulp n d) ∧
        (2 * (n % ulp n d) = ulp n d → n / ulp n d % 2 = 1)) := by
  unfold significand
  split
  · right; omega
  · left; omega

theorem significand_le (n d : Nat) : significand n d ≤ 0x1000000 := by
  have := div_ulp_lt n d
  have := significand_cases n d
  omega

theorem le_significand (n d : Nat) : ulpExp n d = 0 ∨ 0x800000 ≤ significand n d := by
  have := le_div_ulp n d
  have := significand_cases n d
  omega

/-! #### Where rounding gives infinity -/

theorem inf_threshold (d : Nat) : d * ((2 ^ 25 - 1) <<< 252) = (2 ^ 25 - 1) * (d * 2 ^ 252) := by
  rw [Nat.shiftLeft_eq, Nat.mul_left_comm]

/-- The exact value rounds to infinity exactly from half a unit above the largest finite value up (R10). -/
theorem infMag_le_iff {n d : Nat} (hd : 0 < d) :
    f32InfMag ≤ ulpExp n d * 0x800000 + significand n d ↔ d * ((2 ^ 25 - 1) <<< 252) ≤ n := by
  rw [inf_threshold]
  have hdm := Nat.div_add_mod' n (ulp n d)
  have hmod : n % ulp n d < ulp n d := Nat.mod_lt _ (ulp_pos hd)
  have hlt := div_ulp_lt n d
  have hle := le_div_ulp n d
  have hsig := significand_cases n d
  have hlow : n < 0x1000000 * ulp n d := (Nat.div_lt_iff_lt_mul (ulp_pos hd)).1 hlt
  have hpos : 0 < d * 2 ^ 252 := Nat.mul_pos hd (Nat.two_pow_pos _)
  unfold f32InfMag
  rcases Nat.lt_trichotomy (ulpExp n d) 253 with hk | hk | hk
  · have hu : ulp n d ≤ d * 2 ^ 252 :=
      Nat.mul_le_mul_left d (Nat.pow_le_pow_right (by omega) (by omega))
    omega
  · have hu : ulp n d = 2 * (d * 2 ^ 252) := by
      unfold ulp
      rw [hk, Nat.pow_succ]
      omega
    rcases Nat.lt_or_ge (n / ulp n d) 0xFFFFFF with hm | hm
    · have : n < 0xFFFFFF * ulp n d := (Nat.div_lt_iff_lt_mul (ulp_pos hd)).1 hm
      omega
    · have hm' : n / ulp n d = 0xFFFFFF := by omega
      rw [hm'] at hdm hsig
      omega
  · have hu : 4 * (d * 2 ^ 252) ≤ ulp n d := by
      calc 4 * (d * 2 ^ 252) = d * 2 ^ 254 := by omega
        _ ≤ ulp n d := Nat.mul_le_mul_left d (Nat.pow_le_pow_right (by omega) hk)
    have hhigh : 0x800000 * ulp n d ≤ n := (Nat.le_div_iff_mul_le (ulp_pos hd)).1 (by omega)
    omega

/-! #### Nothing representable is nearer -/

/-- The arithmetic of rounding: `n` lies `r` above the multiple `p` of the unit `u`, the result `x` is the nearer of `p` and
`p + u`, and `y` is not strictly between the two. -/
theorem nearest_of_not_between {n p u r x y : Nat} (hn : n = p + r) (hr : r < u)
    (hx : (x = p ∧ 2 * r ≤ u) ∨ (x = p + u ∧ u ≤ 2 * r)) (hy : y ≤ p ∨ p + u ≤ y) :
    ((n : Int) - x).natAbs ≤ ((n : Int) - y).natAbs ∧
      (y ≠ x → ((n : Int) - x).natAbs = ((n : Int) - y).natAbs → 2 * r = u) := by
  omega

theorem significand_nearest {n d v : Nat} (hd : 0 < d) (hv : Representable v) :
    ((n : Int) - d * (significand n d * 2 ^ ulpExp n d : Nat)).natAbs ≤ ((n : Int) - d * v).natAbs ∧
      (v ≠ significand n d * 2 ^ ulpExp n d →
        ((n : Int) - d * (significand n d * 2 ^ ulpExp n d : Nat)).natAbs = ((n : Int) - d * v).natAbs →
        significand n d % 2 = 0) := by
  have scale (j : Nat) : d * (j * 2 ^ ulpExp n d) = j * ulp n d := by
    unfold ulp
    rw [Nat.mul_left_comm]
  have hsig := significand_cases n d
  have hx : (d * (significand n d * 2 ^ ulpExp n d) = n / ulp n d * ulp n d ∧ 2 * (n % ulp n d) ≤ ulp n d) ∨
      (d * (significand n d * 2 ^ ulpExp n d) = n / ulp n d * ulp n d + ulp n d ∧ ulp n d ≤ 2 * (n % ulp n d)) := by
    rw [scale, ← Nat.succ_mul]
    rcases hsig with ⟨h, hle, -⟩ | ⟨h, hle, -⟩
    · exact .inl ⟨by rw [h], hle⟩
    · exact .inr ⟨by rw [h], hle⟩
  have hy : d * v ≤ n / ulp n d * ulp n d ∨ n / ulp n d * ulp n d + ulp n d ≤ d * v := by
    rw [← Nat.succ_mul, ← scale, ← scale]
    exact (hv.not_between (le_div_ulp n d)).imp (Nat.mul_le_mul_left d) (Nat.mul_le_mul_left d)
  obtain ⟨hnear, htie⟩ :=
    nearest_of_not_between (Nat.div_add_mod' n (ulp n d)).symm (Nat.mod_lt n (ulp_pos hd)) hx hy
  rw [← Int.natCast_mul, ← Int.natCast_mul]
  refine ⟨hnear, fun hne heq => ?_⟩
  have := htie (fun h => hne (Nat.eq_of_mul_eq_mul_left hd h)) heq
  omega

/-- `roundMag` rounds to nearest, ties to even (R10). -/
theorem isRounded_roundMag {n d : Nat} (neg : Bool) (hd : 0 < d) : IsRounded neg n d (f32Make neg (roundMag n d)) := by
  have hle := roundMag_le n d
  have hfin := isFinite_f32Make (neg := neg) hle
  refine ⟨(f32Make_fields hle).1, ?_, fun hnot => ?_, fun hyes v hv => ?_⟩
  · rw [Bool.eq_false_iff, ne_eq, hfin, ← infMag_le_iff hd, roundMag_eq]
    omega
  · rw [Bool.eq_false_iff, ne_eq, hfin] at hnot
    rw [show roundMag n d = f32InfMag by omega, f32Make_infMag]
    cases neg <;> decide
  · rw [hfin] at hyes
    have he : roundMag n d = ulpExp n d * 0x800000 + significand n d := by
      rw [roundMag_eq] at hyes ⊢
      omega
    obtain ⟨hnear, htie⟩ := significand_nearest (n := n) hd hv
    rw [he] at hle ⊢
    rw [f32Units_f32Make hle (significand_le n d) (le_significand n d)]
    refine ⟨hnear, fun hne heq => f32Make_bit_zero hle ?_⟩
    have := htie hne heq
    omega

/-! #### The four operations -/

section Operations
variable {φ a b : Word}

theorem isRounded_fadd (ha : isFinite a = true) (hb : isFinite b = true) :
    IsRounded (if f32Value a + f32Value b = 0 then f32Neg a && f32Neg b else decide (f32Value a + f32Value b < 0))
      (f32Value a + f32Value b).natAbs 1 (fadd φ a b) := by
  rw [fadd_of_finite ha hb]
  split
  next h0 =>
    rw [h0]
    exact isRounded_roundMag (n := 0) _ Nat.one_pos
  next => exact isRounded_roundMag _ Nat.one_pos

theorem isRounded_fsub (ha : isFinite a = true) (hb : isFinite b = true) :
    IsRounded (if f32Value a - f32Value b = 0 then f32Neg a && !f32Neg b else decide (f32Value a - f32Value b < 0))
      (f32Value a - f32Value b).natAbs 1 (fsub φ a b) := by
  have h := isRounded_fadd (φ := φ) ha (b := fneg b) (by rwa [isFinite_fneg])
  rwa [f32Value_fneg, f32Neg_fneg, ← Int.sub_eq_add_neg] at h

theorem isRounded_fmul (ha : isFinite a = true) (hb : isFinite b = true) :
    IsRounded (f32Neg a != f32Neg b) (f32Units a * f32Units b) (1 <<< 149) (fmul φ a b) := by
  rw [fmul_of_finite ha hb]
  exact isRounded_roundMag _ (by decide)

theorem isRounded_fdiv (ha : isFinite a = true) (hb : isFinite b = true) (hz : f32Units b ≠ 0) :
    IsRounded (f32Neg a != f32Neg b) (f32Units a <<< 149) (f32Units b) (fdiv φ a b) := by
  rw [fdiv_of_finite ha hb hz]
  exact isRounded_roundMag _ (Nat.pos_of_ne_zero hz)

end Operations

/-- Settles O54: `roundMag` rounds to nearest, each operation on finite operands is `roundMag` of its exact result, and the
cases with one infinity or a zero divisor are the special values of the operations. -/
theorem operationsRoundToNearestEven : Obligations.OperationsRoundToNearestEven := by
  unfold Obligations.OperationsRoundToNearestEven
  refine ⟨fun n d neg hd => isRounded_roundMag neg hd, fun φ a b ha hb => ?_, fun φ a b ha hb => ?_⟩
  · exact ⟨isRounded_fadd ha hb, isRounded_fsub ha hb, isRounded_fmul ha hb, isRounded_fdiv ha hb,
      fun hz hnz => fdiv_of_finite_of_zero ha hz hb hnz⟩
  · refine ⟨fadd_of_inf_of_finite ha hb, fadd_of_finite_of_inf hb ha, fsub_of_inf_of_finite ha hb,
      fsub_of_finite_of_inf hb ha, fun hz => ⟨fmul_of_inf_of_finite ha hb hz, ?_⟩, fdiv_of_inf_of_finite ha hb, ?_⟩
    · rw [fmul_of_finite_of_inf hb hz ha, bne_comm]
    · rw [fdiv_of_finite_of_inf hb ha, bne_comm]

end Sys2Proof.Machine
end

section
/-! ### The bit lengths of what the commands append (R209, R226, R241) -/

namespace Sys2Proof.Machine

theorem usedCoefs_of_zeros {cs : List Word} (h : cs.all (· == 0) = true) : usedCoefs cs = [] := by
  unfold usedCoefs
  rw [List.reverse_eq_nil_iff, List.dropWhile_eq_nil_iff]
  simpa using h

/-- A coefficient with a nonzero one at or after it is used (R226). -/
theorem usedCoefs_cons {c : Word} {cs : List Word} (h : (c :: cs).all (· == 0) = false) :
    usedCoefs (c :: cs) = c :: usedCoefs cs := by
  unfold usedCoefs
  rw [List.reverse_cons, List.dropWhile_append]
  split
  next hz =>
    have hcs : ∀ x ∈ cs, x = 0 := by simpa using hz
    have hc : c ≠ 0 := by
      rintro rfl
      exact absurd h (by simpa using hcs)
    rw [List.dropWhile_cons_of_neg (by simpa using hc), List.isEmpty_iff.1 hz]
    rfl
  next => simp

theorem coefLength_of_zeros (w : Nat) {c : Word} {cs : List Word} (h : (c :: cs).all (· == 0) = true) :
    coefLength w (c :: cs) = 2 := by
  simp [coefLength, usedCoefs_of_zeros h]

theorem coefLength_cons (w : Nat) {c : Word} {cs : List Word} (h : (c :: cs).all (· == 0) = false) :
    coefLength w (c :: cs) = (if c = 0 then 1 else 3 + w) + coefLength w cs := by
  simp only [coefLength, usedCoefs_cons h, List.map_cons, List.sum_cons, List.length_cons, Nat.add_lt_add_iff_right]
  omega

/-- COEFENC appends as many bits as the overflow check counts (R226). -/
@[simp] theorem tokens_length (w : Nat) (cs : List Word) : (tokens w cs).length = coefLength w cs := by
  induction cs with
  | nil => rfl
  | cons c cs ih =>
    rw [tokens]
    cases hz : (c :: cs).all (· == 0) with
    | true =>
      obtain ⟨hc, hcs⟩ : c = 0 ∧ cs.all (· == 0) = true := by simpa using hz
      rw [if_pos hc, if_pos hcs, coefLength_of_zeros w hz]
      rfl
    | false =>
      rw [coefLength_cons w hz]
      split
      next hc =>
        have hcs : ¬ cs.all (· == 0) = true := by
          rw [List.all_cons, hc] at hz
          simpa using hz
        rw [if_neg hcs, List.length_cons, ih, Nat.add_comm]
      next => simp [valueToken, ih]; omega

theorem coefLength_le (w : Nat) (cs : List Word) : coefLength w cs ≤ (3 + w) * cs.length := by
  induction cs with
  | nil => exact Nat.le_refl 0
  | cons c cs ih =>
    have hstep : (3 + w) * (c :: cs).length = (3 + w) * cs.length + (3 + w) := Nat.mul_succ _ _
    cases hz : (c :: cs).all (· == 0) with
    | true =>
      rw [coefLength_of_zeros w hz]
      omega
    | false =>
      rw [coefLength_cons w hz]
      split <;> omega

/-- The width is two more than a nibble (R221). -/
theorem coefWidth_le (q : BitVec 8) : coefWidth q ≤ 17 := by
  have h : qwbLow q < 16 := (q.extractLsb' 0 4).isLt
  unfold coefWidth
  omega

/-- COEFENC appends at most 20 bits for each coefficient (R224). -/
theorem coefLength_le_of_coefs {s : State} {cs : List Word} (h : Coefs s cs) (q : BitVec 8) :
    coefLength (coefWidth q) cs ≤ 5120 := by
  have hlen := coefLength_le (coefWidth q) cs
  rw [coefs_length h] at hlen
  have := coefWidth_le q
  omega

@[simp] theorem headerBits_length (r : Slot) (ext : Bool) : (headerBits r ext).length = headerLength ext := by
  cases ext <;> simp [headerBits, headerLength]

theorem headerLength_le (ext : Bool) : headerLength ext ≤ 88 := by cases ext <;> decide

@[simp] theorem groupHeaderBits_length (type : BitVec 8) : (groupHeaderBits type).length = 32 := by
  simp [groupHeaderBits]

end Sys2Proof.Machine
end

section
/-! ### The stages of the commands, and the properties that every stage keeps (R100, R264) -/

namespace Sys2Proof.Machine

/-- A command less the completion step. -/
def stageOf (i : Instr) (s : State) : CmdResult :=
  match i with
  | .nop => .done s
  | .prescan n => prescanStage n s
  | .transform n => transformStage n s
  | .hdrenc n ext => hdrencStage n ext s
  | .coefenc n => coefencStage n s
  | .ghdr type => ghdrStage type s
  | .term => termStage s
  | .sclr => .done (clearStream s)
  | .build count ext type => buildStage count ext type s

/-- Every command is its stage followed by the completion step (R100, R263). -/
theorem exec_eq_finish (i : Instr) (s : State) : exec i s = finish (stageOf i s) := by
  cases i <;> rfl

/-- What the commands keep of a slot's registers: POSX, POSY and SERIAL (R44, R45, R50). -/
def PositionKept (r r' : Slot) : Prop := r'.posx = r.posx ∧ r'.posy = r.posy ∧ r'.serial = r.serial

theorem positionKept_refl (r : Slot) : PositionKept r r := ⟨rfl, rfl, rfl⟩

theorem PositionKept.trans {r r' r'' : Slot} (h : PositionKept r r') (h' : PositionKept r' r'') : PositionKept r r'' :=
  ⟨h'.1.trans h.1, h'.2.1.trans h.2.1, h'.2.2.trans h.2.2⟩

/-- `P` survives each of the few effects that the commands are made of, on the slots in `slots`. -/
structure KeptByEffects (P : State → Prop) (slots : Fin 4 → Prop) : Prop where
  engine : ∀ s e, P s → P (s.withEngine e)
  draws : ∀ s d, P s → P { s with draws := d }
  slot : ∀ s n f, slots n → (∀ r, PositionKept r (f r)) → P s → P (s.updateSlot n f)
  passes : ∀ s, P s → P (transformPasses s)
  clear : ∀ s, P s → P (clearStream s)
  append : ∀ s bits, s.bitpos.toNat + bits.length ≤ 32768 → P s → P (appendBits bits s)
  free : ∀ s count, (∀ n ∈ buildSlots count, slots n) → P s → P (freeOutputs count s)

namespace KeptByEffects
variable {P : State → Prop} {slots : Fin 4 → Prop} {n : Fin 4} {s : State}

theorem and {Q : State → Prop} (h : KeptByEffects P slots) (h' : KeptByEffects Q slots) :
    KeptByEffects (fun s => P s ∧ Q s) slots where
  engine s e hs := ⟨h.engine s e hs.1, h'.engine s e hs.2⟩
  draws s d hs := ⟨h.draws s d hs.1, h'.draws s d hs.2⟩
  slot s n f hn hf hs := ⟨h.slot s n f hn hf hs.1, h'.slot s n f hn hf hs.2⟩
  passes s hs := ⟨h.passes s hs.1, h'.passes s hs.2⟩
  clear s hs := ⟨h.clear s hs.1, h'.clear s hs.2⟩
  append s bits hfit hs := ⟨h.append s bits hfit hs.1, h'.append s bits hfit hs.2⟩
  free s count hcount hs := ⟨h.free s count hcount hs.1, h'.free s count hcount hs.2⟩

theorem holds_afterPrescan (h : KeptByEffects P slots) (hn : slots n) (ws : List Word) (hs : P s) :
    P (afterPrescan n ws s) :=
  h.draws _ _ (h.slot _ _ _ hn (fun _ => ⟨rfl, rfl, rfl⟩) hs)

theorem holds_afterTransform (h : KeptByEffects P slots) (n : Fin 4) (ws : List Word) (hs : P s) :
    P (afterTransform n ws s) :=
  h.passes _ (h.engine _ _ hs)

theorem holds_afterHeader (h : KeptByEffects P slots) (hn : slots n) {ext : Bool} (cs : List Word)
    (hfit : s.bitpos.toNat + headerLength ext ≤ 32768) (hs : P s) : P (afterHeader n ext cs s) :=
  h.append _ _ (by rwa [headerBits_length]) (h.slot _ _ _ hn (fun _ => ⟨rfl, rfl, rfl⟩) hs)

theorem holds_tokens (h : KeptByEffects P slots) {w : Nat} {cs : List Word}
    (hfit : s.bitpos.toNat + coefLength w cs ≤ 32768) (hs : P s) : P (appendBits (tokens w cs) s) :=
  h.append _ _ (by rwa [tokens_length]) hs

theorem holds_forceQwb (h : KeptByEffects P slots) (hn : slots n) (hs : P s) : P (forceQwb n s) :=
  h.slot _ _ _ hn (fun _ => ⟨rfl, rfl, rfl⟩) hs

theorem holds_enterSlot (h : KeptByEffects P slots) (n : Fin 4) (hs : P s) : P (enterSlot n s) := h.engine _ _ hs

theorem holds_groupHeader (h : KeptByEffects P slots) (type : BitVec 8) (hs : P s) :
    P (appendBits (groupHeaderBits type) (clearStream s)) :=
  h.append _ _ (by rw [clearStream_bitpos, groupHeaderBits_length]; decide) (h.clear _ hs)

theorem holds_sentinel (h : KeptByEffects P slots) (hfit : s.bitpos.toNat + 8 ≤ 32768) (hs : P s) :
    P (appendBits (pack Config.endOfPatches 8) s) :=
  h.append _ _ (by rwa [pack_length]) hs

theorem buildSlot_holds (h : KeptByEffects P slots) (hn : slots n) (ext : Bool) (hs : P s) :
    (buildSlot ext n s).Holds P := by
  refine buildSlot_keeps (P := P) ?_ ?_ ?_ ?_ ?_ ?_ hs
  · exact fun s hs => h.holds_enterSlot n hs
  · exact fun s ws hs _ => h.holds_afterPrescan hn ws hs
  · exact fun s hs => h.holds_forceQwb hn hs
  · exact fun s ws hs _ => h.holds_afterTransform n ws hs
  · exact fun s cs hs _ hfit => h.holds_afterHeader hn cs hfit hs
  · exact fun s cs hs _ hfit => h.holds_tokens hfit hs

/-- BUILD keeps what its effects on its own slots keep (R250, R257). -/
theorem buildStage_holds (h : KeptByEffects P slots) {count : Nat} (hcount : ∀ n ∈ buildSlots count, slots n)
    (ext : Bool) (type : BitVec 8) (hs : P s) : (buildStage count ext type s).Holds P := by
  have hmessage : (buildMessage count ext type s).Holds P :=
    buildMessage_keeps (h.holds_groupHeader type hs) (fun n hn _ => h.buildSlot_holds (hcount n hn) ext)
      fun _ hs hfit => h.holds_sentinel hfit hs
  rcases buildStage_cases count ext type s with
    ⟨-, e⟩ | ⟨-, -, ⟨t, hm, e⟩ | ⟨err, t, hm, e⟩ | ⟨f, hm, e⟩⟩ <;> rw [e]
  · exact hs
  · rwa [hm] at hmessage
  · rw [hm] at hmessage
    exact h.free _ _ hcount hmessage
  · trivial

/-- What the effects on every slot keep, every command keeps. -/
theorem stageOf_holds (h : KeptByEffects P fun _ => True) (i : Instr) (hs : P s) : (stageOf i s).Holds P := by
  cases i with
  | nop => exact hs
  | prescan n =>
    rcases prescanStage_cases n s with ⟨ws, -, e⟩ | ⟨a, e⟩ <;> rw [stageOf, e]
    · exact h.holds_afterPrescan trivial ws hs
    · trivial
  | transform n =>
    rcases transformStage_cases n s with ⟨-, e⟩ | ⟨-, ws, -, e⟩ | ⟨-, a, e⟩ <;> rw [stageOf, e]
    · exact hs
    · exact h.holds_afterTransform n ws hs
    · trivial
  | hdrenc n ext =>
    rcases hdrencStage_cases n ext s with ⟨-, e⟩ | ⟨hfit, cs, -, e⟩ | ⟨-, a, e⟩ <;> rw [stageOf, e]
    · exact hs
    · exact h.holds_afterHeader trivial cs hfit hs
    · trivial
  | coefenc n =>
    rcases coefencStage_cases n s with ⟨cs, -, -, e⟩ | ⟨cs, -, hfit, e⟩ | ⟨a, e⟩ <;> rw [stageOf, e]
    · exact hs
    · exact h.holds_tokens hfit hs
    · trivial
  | ghdr type => exact h.holds_groupHeader type hs
  | term =>
    rcases termStage_cases s with ⟨-, e⟩ | ⟨hfit, e⟩ <;> rw [stageOf, e]
    · exact hs
    · exact h.holds_sentinel hfit hs
  | sclr => exact h.clear _ hs
  | build count ext type => exact h.buildStage_holds (fun _ _ => trivial) ext type hs

end KeptByEffects

/-- The errors a running command can end with: BAD_COUNT, BAD_RANGE and OVERFLOW (R262, R267, R268). -/
def runErrors : List CmdError := [.badCount, .badRange, .overflow]

theorem stageOf_errorIn (i : Instr) (s : State) : (stageOf i s).ErrorIn runErrors := by
  have hrange : CmdError.badRange ∈ runErrors := by decide
  have hover : CmdError.overflow ∈ runErrors := by decide
  cases i with
  | nop => trivial
  | prescan n =>
    rcases prescanStage_cases n s with ⟨ws, -, e⟩ | ⟨a, e⟩ <;> rw [stageOf, e] <;> trivial
  | transform n =>
    rcases transformStage_cases n s with ⟨-, e⟩ | ⟨-, ws, -, e⟩ | ⟨-, a, e⟩ <;> rw [stageOf, e]
    exacts [hrange, trivial, trivial]
  | hdrenc n ext =>
    rcases hdrencStage_cases n ext s with ⟨-, e⟩ | ⟨-, cs, -, e⟩ | ⟨-, a, e⟩ <;> rw [stageOf, e]
    exacts [hover, trivial, trivial]
  | coefenc n =>
    rcases coefencStage_cases n s with ⟨cs, -, -, e⟩ | ⟨cs, -, -, e⟩ | ⟨a, e⟩ <;> rw [stageOf, e]
    exacts [hover, trivial, trivial]
  | ghdr type => trivial
  | term =>
    rcases termStage_cases s with ⟨-, e⟩ | ⟨-, e⟩ <;> rw [stageOf, e]
    exacts [hover, trivial]
  | sclr => trivial
  | build count ext type =>
    have hmessage := buildMessage_errorIn count ext type s
    rcases buildStage_cases count ext type s with
      ⟨-, e⟩ | ⟨-, -, ⟨t, hm, e⟩ | ⟨err, t, hm, e⟩ | ⟨f, hm, e⟩⟩ <;> rw [stageOf, e]
    · show CmdError.badCount ∈ runErrors
      decide
    · trivial
    · rw [hm] at hmessage
      exact List.mem_cons_of_mem _ hmessage
    · trivial

/-- What a command that gives a next state ends with: the completion step of a state that has what the effects keep. -/
theorem exec_eq_next {P : State → Prop} (h : KeptByEffects P fun _ => True) {i : Instr} {s t : State} (hs : P s)
    (ht : exec i s = .next t) :
    ∃ u, P u ∧ (t = complete none u ∨ ∃ e ∈ runErrors, t = complete (some e) u) := by
  have hholds := h.stageOf_holds i hs
  have herror := stageOf_errorIn i s
  rw [exec_eq_finish] at ht
  rcases finish_eq_next.1 ht with ⟨u, hu, rfl⟩ | ⟨e, u, hu, rfl⟩ <;> rw [hu] at hholds herror
  · exact ⟨u, hholds, .inl rfl⟩
  · exact ⟨u, hholds, .inr ⟨e, herror, rfl⟩⟩

end Sys2Proof.Machine
end

section
/-! ### What every command keeps, and how it ends (R36, R53, R82, R263) -/

namespace Sys2Proof.Machine

/-- Before its completion step a command leaves STATUS and what `ControlKept` lists alone. -/
def StatusAndControlKept (s t : State) : Prop := t.status = s.status ∧ ControlKept s t

theorem statusAndControlKept_keptByEffects (s : State) (slots : Fin 4 → Prop) :
    KeptByEffects (StatusAndControlKept s) slots where
  engine _ _ h := h
  draws _ _ h := h
  slot _ _ _ _ _ h := h
  passes _ h := h
  clear _ h := h
  append _ _ _ h := h
  free t count _ h := by
    obtain ⟨hstatus, -, hcontrol, -⟩ := freeOutputs_kept count t
    exact ⟨hstatus.trans h.1, h.2.trans hcontrol⟩

/-- Settles O26: no stage touches STATUS, and the completion step says the rest. -/
theorem everyCommandEndsByTheCompletionStep : Obligations.EveryCommandEndsByTheCompletionStep := by
  unfold Obligations.EveryCommandEndsByTheCompletionStep
  intro i s t ht
  obtain ⟨u, ⟨hstatus, hcontrol⟩, hu⟩ :=
    exec_eq_next (statusAndControlKept_keptByEffects s _) ⟨rfl, controlKept_refl s⟩ ht
  rcases hu with rfl | ⟨e, he, rfl⟩
  · refine ⟨rfl, rfl, rfl, ?_, ?_, hcontrol, hcontrol.1, .inl ⟨?_, ?_⟩⟩ <;> simp [hstatus]
  · refine ⟨rfl, rfl, rfl, ?_, ?_, hcontrol, hcontrol.1, .inr ⟨rfl, ?_⟩⟩
    · simp [hstatus]
    · simp [hstatus]
    · have hcode : ∀ e ∈ runErrors, e.code = 2 ∨ e.code = 3 ∨ e.code = 4 := by decide
      exact hcode e he

/-- What a command that works on the slots in `slots` keeps of the data: the memory outside the stream buffer, COEF and
ROWBUF, every POSX, POSY and SERIAL, and the other slots (R53, R82, R308). -/
structure DataFrame (slots : Fin 4 → Prop) (s t : State) : Prop where
  mem : MemKeptOutside 0x2000 0x3800 s t
  position : ∀ n, PositionKept (s.slot n) (t.slot n)
  others : ∀ n, ¬ slots n → t.slot n = s.slot n

theorem dataFrame_refl (slots : Fin 4 → Prop) (s : State) : DataFrame slots s s :=
  ⟨fun _ _ => rfl, fun _ => positionKept_refl _, fun _ _ => rfl⟩

/-- An append that fits in the stream buffer writes no byte outside it (R56, R95). -/
theorem appendBits_load_outside_stream {bits : List Bool} {s : State} {a : Nat}
    (hfit : s.bitpos.toNat + bits.length ≤ 32768) (ha : a < 0x2000 ∨ 0x3000 ≤ a) :
    (appendBits bits s).mem.load a = s.mem.load a := by
  apply appendBits_load_outside
  unfold appendFrom appendTo streamBase
  omega

theorem dataFrame_keptByEffects (slots : Fin 4 → Prop) (s : State) : KeptByEffects (DataFrame slots s) slots where
  engine _ _ h := ⟨h.mem, h.position, h.others⟩
  draws _ _ h := ⟨h.mem, h.position, h.others⟩
  slot t n f hn hf h := by
    refine ⟨h.mem, fun k => ?_, fun k hk => ?_⟩
    · rw [updateSlot_slot]
      split
      · exact (h.position k).trans (hf _)
      · exact h.position k
    · have hne : k ≠ n := fun e => hk (e ▸ hn)
      rw [updateSlot_slot_ne _ _ hne]
      exact h.others k hk
  passes t h := by
    refine ⟨fun a ha => ?_, h.position, h.others⟩
    rw [transformPasses_load_outside (by omega)]
    exact h.mem a ha
  clear _ h := ⟨h.mem, h.position, h.others⟩
  append t bits hfit h := by
    refine ⟨fun a ha => ?_, h.position, h.others⟩
    rw [appendBits_load_outside_stream hfit (by omega)]
    exact h.mem a ha
  free t count hcount h := by
    obtain ⟨-, -, -, hslots⟩ := freeOutputs_kept count t
    refine ⟨fun a ha => ?_, fun k => ?_, fun k hk => ?_⟩
    · rw [freeOutputs_load_outside ha]
      exact h.mem a ha
    · obtain ⟨hx, hy, hserial, -⟩ := hslots k
      exact (h.position k).trans ⟨hx, hy, hserial⟩
    · obtain ⟨-, -, -, hother⟩ := hslots k
      rw [hother fun hmem => hk (hcount k hmem)]
      exact h.others k hk

/-- Settles O27: every effect of a command writes outside the sample RAM and keeps POSX, POSY and SERIAL. -/
theorem commandsKeepSamplesPositionAndSerial : Obligations.CommandsKeepSamplesPositionAndSerial := by
  unfold Obligations.CommandsKeepSamplesPositionAndSerial
  intro i s t ht
  obtain ⟨u, hu, rfl | ⟨e, -, rfl⟩⟩ := exec_eq_next (dataFrame_keptByEffects _ s) (dataFrame_refl _ s) ht
  · exact ⟨hu.mem, hu.position⟩
  · exact ⟨hu.mem, hu.position⟩

end Sys2Proof.Machine
end

section
/-! ### BUILD on written samples (R250, R253, R257, R295) -/

namespace Sys2Proof.Machine

theorem prescanStage_of {n : Fin 4} {s : State} {ws : List Word} (h : Samples s n ws) :
    prescanStage n s = .done (afterPrescan n ws s) := withSamples_of h _

theorem transformStage_of {n : Fin 4} {s : State} {ws : List Word} (h : Samples s n ws) :
    transformStage n s =
      if (s.slot n).range = 0 then .error .badRange s else .done (afterTransform n ws s) := by
  unfold transformStage
  rw [withSamples_of h]
  rfl

theorem hdrencStage_of {n : Fin 4} {ext : Bool} {s : State} {cs : List Word} (h : Coefs s cs)
    (hfit : s.bitpos.toNat + headerLength ext ≤ 32768) :
    hdrencStage n ext s = .done (afterHeader n ext cs s) := by
  unfold hdrencStage
  rw [overflows_eq_false.2 hfit, withCoefs_of h]
  rfl

theorem coefencStage_of {n : Fin 4} {s : State} {cs : List Word} (h : Coefs s cs)
    (hfit : s.bitpos.toNat + coefLength (coefWidth (s.slot n).qwb) cs ≤ 32768) :
    coefencStage n s = .done (appendBits (tokens (coefWidth (s.slot n).qwb) cs) s) := by
  unfold coefencStage
  rw [withCoefs_of h]
  simp only [overflows_eq_false.2 hfit]
  rfl

theorem termStage_of {s : State} (hfit : s.bitpos.toNat + 8 ≤ 32768) :
    termStage s = .done (appendBits (pack Config.endOfPatches 8) s) := by
  unfold termStage
  rw [overflows_eq_false.2 hfit]
  rfl

/-- The result is no fault; `P` holds of a success and `E` of an error. -/
def CmdResult.Ends (P : State → Prop) (E : CmdError → State → Prop) : CmdResult → Prop
  | .done t => P t
  | .error e t => E e t
  | .fault _ => False

theorem CmdResult.Ends.andThen {P Q : State → Prop} {E : CmdError → State → Prop} {r : CmdResult}
    {f : State → CmdResult} (h : r.Ends P E) (hf : ∀ s, P s → (f s).Ends Q E) : (r.andThen f).Ends Q E := by
  cases r with
  | done s => exact hf s h
  | error e s => exact h
  | fault x => exact h

theorem CmdResult.Ends.mono {P Q : State → Prop} {E : CmdError → State → Prop} {r : CmdResult} (h : r.Ends P E)
    (hPQ : ∀ s, P s → Q s) : r.Ends Q E := by
  cases r with
  | done s => exact hPQ s h
  | error e s => exact h
  | fault x => exact h

/-- Stages that lead from `G i` to `G (i + 1)` lead, one after another, from `G j` to `G (j + l.length)`. -/
theorem foldl_andThen_ends {G : Nat → State → Prop} {E : CmdError → State → Prop} {f : Fin 4 → State → CmdResult}
    (l : List (Fin 4)) {j : Nat}
    (hf : ∀ n ∈ l, ∀ i, i < j + l.length → ∀ s, G i s → (f n s).Ends (G (i + 1)) E) {r : CmdResult}
    (hr : r.Ends (G j) E) : (l.foldl (fun r n => r.andThen (f n)) r).Ends (G (j + l.length)) E := by
  induction l generalizing j r with
  | nil => exact hr
  | cons n l ih =>
    have hlen : j + (n :: l).length = j + 1 + l.length := by rw [List.length_cons]; omega
    rw [hlen] at hf ⊢
    exact ih (fun k hk => hf k (List.mem_cons_of_mem _ hk)) (hr.andThen (hf n List.mem_cons_self j (by omega)))

/-- The words of COEF written in `t` are those written in `s`. -/
def CoefMarksKept (s t : State) : Prop :=
  ∀ k, k < 256 → (t.mem.loadWord (coefBase + 4 * k)).isSome = (s.mem.loadWord (coefBase + 4 * k)).isSome

theorem coefMarksKept_of_load {s t : State} (h : ∀ a, 0x3000 ≤ a → t.mem.load a = s.mem.load a) :
    CoefMarksKept s t := fun k _ => by
  rw [loadWord_congr fun a hlo _ => h a (by unfold coefBase at hlo; omega)]

theorem CoefMarksKept.trans {s t u : State} (h : CoefMarksKept s t) (h' : CoefMarksKept t u) : CoefMarksKept s u :=
  fun k hk => (h' k hk).trans (h k hk)

/-- COEF can be read exactly when every word of it is written (R54, R295). -/
theorem exists_coefs_iff {s : State} :
    (∃ cs, Coefs s cs) ↔ ∀ k, k < 256 → (s.mem.loadWord (coefBase + 4 * k)).isSome = true := by
  constructor
  · rintro ⟨cs, h⟩ k hk
    rw [(loadWords_ok_iff.1 h).2 k (by rwa [coefs_length h]), Option.isSome_some]
  · intro h
    cases hload : s.mem.loadWords coefBase 256 with
    | ok cs => exact ⟨cs, hload⟩
    | error a =>
      obtain ⟨k, hk, rfl, hnone⟩ := loadWords_error hload
      simpa [hnone] using h k hk

/-- The marks of COEF after `j` slots of a BUILD that began in `s`: as then, or all cleared by a TRANSFORM. -/
def CoefMarksAfter (s : State) (j : Nat) (t : State) : Prop := CoefMarksKept s t ∨ 0 < j ∧ ∃ cs, Coefs t cs

/-- What keeps the marks of COEF keeps what a BUILD has made of them. -/
theorem CoefMarksAfter.trans {s t u : State} {j : Nat} (h : CoefMarksAfter s j t) (h' : CoefMarksKept t u) :
    CoefMarksAfter s j u := by
  rcases h with hkept | ⟨hj, hcoefs⟩
  · exact .inl (hkept.trans h')
  · refine .inr ⟨hj, exists_coefs_iff.2 fun k hk => ?_⟩
    rw [h' k hk]
    exact exists_coefs_iff.1 hcoefs k hk

/-- What holds in a BUILD that began in `s`, after its GroupHeader and `j` slots: the data frame, at most 88 + 5120 bits
for each slot, and marks of COEF that only a TRANSFORM has cleared. -/
structure BuildProgress (slots : Fin 4 → Prop) (s : State) (j : Nat) (t : State) : Prop where
  frame : DataFrame slots s t
  room : t.bitpos.toNat ≤ 32 + 5208 * j
  marks : CoefMarksAfter s j t

/-- How a BUILD of `count` slots that began in `s` fails inside: with BAD_RANGE, and with the marks of COEF as
`count - 1` slots can leave them. -/
def FailsInBuild (s : State) (count : Nat) (e : CmdError) (t : State) : Prop :=
  e = .badRange ∧ CoefMarksAfter s (count - 1) t

theorem DataFrame.samples {slots : Fin 4 → Prop} {s t : State} (h : DataFrame slots s t) {n : Fin 4} {ws : List Word}
    (hs : Samples s n ws) : Samples t n ws := by
  unfold Samples at hs ⊢
  rw [← hs]
  refine loadWords_congr fun a _ hhi => h.mem a (.inl ?_)
  unfold sampleBase at hhi
  omega

section Slot
variable {slots : Fin 4 → Prop} {s t u : State} {j count : Nat} {n : Fin 4} {ext : Bool}

/-- Effects on the slots and the engine alone keep the progress of a BUILD. -/
theorem BuildProgress.of_mem_bitpos (h : BuildProgress slots s j t) (hframe : DataFrame slots s u)
    (hmem : u.mem = t.mem) (hbitpos : u.bitpos = t.bitpos) : BuildProgress slots s j u :=
  ⟨hframe, hbitpos ▸ h.room, h.marks.trans (coefMarksKept_of_load fun _ _ => by rw [hmem])⟩

theorem BuildProgress.afterPrescan (h : BuildProgress slots s j t) (hn : slots n) (ws : List Word) :
    BuildProgress slots s j (afterPrescan n ws (enterSlot n t)) :=
  h.of_mem_bitpos ((dataFrame_keptByEffects slots s).holds_afterPrescan hn ws
    ((dataFrame_keptByEffects slots s).holds_enterSlot n h.frame)) rfl rfl

theorem BuildProgress.forceQwb (h : BuildProgress slots s j t) (hn : slots n) :
    BuildProgress slots s j (forceQwb n t) :=
  h.of_mem_bitpos ((dataFrame_keptByEffects slots s).holds_forceQwb hn h.frame) rfl rfl

/-- What holds in a BUILD that began in `s`, from a slot's TRANSFORM on: COEF is written, and BITPOS is at most `r`. -/
structure BuildTransformed (slots : Fin 4 → Prop) (s : State) (r : Nat) (t : State) : Prop where
  frame : DataFrame slots s t
  room : t.bitpos.toNat ≤ r
  coefs : ∃ cs, Coefs t cs

theorem BuildProgress.afterTransform (h : BuildProgress slots s j t) (ws : List Word) :
    BuildTransformed slots s (32 + 5208 * j) (afterTransform n ws t) where
  frame := (dataFrame_keptByEffects slots s).holds_afterTransform n ws h.frame
  room := by
    rw [afterTransform_bitpos]
    exact h.room
  coefs := ⟨_, transformPasses_coefs _⟩

theorem BuildTransformed.progress {r : Nat} (h : BuildTransformed slots s r t) (hr : r ≤ 32 + 5208 * (j + 1)) :
    BuildProgress slots s (j + 1) t :=
  ⟨h.frame, h.room.trans hr, .inr ⟨Nat.succ_pos j, h.coefs⟩⟩

/-- An append that fits writes the stream buffer only: COEF still reads as it did. -/
theorem BuildTransformed.appendBits {r : Nat} {bits : List Bool} (h : BuildTransformed slots s r t)
    (hfit : r + bits.length ≤ 32768) : BuildTransformed slots s (r + bits.length) (appendBits bits t) := by
  have hroom := h.room
  refine ⟨(dataFrame_keptByEffects slots s).append _ _ (by omega) h.frame, ?_, exists_coefs_iff.2 fun k hk => ?_⟩
  · rw [appendBits_bitpos_toNat (by omega)]
    omega
  · have hmarks := coefMarksKept_of_load fun a ha => appendBits_load_outside_stream (bits := bits) (s := t) (a := a)
      (by omega) (.inr ha)
    rw [hmarks k hk]
    exact exists_coefs_iff.1 h.coefs k hk

theorem BuildTransformed.afterHeader {r : Nat} (h : BuildTransformed slots s r t) (hn : slots n) (cs : List Word)
    (hfit : r + headerLength ext ≤ 32768) :
    BuildTransformed slots s (r + headerLength ext) (afterHeader n ext cs t) := by
  have hslot : BuildTransformed slots s r (afterHeaderSlot n ext cs t) :=
    ⟨(dataFrame_keptByEffects slots s).slot _ _ _ hn (fun _ => ⟨rfl, rfl, rfl⟩) h.frame, h.room, h.coefs⟩
  have happend := hslot.appendBits (bits := headerBits ((afterHeaderSlot n ext cs t).slot n) ext)
    (by rwa [headerBits_length])
  rwa [headerBits_length] at happend

/-- HDRENC and COEFENC of a slot succeed after its TRANSFORM: a header and 256 tokens fit. -/
theorem header_and_tokens_end {r : Nat} (h : BuildTransformed slots s r t) (hn : slots n)
    (hr : r + 5208 ≤ 32768) (E : CmdError → State → Prop) :
    ((hdrencStage n ext t).andThen fun s => coefencStage n s).Ends (BuildTransformed slots s (r + 5208)) E := by
  obtain ⟨cs, hcs⟩ := h.coefs
  have hroom := h.room
  have hheader := headerLength_le ext
  rw [hdrencStage_of hcs (by omega), andThen_done]
  have hafter := h.afterHeader (n := n) hn cs (ext := ext) (by omega)
  obtain ⟨cs', hcs'⟩ := hafter.coefs
  have hroom' := hafter.room
  have htokens := coefLength_le_of_coefs hcs' ((afterHeader n ext cs t).slot n).qwb
  rw [coefencStage_of hcs' (by omega)]
  have hend := hafter.appendBits (bits := tokens (coefWidth ((afterHeader n ext cs t).slot n).qwb) cs')
    (by rw [tokens_length]; omega)
  rw [tokens_length] at hend
  exact ⟨hend.frame, hend.room.trans (by omega), hend.coefs⟩

/-- The stages of slot `j` of a BUILD on written samples end in success or in BAD_RANGE. -/
theorem buildSlot_ends (h : BuildProgress slots s j t) (hn : slots n) (hsamples : ∃ ws, Samples s n ws)
    (hj : j < count) (hcount : count ≤ 4) :
    (buildSlot ext n t).Ends (BuildProgress slots s (j + 1)) (FailsInBuild s count) := by
  obtain ⟨ws, hws⟩ := hsamples
  unfold buildSlot
  rw [prescanStage_of (s := enterSlot n t) (h.frame.samples hws), andThen_done]
  have hforce := (h.afterPrescan hn ws).forceQwb hn
  rw [transformStage_of (hforce.frame.samples hws)]
  split
  · refine ⟨rfl, hforce.marks.imp_right fun ⟨hpos, hcoefs⟩ => ⟨by omega, hcoefs⟩⟩
  · rw [andThen_done]
    have hend := header_and_tokens_end (ext := ext) (hforce.afterTransform (n := n) ws) hn (by omega)
      (FailsInBuild s count)
    exact hend.mono fun _ h => h.progress (by omega)

/-- GHDR starts a BUILD with 32 bits and writes no word of COEF (R242). -/
theorem groupHeader_progress (type : BitVec 8) (s : State) :
    BuildProgress slots s 0 (appendBits (groupHeaderBits type) (clearStream s)) where
  frame := (dataFrame_keptByEffects slots s).holds_groupHeader type (dataFrame_refl slots s)
  room := by
    rw [appendBits_bitpos, groupHeaderBits_length]
    exact Nat.le_refl 32
  marks := .inl (coefMarksKept_of_load fun a ha => appendBits_load_outside_stream (s := clearStream s)
    (by rw [clearStream_bitpos, groupHeaderBits_length]; decide) (.inr ha))

end Slot

theorem mem_buildSlots {count : Nat} (hcount : count ≤ 4) {n : Fin 4} : n ∈ buildSlots count ↔ n.val < count := by
  have h : ∀ count : Fin 5, ∀ n : Fin 4, n ∈ buildSlots count.val ↔ n.val < count.val := by decide
  exact h ⟨count, by omega⟩ n

theorem buildSlots_length {count : Nat} (hcount : count ≤ 4) : (buildSlots count).length = count := by
  rw [buildSlots, List.length_take, List.length_finRange, Nat.min_eq_left hcount]

section Build
variable {s : State} {count : Nat}

/-- The message of a BUILD on written samples ends in success, with BITPOS legal, or in BAD_RANGE. -/
theorem buildMessage_ends (hcount : count ≤ 4) (hsamples : ∀ n : Fin 4, n.val < count → ∃ ws, Samples s n ws)
    (ext : Bool) (type : BitVec 8) :
    (buildMessage count ext type s).Ends (fun t => t.bitpos.toNat ≤ 32768) (FailsInBuild s count) := by
  have hslots : ((buildSlots count).foldl (fun r n => r.andThen (buildSlot ext n)) (ghdrStage type s)).Ends
      (BuildProgress (fun n => n.val < count) s (0 + (buildSlots count).length)) (FailsInBuild s count) := by
    refine foldl_andThen_ends _ (fun n hn j hj t ht => ?_) (r := ghdrStage type s) (groupHeader_progress type s)
    have hlt := (mem_buildSlots hcount).1 hn
    rw [buildSlots_length hcount, Nat.zero_add] at hj
    exact buildSlot_ends ht hlt (hsamples n hlt) hj hcount
  refine hslots.andThen fun t ht => ?_
  have hroom := ht.room
  rw [buildSlots_length hcount] at hroom
  rw [termStage_of (by omega)]
  show (appendBits (pack Config.endOfPatches 8) t).bitpos.toNat ≤ 32768
  rw [appendBits_bitpos_toNat (by rw [pack_length]; omega), pack_length]
  omega

theorem freeOutputs_bitpos_le (count : Nat) (s : State) : (freeOutputs count s).bitpos.toNat ≤ 32768 := by
  have hlt : (Config.freeWord s.draws 8191).toNat % 32769 < 32769 := Nat.mod_lt _ (by decide)
  show (BitVec.ofNat 32 ((Config.freeWord s.draws 8191).toNat % 32769)).toNat ≤ 32768
  rw [BitVec.toNat_ofNat]
  omega

/-- BUILD on written samples ends with BITPOS legal, in success or in BAD_RANGE (R250, R257). -/
theorem buildStage_ends (hpos : 1 ≤ count) (hcount : count ≤ 4)
    (hsamples : ∀ n : Fin 4, n.val < count → ∃ ws, Samples s n ws) (ext : Bool) (type : BitVec 8) :
    (buildStage count ext type s).Ends (fun t => t.bitpos.toNat ≤ 32768)
      (fun e t => FailsInBuild s count e t ∧ t.bitpos.toNat ≤ 32768) := by
  have hmessage := buildMessage_ends hcount hsamples ext type
  rcases buildStage_cases count ext type s with
    ⟨hbad, -⟩ | ⟨-, -, ⟨t, hm, e⟩ | ⟨err, t, hm, e⟩ | ⟨f, hm, e⟩⟩
  · omega
  all_goals rw [hm] at hmessage; rw [e]
  · exact hmessage
  · obtain ⟨herr, hmarks⟩ := hmessage
    exact ⟨⟨herr, hmarks.trans fun k hk => freeOutputs_coef_isSome count t hk⟩, freeOutputs_bitpos_le count t⟩
  · exact hmessage

end Build

/-- Settles O50: the frames of BUILD's effects, and how BUILD on written samples ends. -/
theorem buildOnWrittenSamplesAlwaysEnds : Obligations.BuildOnWrittenSamplesAlwaysEnds := by
  unfold Obligations.BuildOnWrittenSamplesAlwaysEnds
  intro s count ext type hpos hcount hsamples
  have hends := buildStage_ends hpos hcount hsamples ext type
  have hdata := (dataFrame_keptByEffects (fun n => n.val < count) s).buildStage_holds (count := count)
    (fun n => (mem_buildSlots hcount).1) ext type (dataFrame_refl _ s)
  have hcontrol := (statusAndControlKept_keptByEffects s fun _ => True).buildStage_holds (count := count)
    (fun _ _ => trivial) ext type ⟨rfl, controlKept_refl s⟩
  rw [exec_eq_finish, stageOf]
  cases hr : buildStage count ext type s with
  | done u =>
    rw [hr] at hends hdata hcontrol
    exact ⟨_, rfl, .inl (endsOk_complete s u hcontrol.1 hcontrol.2), hdata.mem, fun n hn => hdata.others n (by omega),
      hdata.position, hends⟩
  | error e u =>
    rw [hr] at hends hdata hcontrol
    obtain ⟨⟨rfl, hmarks⟩, hbitpos⟩ := hends
    refine ⟨_, rfl, .inr ⟨endsIn_complete .badRange s u hcontrol.1 hcontrol.2, ?_⟩, hdata.mem,
      fun n hn => hdata.others n (by omega), hdata.position, hbitpos⟩
    exact hmarks.imp_right fun ⟨hpos, hcoefs⟩ => ⟨by omega, hcoefs⟩
  | fault f =>
    rw [hr] at hends
    exact hends.elim

end Sys2Proof.Machine
end

section
/-! ### Legal words (R121, R122) -/

namespace Sys2Proof.Machine

/-- The decoder accepts exactly the words that some row of the opcode map matches (R122): its tests are those of the rows,
in their order. -/
theorem legalWord_iff {w : Word} : legalWord w = true ↔ ∃ i, decode w = .ok i := by
  have hall : w &&& 0xFFFFFFFF = w := BitVec.and_allOnes
  simp only [legalWord, opcodeMap, OpcodeRow.matches, List.any_cons, List.any_nil, Bool.or_eq_true, beq_iff_eq, hall]
  unfold decode
  repeat' split
  all_goals simp_all

end Sys2Proof.Machine
end

section
/-! ### The invariant of the data: memory, BITPOS, the stream's bytes and SERIAL (R41, R50, R82, R93) -/

namespace Sys2Proof.Machine

/-- Memory in canonical form that lists RAM offsets only (R82). -/
def MemOk (m : Memory) : Prop := m.wf ∧ ∀ c ∈ m, 0x1000 ≤ c.1 ∧ c.1 < 0x3800

theorem memOk_nil : MemOk [] := ⟨List.Pairwise.nil, by simp⟩

theorem memOk_store {m : Memory} {a : Nat} {bs : List Byte} (h : MemOk m) (hlo : 0x1000 ≤ a)
    (hhi : a + bs.length ≤ 0x3800) : MemOk (m.store a bs) := by
  refine ⟨store_wf h.1 a bs, fun c hc => ?_⟩
  rcases mem_store hc with hold | hnew
  · exact h.2 c hold
  · omega

theorem memOk_storeWords {m : Memory} {a : Nat} {ws : List Word} (h : MemOk m) (hlo : 0x1000 ≤ a)
    (hhi : a + 4 * ws.length ≤ 0x3800) : MemOk (m.storeWords a ws) :=
  memOk_store h hlo (by rwa [flatMap_wordBytes_length])

theorem memOk_freeRowbuf {m : Memory} (h : MemOk m) (draw : Nat) : MemOk (freeRowbuf draw m) :=
  memOk_storeWords h (by decide) (by rw [freeWords_length]; decide)

theorem memOk_freeTransform {m : Memory} (h : MemOk m) (draw : Nat) : MemOk (freeTransform draw m) :=
  memOk_storeWords (memOk_freeRowbuf h draw) (by decide) (by rw [freeWords_length]; decide)

theorem memOk_freeWrittenCoefs {m : Memory} (h : MemOk m) (draw : Nat) : MemOk (freeWrittenCoefs draw m) := by
  refine ⟨freeWrittenCoefs_wf h.1, fun c hc => ?_⟩
  obtain ⟨b, hb⟩ := mem_refresh hc
  exact h.2 (c.1, b) hb

theorem memOk_freeStream {m : Memory} (h : MemOk m) (draw : Nat) : MemOk (freeStream draw m) :=
  memOk_store h (by decide) (by rw [freeBytes_length]; decide)

theorem memOk_transformPasses {s : State} (h : MemOk s.mem) : MemOk (transformPasses s).mem := by
  rw [transformPasses_mem]
  exact memOk_storeWords (memOk_storeWords h (by decide) (by rw [rowPass_length]; decide)) (by decide)
    (by rw [columnPass_length]; decide)

/-- An aborted command leaves memory in canonical form (R292). -/
theorem memOk_softResetMemory {s : State} (h : MemOk s.mem) : MemOk (softResetMemory s) := by
  unfold softResetMemory
  split
  · split
    next i _ =>
      cases i with
      | nop | prescan _ | sclr => exact h
      | transform _ => exact memOk_freeTransform h _
      | hdrenc _ _ | coefenc _ | ghdr _ | term => exact memOk_freeStream h _
      | build _ _ _ => exact memOk_freeStream (memOk_freeTransform h _) _
    next => exact h
  · exact h

/-- Every byte of the stream holds a value (R93). -/
def StreamWritten (s : State) : Prop := ∀ i, i < streamLen s → (s.mem.load (streamBase + i)).isSome = true

/-- The part of the invariant about the data. -/
structure DataInv (s : State) : Prop where
  memOk : MemOk s.mem
  bitposLegal : s.bitpos.toNat ≤ 32768
  streamWritten : StreamWritten s
  serialNonzero : ∀ n, (s.slot n).serial ≠ 0

/-- The data invariant reads memory, BITPOS and the SERIALs only. -/
theorem DataInv.of_eq {s t : State} (h : DataInv s) (hmem : t.mem = s.mem) (hbitpos : t.bitpos = s.bitpos)
    (hserial : ∀ n, (t.slot n).serial = (s.slot n).serial) : DataInv t where
  memOk := hmem ▸ h.memOk
  bitposLegal := hbitpos ▸ h.bitposLegal
  streamWritten := by
    unfold StreamWritten streamLen
    rw [hmem, hbitpos]
    exact h.streamWritten
  serialNonzero n := hserial n ▸ h.serialNonzero n

/-- An empty stream needs no byte written. -/
theorem streamWritten_of_bitpos_zero {s : State} (h : s.bitpos = 0) : StreamWritten s := by
  intro i hi
  unfold streamLen at hi
  rw [h] at hi
  exact absurd hi (Nat.not_lt_zero i)

/-- A change of memory outside the stream buffer keeps the data invariant. -/
theorem DataInv.of_mem {s t : State} (h : DataInv s) (hmem : MemOk t.mem)
    (hstream : ∀ a, 0x2000 ≤ a → a < 0x3000 → t.mem.load a = s.mem.load a) (hbitpos : t.bitpos = s.bitpos)
    (hserial : ∀ n, (t.slot n).serial ≠ 0) : DataInv t where
  memOk := hmem
  bitposLegal := hbitpos ▸ h.bitposLegal
  streamWritten i hi := by
    have hlegal := h.bitposLegal
    unfold streamLen at hi
    rw [hbitpos] at hi
    rw [hstream _ (by unfold streamBase; omega) (by unfold streamBase; omega)]
    exact h.streamWritten i hi
  serialNonzero := hserial

/-- The bytes of the stream after an append are old ones or stored by it (R89). -/
theorem streamWritten_appendBits {s : State} {bits : List Bool} (h : StreamWritten s)
    (hfit : s.bitpos.toNat + bits.length ≤ 32768) : StreamWritten (appendBits bits s) := by
  intro i hi
  unfold streamLen at hi
  rw [appendBits_bitpos_toNat (by omega)] at hi
  unfold appendBits
  simp only [load_store, packBytes_length, List.length_append, List.length_map, List.length_range]
  split
  · rw [List.getElem?_eq_getElem]
    · rfl
    · simp only [packBytes_length, List.length_append, List.length_map, List.length_range]
      omega
  · exact h i (by unfold streamLen; omega)

theorem dataInv_keptByEffects (slots : Fin 4 → Prop) : KeptByEffects DataInv slots where
  engine _ _ h := h.of_eq rfl rfl fun _ => rfl
  draws _ _ h := h.of_eq rfl rfl fun _ => rfl
  slot s n f _ hf h := by
    refine h.of_eq rfl rfl fun k => ?_
    rw [updateSlot_slot]
    split
    · exact (hf _).2.2
    · rfl
  passes s h := h.of_mem (memOk_transformPasses h.memOk) (fun a _ hhi => transformPasses_load_outside (.inl hhi)) rfl
    h.serialNonzero
  clear s h := ⟨h.memOk, Nat.zero_le _, streamWritten_of_bitpos_zero rfl, h.serialNonzero⟩
  append s bits hfit h := by
    refine ⟨memOk_store h.memOk ?_ ?_, ?_, streamWritten_appendBits h.streamWritten hfit, h.serialNonzero⟩
    · unfold streamBase
      omega
    · simp only [packBytes_length, List.length_append, List.length_map, List.length_range, streamBase]
      omega
    · rwa [appendBits_bitpos_toNat (by omega)]
  free s count _ h := by
    obtain ⟨-, -, -, hslots⟩ := freeOutputs_kept count s
    have hbitpos := freeOutputs_bitpos_le count s
    refine ⟨memOk_freeStream (memOk_freeWrittenCoefs (memOk_freeRowbuf h.memOk _) _) _, hbitpos, fun i hi => ?_,
      fun k => ?_⟩
    · unfold streamLen at hi
      exact freeStream_written (by omega)
    · obtain ⟨-, -, hserial, -⟩ := hslots k
      rw [hserial]
      exact h.serialNonzero k

theorem dataInv_of_reset {s : State} (hmem : MemOk s.mem) (hbitpos : s.bitpos = 0)
    (hslot : ∀ n, s.slot n = Slot.reset) : DataInv s where
  memOk := hmem
  bitposLegal := by rw [hbitpos]; decide
  streamWritten := streamWritten_of_bitpos_zero hbitpos
  serialNonzero n := by rw [hslot n]; decide

end Sys2Proof.Machine
end

section
/-! ### The invariant of STATUS, CMD and the engine (R35, R37, R39, R121, R261) -/

namespace Sys2Proof.Machine

/-- ECODE is a code that is produced, and nonzero exactly when ERR is 1 (R37, R261). -/
def StatusOk (t : Status) : Prop := t.ecode.toNat ≤ 4 ∧ (t.err = true ↔ t.ecode ≠ 0)

/-- While BUSY = 1 the engine runs the legal word in CMD, else it is idle (R35, R39, R58, R121). -/
def EngineOk (s : State) : Prop :=
  (s.status.busy = true → s.engine.command = s.cmd ∧ legalWord s.cmd = true) ∧
    (s.status.busy = false → s.engine = Engine.idle)

theorem inv_iff {s : State} : Inv s ↔ DataInv s ∧ StatusOk s.status ∧ EngineOk s := by
  constructor
  · intro h
    exact ⟨⟨⟨h.memWf, h.memInRam⟩, h.bitposLegal, h.streamDefined, h.serialNonzero⟩, ⟨h.ecodeLegal, h.errIffCode⟩,
      h.busyRuns, h.idleEngine⟩
  · rintro ⟨hdata, ⟨hcode, herr⟩, hbusy, hidle⟩
    obtain ⟨hwf, hram⟩ := hdata.memOk
    exact ⟨hwf, hram, hdata.bitposLegal, hdata.streamWritten, hdata.serialNonzero, hcode, herr, hbusy, hidle⟩

theorem statusOk_reset : StatusOk Status.reset := ⟨by decide, by decide⟩

theorem statusOk_complete_none {t : Status} (h : StatusOk t) : StatusOk (t.complete none) := h

/-- The codes 1 to 4 are the ones ever produced; SHAPE is reserved (R261, R267). -/
theorem statusOk_complete_some (t : Status) {e : CmdError} (h : e ≠ .shape) : StatusOk (t.complete (some e)) := by
  unfold StatusOk
  rw [complete_some_err, complete_some_ecode]
  cases e with
  | shape => exact absurd rfl h
  | _ => decide

theorem statusOk_clear {t : Status} (h : StatusOk t) (v : Word) : StatusOk (t.clear v) := by
  unfold StatusOk Status.clear at *
  cases v.getLsbD 2
  · simpa using h
  · simp

theorem engineOk_of_idle {s : State} (hbusy : s.status.busy = false) (hidle : s.engine = Engine.idle) : EngineOk s :=
  ⟨fun h => absurd h (by simp [hbusy]), fun _ => hidle⟩

theorem EngineOk.of_eq {s t : State} (h : EngineOk s) (hbusy : t.status.busy = s.status.busy) (hcmd : t.cmd = s.cmd)
    (hengine : t.engine = s.engine) : EngineOk t := by
  unfold EngineOk
  rw [hbusy, hcmd, hengine]
  exact h

theorem engineOk_complete (result : Option CmdError) (s : State) : EngineOk (complete result s) := by
  refine engineOk_of_idle ?_ rfl
  cases result <;> rfl

end Sys2Proof.Machine
end

section
/-! ### Every turn keeps the invariant -/

namespace Sys2Proof.Machine

/-- The turns to come, the read data, IE and the draw counter play no part in the invariant. -/
theorem Inv.of_eq {s t : State} (h : Inv s) (hslots : t.slots = s.slots) (hmem : t.mem = s.mem)
    (hbitpos : t.bitpos = s.bitpos) (hstatus : t.status = s.status) (hcmd : t.cmd = s.cmd)
    (hengine : t.engine = s.engine) : Inv t := by
  obtain ⟨hdata, hok, hrun⟩ := inv_iff.1 h
  exact inv_iff.2 ⟨hdata.of_eq hmem hbitpos fun n => by rw [slots_eq_iff.1 hslots n], hstatus ▸ hok,
    hrun.of_eq (by rw [hstatus]) hcmd hengine⟩

theorem Inv.withSchedule {s : State} (h : Inv s) (rest : List Turn) : Inv { s with schedule := rest } :=
  h.of_eq rfl rfl rfl rfl rfl rfl

/-- The completion step keeps the invariant, with each error that is ever raised (R263). -/
theorem inv_complete {s : State} (hdata : DataInv s) (hstatus : StatusOk s.status) {result : Option CmdError}
    (h : ∀ e ∈ result, e ≠ .shape) : Inv (complete result s) := by
  refine inv_iff.2 ⟨hdata.of_eq rfl rfl fun _ => rfl, ?_, engineOk_complete result s⟩
  cases result with
  | none => exact statusOk_complete_none hstatus
  | some e => exact statusOk_complete_some _ (h e rfl)

/-- Every command keeps the invariant. -/
theorem inv_exec {i : Instr} {s t : State} (h : Inv s) (ht : exec i s = .next t) : Inv t := by
  obtain ⟨hdata, hstatus, -⟩ := inv_iff.1 h
  obtain ⟨u, ⟨hu, hkeep, -⟩, hend⟩ :=
    exec_eq_next ((dataInv_keptByEffects _).and (statusAndControlKept_keptByEffects s _))
      ⟨hdata, rfl, controlKept_refl s⟩ ht
  rcases hend with rfl | ⟨e, he, rfl⟩
  · exact inv_complete hu (hkeep ▸ hstatus) (by simp)
  · refine inv_complete hu (hkeep ▸ hstatus) fun e' he' => ?_
    cases he'
    rintro rfl
    exact absurd he (by decide)

theorem inv_powerOnReset (s : State) : Inv (powerOnReset s) :=
  inv_iff.2 ⟨dataInv_of_reset memOk_nil rfl (powerOnReset_slot s), statusOk_reset, engineOk_of_idle rfl rfl⟩

theorem inv_softReset {s : State} (h : DataInv s) : Inv (softReset s) :=
  inv_iff.2 ⟨dataInv_of_reset (memOk_softResetMemory h.memOk) rfl (softReset_slot s), statusOk_reset,
    engineOk_of_idle rfl rfl⟩

/-- An accepted word is legal, and a rejected one ends at once (R121, R262). -/
theorem inv_issue {s : State} (h : Inv s) (w : Word) : Inv (issue w s) := by
  obtain ⟨hdata, hstatus, -⟩ := inv_iff.1 h
  rcases issue_cases w s with ⟨i, hi, e⟩ | ⟨_, -, e⟩ <;> rw [e]
  · exact inv_iff.2 ⟨hdata.of_eq rfl rfl fun _ => rfl, hstatus, fun _ => ⟨rfl, legalWord_iff.2 ⟨i, hi⟩⟩, nofun⟩
  · exact inv_complete (s := { s with cmd := w }) (hdata.of_eq rfl rfl fun _ => rfl) hstatus (by simp)

theorem slotRegWrite_serial_ne_zero (v : Word) {r : Slot} (h : r.serial ≠ 0) (reg : SlotReg) :
    (slotRegWrite v r reg).serial ≠ 0 := by
  cases reg with
  | serial =>
    show (if v = 0 then 1 else v) ≠ 0
    split
    · decide
    · assumption
  | _ => exact h

theorem nextSerial_ne_zero (v : Word) : nextSerial v ≠ 0 := by
  unfold nextSerial
  split
  · decide
  · bv_omega

/-- A change of one slot's registers keeps every SERIAL nonzero where the new one is. -/
theorem updateSlot_serial_ne_zero {s : State} (h : ∀ k, (s.slot k).serial ≠ 0) {n : Fin 4} {f : Slot → Slot}
    (hf : ∀ r : Slot, r.serial ≠ 0 → (f r).serial ≠ 0) (k : Fin 4) : ((s.updateSlot n f).slot k).serial ≠ 0 := by
  rw [updateSlot_slot]
  split
  · exact hf _ (h k)
  · exact h k

/-- A write that the block accepts outside the control registers keeps the data invariant (R50, R51, R53, R54). -/
theorem dataInv_writeLoc {s : State} (h : DataInv s) (v : Word) (o : Offset) : DataInv (writeLoc v (locate o) s) := by
  rcases writeLoc_cases v (locate o) s with ⟨n, reg, -, e⟩ | ⟨n, k, hloc, e⟩ | ⟨k, hloc, e⟩ | e <;> rw [e]
  · exact h.of_mem h.memOk (fun _ _ _ => rfl) rfl
      (updateSlot_serial_ne_zero h.serialNonzero fun r hr => slotRegWrite_serial_ne_zero v hr reg)
  · have hk := locate_sample_lt hloc
    have hn := n.isLt
    have hserial : DataInv (s.updateSlot n fun x => { x with serial := nextSerial x.serial }) :=
      h.of_mem h.memOk (fun _ _ _ => rfl) rfl
        (updateSlot_serial_ne_zero h.serialNonzero fun r _ => nextSerial_ne_zero r.serial)
    refine hserial.of_mem (memOk_storeWords h.memOk ?_ ?_) (fun a hlo _ => load_storeWords_outside (.inr ?_)) rfl
      hserial.serialNonzero
    all_goals simp only [sampleBase, List.length_singleton]; omega
  · have hk := locate_coef_lt hloc
    refine h.of_mem (memOk_storeWords h.memOk ?_ ?_) (fun a _ hhi => load_storeWords_outside (.inl ?_)) rfl
      h.serialNonzero
    all_goals simp only [coefBase, List.length_singleton]; omega
  · exact h

/-- Every host write keeps the invariant. -/
theorem inv_hostWrite {s : State} (h : Inv s) (v : Word) (o : Offset) : Inv (hostWrite v (locate o) s) := by
  obtain ⟨hdata, hstatus, hrun⟩ := inv_iff.1 h
  rcases hostWrite_cases v (locate o) s with ⟨-, -, e⟩ | ⟨-, -, e⟩ | ⟨-, e⟩ | ⟨-, -, e⟩ | ⟨-, -, e⟩ | ⟨-, -, -, -, e⟩ |
    ⟨-, -, -, -, e⟩ <;> rw [e]
  · exact inv_softReset hdata
  · exact h.of_eq rfl rfl rfl rfl rfl rfl
  · exact inv_iff.2 ⟨hdata.of_eq rfl rfl fun _ => rfl, statusOk_clear hstatus v, hrun.of_eq rfl rfl rfl⟩
  · exact inv_iff.2 ⟨hdata.of_eq rfl rfl fun _ => rfl, hstatus, hrun.of_eq rfl rfl rfl⟩
  · exact inv_issue h v
  · exact inv_iff.2 ⟨hdata.of_eq rfl rfl fun _ => rfl, hstatus, hrun.of_eq rfl rfl rfl⟩
  · refine inv_iff.2 ⟨dataInv_writeLoc hdata v o, ?_⟩
    rcases writeLoc_cases v (locate o) s with ⟨n, reg, -, e⟩ | ⟨n, k, -, e⟩ | ⟨k, -, e⟩ | e <;> rw [e] <;>
      exact ⟨hstatus, hrun⟩

/-- Settles O53: each kind of turn keeps the invariant. -/
theorem everyStepKeepsTheInvariant : Obligations.EveryStepKeepsTheInvariant := by
  unfold Obligations.EveryStepKeepsTheInvariant
  intro s t h ht
  rcases step_cases s with ⟨u, hu, hturn⟩ | ⟨rest, -, e⟩ | ⟨a, rest, -, e⟩ | ⟨n, rest, -, e⟩
  · have hinv : Inv u := by
      rcases hu with ⟨rfl, -⟩ | ⟨rest, -, rfl⟩
      · exact h
      · exact h.withSchedule rest
    rcases hturn with ⟨-, e⟩ | ⟨-, i, -, e⟩ | ⟨-, _, -, e⟩ <;> rw [e] at ht
    · cases ht
      exact hinv
    · exact inv_exec hinv ht
    · cases ht
      obtain ⟨hdata, hstatus, -⟩ := inv_iff.1 hinv
      exact inv_complete hdata hstatus (by simp)
  · rw [e] at ht
    cases ht
    exact inv_powerOnReset _
  · rw [e] at ht
    have hinv := h.withSchedule rest
    rcases hostAccess_cases a { s with schedule := rest } with
      ⟨-, ea⟩ | ⟨-, -, ea⟩ | ⟨-, -, -, ea⟩ | ⟨-, -, v, -, ea⟩ <;> rw [ea] at ht <;> cases ht
    · exact hinv.of_eq rfl rfl rfl rfl rfl rfl
    · exact inv_hostWrite hinv v a.offset
  · rw [e] at ht
    cases ht
    exact h.of_eq rfl rfl rfl rfl rfl rfl

end Sys2Proof.Machine
end

section
/-! ### One aligned read or write of a register (R34, R38 to R42, R87, R99) -/

namespace Sys2Proof.Machine

theorem locate_status : locate 0x0004 = .status := locate_control.2.1.2 rfl
theorem locate_cmd : locate 0x0008 = .cmd := locate_control.2.2.2 rfl
theorem locate_bitpos : locate 0x000C = .bitpos := rfl
theorem locate_streamlen : locate 0x0010 = .streamlen := rfl

section Access
variable {s : State} {o : Offset} {l : Loc} {v : Word} {rest : List Turn}

/-- The step of a host read where the value is stated: BUSY = 0, or a location that no command writes (R87, R99). -/
theorem step_reads (ho : o.toNat % 4 = 0) (hloc : locate o = l)
    (hstated : s.status.busy = false ∨ l.commandWrites = false)
    (h : s.schedule = .host { offset := o, width := 4, kind := .read } :: rest) :
    step s = .next { s with schedule := rest, rdata := locValue s l, draws := s.draws + 1 } := by
  have hvalue : readValue { s with schedule := rest } l = locValue s l := by
    rcases hstated with hidle | hfixed
    · rw [readValue_of_idle (s := { s with schedule := rest }) l hidle]
      cases l <;> rfl
    · rw [readValue_of_not_commandWrites _ hfixed]
      cases l <;> rfl
  rw [step_of_host_read ho h, hloc, hostRead, hvalue]

/-- The step of a host write while BUSY = 0, to any location but CTRL, STATUS and CMD. -/
theorem step_writes (ho : o.toNat % 4 = 0) (hloc : locate o = l) (hidle : s.status.busy = false) (hctrl : l ≠ .ctrl)
    (hstatus : l ≠ .status) (hcmd : l ≠ .cmd)
    (h : s.schedule = .host { offset := o, width := 4, kind := .write v } :: rest) :
    step s = .next (writeLoc v l { s with schedule := rest }) := by
  rw [step_of_host_write ho h, hloc, hostWrite_of_idle (s := { s with schedule := rest }) v hidle hctrl hstatus hcmd]

end Access

/-- Settles O7: a legal word decodes, so the write to CMD latches it. -/
theorem legalCommandIsAccepted : Obligations.LegalCommandIsAccepted := by
  unfold Obligations.LegalCommandIsAccepted
  intro s w rest hidle hlegal h
  obtain ⟨i, hi⟩ := legalWord_iff.1 hlegal
  have hstep : step s = .next (issue w { s with schedule := rest }) := by
    rw [step_of_host_write (by decide) h, locate_cmd, hostWrite, hidle]
    rfl
  rcases issue_cases w { s with schedule := rest } with ⟨_, -, e⟩ | ⟨_, he, -⟩
  · rw [e] at hstep
    exact ⟨_, hstep, rfl, rfl, rfl, ⟨rfl, rfl, rfl, rfl⟩, rfl, rfl, rfl⟩
  · rw [hi] at he
    cases he

/-- Settles O9: of the cases of a host write, those at BUSY = 1. -/
theorem busyWritesAreDropped : Obligations.BusyWritesAreDropped := by
  unfold Obligations.BusyWritesAreDropped
  intro s o v rest hbusy h ho hctrl hstatus
  obtain ⟨hctrl', hstatus', hcmd'⟩ := locate_control (o := o)
  rw [step_of_host_write ho h]
  rcases hostWrite_cases v (locate o) { s with schedule := rest } with ⟨hl, -⟩ | ⟨hl, -⟩ | ⟨hl, -⟩ | ⟨hl, -, e⟩ |
    ⟨-, hidle, -⟩ | ⟨-, -, hl, -, e⟩ | ⟨-, -, -, hidle, -⟩
  · exact absurd (hctrl'.1 hl) hctrl
  · exact absurd (hctrl'.1 hl) hctrl
  · exact absurd (hstatus'.1 hl) hstatus
  · rw [e, if_pos (hcmd'.1 hl)]
  · exact absurd (hbusy.symm.trans hidle) (by decide)
  · rw [e, if_neg (mt hcmd'.2 hl)]
  · exact absurd (hbusy.symm.trans hidle) (by decide)

/-- Settles O12: a write to STATUS is `Status.clear` of its bits. -/
theorem statusWriteClearsOnlyTheWrittenOnes : Obligations.StatusWriteClearsOnlyTheWrittenOnes := by
  unfold Obligations.StatusWriteClearsOnlyTheWrittenOnes
  intro s v rest h
  have hstep : step s = .next (clearStatus v { s with schedule := rest }) := by
    rw [step_of_host_write (by decide) h, locate_status, hostWrite]
  exact ⟨_, hstep, rfl, rfl, rfl, rfl, rfl, rfl, rfl⟩

theorem ofNat_streamLen {s : State} (h : s.bitpos.toNat ≤ 32768) :
    BitVec.ofNat 32 (streamLen s) = (s.bitpos + 7) >>> 3 := by
  apply BitVec.eq_of_toNat_eq
  unfold streamLen
  rw [BitVec.toNat_ofNat, BitVec.toNat_ushiftRight, BitVec.toNat_add, show (7 : Word).toNat = 7 from rfl,
    Nat.shiftRight_eq_div_pow]
  omega

/-- Settles O22: reads of three registers, the last two stated while BUSY = 0. -/
theorem cmdBitposAndStreamlenRead : Obligations.CmdBitposAndStreamlenRead := by
  unfold Obligations.CmdBitposAndStreamlenRead
  intro s rest
  refine ⟨fun h => ?_, fun hidle h => ?_, fun hidle hlegal h => ?_⟩
  · exact ⟨_, step_reads (by decide) locate_cmd (.inr rfl) h, rfl⟩
  · exact ⟨_, step_reads (by decide) locate_bitpos (.inl hidle) h, rfl⟩
  · exact ⟨_, step_reads (by decide) locate_streamlen (.inl hidle) h, ofNat_streamLen hlegal, rfl⟩

end Sys2Proof.Machine
end

section
/-! ### STATUS as the host reads it, and WAIT (R34, R128) -/

namespace Sys2Proof.Machine

theorem toWord_getLsbD (t : Status) {i : Nat} (h : i < 32) : t.toWord.getLsbD i =
    if i = 0 then t.busy else if i = 1 then t.done else if i = 2 then t.err else if i = 3 then t.wdrop
    else if i = 4 then t.cdrop else if 8 ≤ i ∧ i < 12 then t.ecode.getLsbD (i - 8) else false := by
  unfold Status.toWord
  interval_cases i <;> simp

theorem toWord_getLsbD_zero (t : Status) : t.toWord.getLsbD 0 = t.busy := toWord_getLsbD t (by decide)

/-- The turns after a pass of WAIT, from the BUSY that it read (R128). -/
theorem waitTurns_eq (busy : Bool) (n : Nat) (rest : List Turn) : waitTurns busy n rest =
    if busy = false then rest else if n = 0 then .engine :: .poll 0 :: rest else .poll (n - 1) :: rest := by
  cases busy with
  | false => rfl
  | true => cases n <;> rfl

/-- STATUS is a location that no command writes in the sense of R99. -/
theorem readValue_status (s : State) : readValue s .status = s.status.toWord := readValue_of_not_commandWrites s rfl

theorem hostPoll_schedule (n : Nat) (s : State) : (hostPoll n s).schedule = waitTurns s.status.busy n s.schedule := by
  rw [← toWord_getLsbD_zero, ← readValue_status]
  rfl

/-- A pass of WAIT is the read of STATUS but for the turns to come (R128). -/
theorem step_of_poll {s : State} {n : Nat} {rest : List Turn} (h : s.schedule = .poll n :: rest) :
    step s = .next (hostPoll n { s with schedule := rest }) := by
  unfold step
  rw [h]

/-- Settles O13: the bits of `Status.toWord`, which the read and the pass both give. -/
theorem statusReadsAndWaitPolls : Obligations.StatusReadsAndWaitPolls := by
  unfold Obligations.StatusReadsAndWaitPolls
  intro s rest
  refine ⟨fun h => ?_, fun n h => ?_⟩
  · exact ⟨_, step_reads (by decide) locate_status (.inr rfl) h, rfl, fun i hi => toWord_getLsbD s.status hi⟩
  · refine ⟨_, step_of_poll h, ?_, ?_, ?_⟩
    · rw [step_of_host_read (by decide) rfl, locate_status]
      rfl
    · rw [hostPoll_rdata, readValue_status, toWord_getLsbD_zero]
    · rw [hostPoll_schedule, waitTurns_eq]

end Sys2Proof.Machine
end

section
/-! ### The ROMs and the locations that ignore writes (R57, R84) -/

namespace Sys2Proof.Machine

/-- Settles O20: each ROM offset is the location of its table's entry. -/
theorem romsReadAsTheTables : Obligations.RomsReadAsTheTables := by
  unfold Obligations.RomsReadAsTheTables
  intro s j i rest hj hi
  have hk : 16 * j + i < 256 := by omega
  have hrow : (16 * j + i) / 16 = j := by omega
  have hcolumn : (16 * j + i) % 16 = i := by omega
  have haligned : ∀ base, base % 4 = 0 → base < 0x5000 → (BitVec.ofNat 16 (base + 4 * (16 * j + i))).toNat % 4 = 0 :=
    fun base h4 hlt => by rw [offset_toNat (by omega)]; omega
  have hentry := zigAt_lt hj hi
  refine ⟨fun h => ⟨_, step_reads (haligned _ rfl (by decide)) (locate_cos hk) (.inr rfl) h, ?_⟩,
    fun h => ⟨_, step_reads (haligned _ rfl (by decide)) (locate_qnt hk) (.inr rfl) h, ?_⟩,
    fun h => ⟨_, step_reads (haligned _ rfl (by decide)) (locate_deq hk) (.inr rfl) h, ?_⟩,
    fun h => ⟨_, step_reads (haligned _ rfl (by decide)) (locate_zig hk) (.inr rfl) h, ?_⟩⟩ <;>
    simp only [locValue, hrow, hcolumn]
  rw [BitVec.toNat_ofNat]
  omega

/-- The locations that a host write never changes, reserved ones aside (R84). -/
def Loc.readOnly : Loc → Bool
  | .bitpos | .streamlen | .slotReg _ .patchids | .stream _ | .rowbuf _ | .cos _ | .qnt _ | .deq _ | .zig _ => true
  | _ => false

/-- Writing PATCHIDS writes nothing (R49). -/
theorem updateSlot_id (s : State) (n : Fin 4) : (s.updateSlot n fun r => r) = s := by
  rw [State.updateSlot, State.slot]
  exact congrArg (fun x => { s with slots := x }) (Vector.set_getElem_self _)

theorem step_writes_readOnly {s : State} {o : Offset} {v : Word} {rest : List Turn} (ho : o.toNat % 4 = 0)
    (hidle : s.status.busy = false) (hloc : (locate o).readOnly = true)
    (h : s.schedule = .host { offset := o, width := 4, kind := .write v } :: rest) :
    step s = .next { s with schedule := rest } := by
  have hne : ∀ l : Loc, l.readOnly = false → locate o ≠ l := by
    rintro l hl rfl
    rw [hl] at hloc
    cases hloc
  rw [step_writes ho rfl hidle (hne _ rfl) (hne _ rfl) (hne _ rfl) h]
  rcases writeLoc_cases v (locate o) { s with schedule := rest } with ⟨n, r, hl, e⟩ | ⟨n, k, hl, -⟩ | ⟨k, hl, -⟩ | e
  · rw [hl] at hloc
    cases r with
    | patchids => rw [e]; exact congrArg _ (updateSlot_id _ n)
    | _ => cases hloc
  · exact absurd hl (hne _ rfl)
  · exact absurd hl (hne _ rfl)
  · rw [e]

section Locate
variable {o : Offset}

theorem locate_readOnly_patchids (hlo : 0x0100 ≤ o.toNat) (hhi : o.toNat < 0x0180) (h : o.toNat % 0x20 = 0x14) :
    (locate o).readOnly = true := by
  rw [locate, if_pos (by omega), locateRegister, if_neg (by omega), if_pos hlo, h]
  rfl

theorem locate_readOnly_stream (hlo : 0x2000 ≤ o.toNat) (hhi : o.toNat < 0x3000) : (locate o).readOnly = true := by
  rw [locate, if_neg (by omega), if_pos (by omega), locateRam, if_neg (by omega), if_pos hhi]
  rfl

theorem locate_readOnly_rom (hlo : 0x4000 ≤ o.toNat) (hhi : o.toNat < 0x5000) : (locate o).readOnly = true := by
  rw [locate, if_neg (by omega), if_neg (by omega), locateRom]
  repeat' split
  all_goals rfl

end Locate

/-- Settles O16: the locations of the listed ranges are read-only ones. -/
theorem readOnlyLocationsIgnoreWrites : Obligations.ReadOnlyLocationsIgnoreWrites := by
  unfold Obligations.ReadOnlyLocationsIgnoreWrites
  intro s o v rest hidle ho hrange h
  refine step_writes_readOnly ho hidle ?_ h
  rcases hrange with rfl | rfl | ⟨hlo, hhi, hmod⟩ | ⟨hlo, hhi⟩ | ⟨hlo, hhi⟩ | ⟨hlo, hhi⟩
  · rfl
  · rfl
  · exact locate_readOnly_patchids hlo hhi hmod
  · exact locate_readOnly_stream hlo hhi
  · obtain ⟨k, hloc, -⟩ := exists_locate_rowbuf ho hlo hhi
    rw [hloc]
    rfl
  · exact locate_readOnly_rom hlo hhi

end Sys2Proof.Machine
end

section
/-! ### Slot registers and the sample RAM (R43 to R53) -/

namespace Sys2Proof.Machine

/-- The registers of a slot after a host write to word `k` of its set (R43 to R52). -/
theorem slotRegWrite_slotRegAt (v : Word) (r : Slot) {k : Nat} (h : k < 8) : slotRegWrite v r (slotRegAt k) =
    if k = 0 then { r with posx := v.extractLsb' 0 16 }
    else if k = 1 then { r with posy := v.extractLsb' 0 16 }
    else if k = 2 then { r with qwb := v.extractLsb' 0 8 }
    else if k = 3 then { r with dcoff := v }
    else if k = 4 then { r with range := v }
    else if k = 6 then { r with serial := if v = 0 then 1 else v }
    else r := by
  rw [← BitVec.setWidth_eq_extractLsb' (w := 16) (by decide), ← BitVec.setWidth_eq_extractLsb' (w := 8) (by decide)]
  interval_cases k <;> rfl

/-- The value of word `k` of a slot's set (R43 to R50). -/
theorem slotRegValue_slotRegAt (r : Slot) {k : Nat} (h : k < 8) : slotRegValue r (slotRegAt k) =
    if k = 0 then r.posx.setWidth 32
    else if k = 1 then r.posy.setWidth 32
    else if k = 2 then r.qwb.setWidth 32
    else if k = 3 then r.dcoff
    else if k = 4 then r.range
    else if k = 5 then r.patchids
    else if k = 6 then r.serial
    else 0 := by
  interval_cases k <;> rfl

/-- No command writes POSX, POSY, SERIAL or the reserved word (R99). -/
theorem slotReg_not_commandWrites (n : Fin 4) {k : Nat} (h : k = 0 ∨ k = 1 ∨ k = 6 ∨ k = 7) :
    (Loc.slotReg n (slotRegAt k)).commandWrites = false := by
  rcases h with rfl | rfl | rfl | rfl <;> rfl

/-- Settles O17: word `k` of slot set `n` is a register of that slot, at one location for writes and reads. -/
theorem slotRegistersStoreAndReadBack : Obligations.SlotRegistersStoreAndReadBack := by
  unfold Obligations.SlotRegistersStoreAndReadBack
  intro s n k v rest hk
  have hn := n.isLt
  have ho : (BitVec.ofNat 16 (0x0100 + 0x20 * n.val + 4 * k)).toNat % 4 = 0 := by
    rw [offset_toNat (by omega)]
    omega
  have hloc := locate_slotReg n hk
  refine ⟨fun hidle h => ?_, fun h => ?_⟩
  · refine ⟨_, step_writes ho hloc hidle (by simp) (by simp) (by simp) h, rfl, fun j hj => ?_, ?_⟩
    · exact updateSlot_slot_ne { s with schedule := rest } _ hj
    · exact (updateSlot_slot_self { s with schedule := rest } n _).trans (slotRegWrite_slotRegAt v (s.slot n) hk)
  · have hread := step_of_host_read ho h
    refine ⟨_, hread, rfl, fun hstated => ?_⟩
    have hvalue := step_reads ho hloc (hstated.imp_right (slotReg_not_commandWrites n)) h
    rw [hread, Host.Outcome.next.injEq] at hvalue
    rw [hvalue]
    exact slotRegValue_slotRegAt (s.slot n) hk

/-- Settles O18: the location of a sample word, the store law, and SERIAL counted in the same write. -/
theorem sampleWriteStoresAndCounts : Obligations.SampleWriteStoresAndCounts := by
  unfold Obligations.SampleWriteStoresAndCounts
  intro s n k v rest hidle hk h
  have hn := n.isLt
  have ho : (BitVec.ofNat 16 (0x1000 + 0x400 * n.val + 4 * k)).toNat % 4 = 0 := by
    rw [offset_toNat (by omega)]
    omega
  refine ⟨_, step_writes ho (locate_sample n hk) hidle (by simp) (by simp) (by simp) h, rfl, fun j hj => ?_, ?_,
    loadWord_storeWords_singleton _ _ _, fun a ha => load_storeWords_outside ha⟩
  · exact updateSlot_slot_ne s (fun x => { x with serial := nextSerial x.serial }) hj
  · exact updateSlot_slot_self s n fun x => { x with serial := nextSerial x.serial }

end Sys2Proof.Machine
end

section
/-! ### The host's accesses: which are refused, and what a read and a dropped write leave as it is (R81, R83, R87, R98) -/

namespace Sys2Proof.Machine

theorem step_of_host {s : State} {a : Access} {rest : List Turn} (h : s.schedule = .host a :: rest) :
    step s = hostAccess a { s with schedule := rest } := by
  unfold step
  rw [h]

/-- Settles O23: the two refusing cases of a host access are those of its width and of its offset. -/
theorem narrowAndMisalignedAccessesAreRefused : Obligations.NarrowAndMisalignedAccessesAreRefused := by
  unfold Obligations.NarrowAndMisalignedAccessesAreRefused
  intro s a rest h
  rw [step_of_host h]
  rcases hostAccess_cases a { s with schedule := rest } with
    ⟨hwidth, e⟩ | ⟨-, hoffset, e⟩ | ⟨hwidth, hoffset, -, e⟩ | ⟨hwidth, hoffset, v, -, e⟩ <;> rw [e]
  · exact ⟨fun _ => .inl hwidth, fun _ => ⟨_, rfl⟩⟩
  · exact ⟨fun _ => .inr hoffset, fun _ => ⟨_, rfl⟩⟩
  · simp [hwidth, hoffset]
  · simp [hwidth, hoffset]

/-- Settles O14: an aligned read is `hostRead`, which sets the read data and the draw counter. -/
theorem hostReadHasNoSideEffect : Obligations.HostReadHasNoSideEffect := by
  unfold Obligations.HostReadHasNoSideEffect
  intro s o rest ho h
  exact ⟨_, step_of_host_read ho h, rfl⟩

/-! #### While a command runs (R98, R302) -/

/-- What the running command reads, the command itself and BUSY are as before (R98). -/
def SnapshotKept (s t : State) : Prop :=
  t.slots = s.slots ∧ t.mem = s.mem ∧ t.bitpos = s.bitpos ∧ t.engine = s.engine ∧ t.cmd = s.cmd ∧
    t.status.busy = s.status.busy

/-- While BUSY = 1 a host write that is no soft reset reaches only IE and the flags of STATUS other than BUSY. -/
theorem snapshotKept_hostWrite {s : State} {l : Loc} {v : Word} (hbusy : s.status.busy = true)
    (hreset : ¬(l = .ctrl ∧ v.getLsbD 1 = true)) : SnapshotKept s (hostWrite v l s) := by
  have hnotIdle : s.status.busy ≠ false := by simp [hbusy]
  rcases hostWrite_cases v l s with ⟨hl, hv, -⟩ | ⟨-, -, e⟩ | ⟨-, e⟩ | ⟨-, -, e⟩ | ⟨-, hidle, -⟩ | ⟨-, -, -, -, e⟩ |
    ⟨-, -, -, hidle, -⟩
  · exact absurd ⟨hl, hv⟩ hreset
  · rw [e]; exact ⟨rfl, rfl, rfl, rfl, rfl, rfl⟩
  · rw [e]; exact ⟨rfl, rfl, rfl, rfl, rfl, rfl⟩
  · rw [e]; exact ⟨rfl, rfl, rfl, rfl, rfl, rfl⟩
  · exact absurd hidle hnotIdle
  · rw [e]; exact ⟨rfl, rfl, rfl, rfl, rfl, rfl⟩
  · exact absurd hidle hnotIdle

/-- Settles O11: a read has no side effect, and a write that is no soft reset is dropped or reaches only flags. -/
theorem busySnapshotIsKept : Obligations.BusySnapshotIsKept := by
  unfold Obligations.BusySnapshotIsKept
  intro s t a rest hbusy h hreset ht
  have hkept : SnapshotKept { s with schedule := rest } t := by
    rw [step_of_host h] at ht
    rcases hostAccess_cases a { s with schedule := rest } with
      ⟨-, e⟩ | ⟨-, -, e⟩ | ⟨-, -, -, e⟩ | ⟨-, -, v, hv, e⟩ <;> rw [e] at ht <;> cases ht
    · exact ⟨rfl, rfl, rfl, rfl, rfl, rfl⟩
    · exact snapshotKept_hostWrite hbusy fun ⟨hl, hbit⟩ => hreset ⟨locate_control.1.1 hl, v, hv, hbit⟩
  obtain ⟨hslots, hmem, hbitpos, hengine, hcmd, hb⟩ := hkept
  exact ⟨hslots, hmem, hbitpos, hengine, hcmd, hb.trans hbusy⟩

/-! #### Reserved offsets (R43, R82, R83) -/

/-- A location that holds nothing: a reserved offset of the map, or the reserved word of a slot set. -/
def Loc.IsReserved (l : Loc) : Prop := l = .reserved ∨ ∃ n, l = .slotReg n .reserved

theorem locate_isReserved {o : Offset} (ho : o.toNat % 4 = 0)
    (hrange : (0x0014 ≤ o.toNat ∧ o.toNat < 0x0100) ∨
      (0x0100 ≤ o.toNat ∧ o.toNat < 0x0180 ∧ o.toNat % 0x20 = 0x1C) ∨
      (0x0180 ≤ o.toNat ∧ o.toNat < 0x1000) ∨ 0x5000 ≤ o.toNat) : (locate o).IsReserved := by
  unfold locate
  rcases hrange with ⟨hlo, hhi⟩ | ⟨hlo, hhi, hmod⟩ | ⟨hlo, hhi⟩ | hlo
  · rw [if_pos (by omega), locateRegister, if_neg (by omega), if_neg (by omega), if_neg (by omega), if_neg (by omega),
      if_neg (by omega), if_neg (by omega), if_neg (by omega)]
    exact .inl rfl
  · rw [if_pos (by omega), locateRegister, if_neg (by omega), if_pos hlo, hmod]
    exact .inr ⟨_, rfl⟩
  · rw [if_pos hhi, locateRegister, if_pos hlo]
    exact .inl rfl
  · rw [if_neg (by omega), if_neg (by omega), locateRom, if_neg (by omega), if_neg (by omega), if_neg (by omega),
      if_neg (by omega)]
    exact .inl rfl

theorem readValue_of_isReserved {l : Loc} (hl : l.IsReserved) (s : State) : readValue s l = 0 := by
  rcases hl with rfl | ⟨n, rfl⟩ <;> exact readValue_of_not_commandWrites s rfl

theorem hostWrite_of_isReserved {l : Loc} (hl : l.IsReserved) (v : Word) (s : State) : hostWrite v l s =
    { s with status := if s.status.busy then { s.status with wdrop := true } else s.status } := by
  have hdispatch : hostWrite v l s =
      if s.status.busy then { s with status := { s.status with wdrop := true } } else writeLoc v l s := by
    rcases hl with rfl | ⟨n, rfl⟩ <;> rfl
  have hwrite : writeLoc v l s = s := by
    rcases hl with rfl | ⟨n, rfl⟩
    · rfl
    · exact updateSlot_id s n
  rw [hdispatch, hwrite]
  split <;> rfl

/-- Settles O15: the offsets of the listed ranges are reserved locations, for reads and for writes. -/
theorem reservedOffsetsReadZeroIgnoreWrites : Obligations.ReservedOffsetsReadZeroIgnoreWrites := by
  unfold Obligations.ReservedOffsetsReadZeroIgnoreWrites
  intro s o v rest ho hrange
  have hloc := locate_isReserved ho hrange
  refine ⟨fun h => ⟨_, step_of_host_read ho h, readValue_of_isReserved hloc _⟩, fun h => ?_⟩
  rw [step_of_host_write ho h, hostWrite_of_isReserved hloc]

end Sys2Proof.Machine
end

section
/-! ### The stream buffer as the host reads it (R56, R86) -/

namespace Sys2Proof.Machine

/-- Byte `j` of a word stands in its bits 8j + 7 down to 8j (R86). -/
theorem bytesWord_extract (f : Nat → Byte) {j : Nat} (hj : j < 4) :
    (bytesWord (f 0) (f 1) (f 2) (f 3)).extractLsb' (8 * j) 8 = f j := by
  unfold bytesWord
  interval_cases j
  · exact BitVec.extractLsb'_append_eq_right
  · rw [BitVec.extractLsb'_append_eq_of_le (by decide)]
    exact BitVec.extractLsb'_append_eq_right
  · rw [BitVec.extractLsb'_append_eq_of_le (by decide), BitVec.extractLsb'_append_eq_of_le (by decide)]
    exact BitVec.extractLsb'_append_eq_right
  · rw [BitVec.extractLsb'_append_eq_of_le (by decide), BitVec.extractLsb'_append_eq_of_le (by decide)]
    exact BitVec.extractLsb'_append_eq_left

theorem streamByte_of_written {s : State} {i : Nat} {b : Byte} (hlen : i < streamLen s)
    (hb : s.mem.load (streamBase + i) = some b) : streamByte s i = b := by
  unfold streamByte
  rw [if_pos hlen, hb, Option.getD_some]

/-- Settles O21: byte `m` is byte `m mod 4` of the stream buffer's word `m div 4`. -/
theorem streamBytesReadLittleEndian : Obligations.StreamBytesReadLittleEndian := by
  unfold Obligations.StreamBytesReadLittleEndian
  intro s m b rest hidle hm hlen hb h
  have ho : (BitVec.ofNat 16 (0x2000 + 4 * (m / 4))).toNat % 4 = 0 := by
    rw [offset_toNat (by omega)]
    omega
  refine ⟨_, step_reads ho (locate_stream (by omega)) (.inl hidle) h, ?_⟩
  calc (locValue s (.stream (m / 4))).extractLsb' (8 * (m % 4)) 8
      = streamByte s (4 * (m / 4) + m % 4) :=
        bytesWord_extract (fun j => streamByte s (4 * (m / 4) + j)) (Nat.mod_lt m (by decide))
    _ = streamByte s m := by rw [Nat.div_add_mod]
    _ = b := streamByte_of_written hlen hb

end Sys2Proof.Machine
end

section
/-! ### The engine's turn (R100, R121) -/

namespace Sys2Proof.Machine

theorem engineTurn_of_decode {s : State} {i : Instr} (hbusy : s.status.busy = true)
    (hi : decode s.engine.command = .ok i) : engineTurn s = exec i s := by
  simp only [engineTurn, hbusy, hi, if_true]

/-- Settles O6: with nothing scheduled, or its turn next, the engine runs the word it latched. -/
theorem engineTurnRunsTheDecodedCommand : Obligations.EngineTurnRunsTheDecodedCommand := by
  unfold Obligations.EngineTurnRunsTheDecodedCommand
  intro s i hbusy hi
  refine ⟨fun h => ?_, fun rest h => ?_⟩
  · rw [step, h]
    exact engineTurn_of_decode hbusy hi
  · rw [step, h]
    exact engineTurn_of_decode hbusy hi

end Sys2Proof.Machine
end

section
/-! ### Appends that fit and appends that do not (R89, R91, R93, R95, R245, R265) -/

namespace Sys2Proof.Machine

/-- An append that fits is all of `Appended`: the new bits follow the old, the fill is zero, no other byte changes. -/
theorem appended_appendBits {s : State} {bits : List Bool} (hfit : s.bitpos.toNat + bits.length ≤ 32768) :
    Appended bits s (appendBits bits s) := by
  have hpos := appendBits_bitpos_toNat (bits := bits) (s := s) (by omega)
  refine ⟨streamOf_appendBits (by omega), hpos, fun k hlo hhi => ?_, fun a ha => appendBits_load_outside ?_⟩
  · unfold streamLen at hhi
    rw [hpos] at hlo hhi
    rw [appendBits_streamBit _ _ _ (by unfold appendTo; omega), if_neg (by omega),
      List.getD_eq_default _ _ (by omega)]
  · unfold appendFrom appendTo streamBase
    omega

theorem Appended.complete {bits : List Bool} {s t : State} (h : Appended bits s t) (result : Option CmdError) :
    Appended bits s (complete result t) := h

/-- The sentinel 97 as bits, most significant first (R245). -/
theorem pack_endOfPatches : pack Config.endOfPatches 8 = [false, true, true, false, false, false, false, true] := by
  decide

/-- Settles O34: with room TERM appends the sentinel, and an append that fits is `Appended`. -/
theorem termCompletesWithTheSentinel : Obligations.TermCompletesWithTheSentinel := by
  unfold Obligations.TermCompletesWithTheSentinel
  intro s hfit
  have hrun : exec .term s = .next (complete none (appendBits (pack Config.endOfPatches 8) s)) := by
    rw [exec_eq_finish, stageOf, termStage_of hfit, finish_done]
  rw [pack_endOfPatches] at hrun
  exact ⟨_, hrun, endsOk_complete s _ rfl ⟨rfl, rfl, rfl, rfl⟩, (appended_appendBits hfit).complete none, rfl, rfl⟩

/-- A command whose stage raises an error in the state it started in changes no data (R264). -/
theorem exec_of_error {i : Instr} {e : CmdError} {s : State} (h : stageOf i s = .error e s) :
    ∃ t, exec i s = .next t ∧ EndsIn e.code s t ∧ DataKept s t := by
  rw [exec_eq_finish, h]
  exact ⟨_, rfl, endsIn_complete e s s rfl (controlKept_refl s), rfl, rfl, rfl, rfl⟩

theorem termStage_of_overflow {s : State} (h : 32768 < s.bitpos.toNat + 8) : termStage s = .error .overflow s := by
  unfold termStage
  rw [overflows_eq_true.2 h]
  rfl

theorem hdrencStage_of_overflow {n : Fin 4} {ext : Bool} {s : State}
    (h : 32768 < s.bitpos.toNat + headerLength ext) : hdrencStage n ext s = .error .overflow s := by
  unfold hdrencStage
  rw [overflows_eq_true.2 h]
  rfl

theorem coefencStage_of_overflow {n : Fin 4} {s : State} {cs : List Word} (hc : Coefs s cs)
    (h : 32768 < s.bitpos.toNat + coefLength (coefWidth (s.slot n).qwb) cs) :
    coefencStage n s = .error .overflow s := by
  unfold coefencStage
  rw [withCoefs_of hc]
  simp only [overflows_eq_true.2 h]
  rfl

/-- Settles O35: each of the three checks its room before it writes, HDRENC before it reads COEF (log 16). -/
theorem appendsThatDoNotFitOverflow : Obligations.AppendsThatDoNotFitOverflow := by
  unfold Obligations.AppendsThatDoNotFitOverflow
  intro s n ext cs
  refine ⟨fun h => ?_, fun h => ?_, fun hc h => ?_⟩
  · exact exec_of_error (i := .term) (termStage_of_overflow h)
  · exact exec_of_error (i := .hdrenc n ext) (hdrencStage_of_overflow h)
  · exact exec_of_error (i := .coefenc n) (coefencStage_of_overflow hc h)

end Sys2Proof.Machine
end

section
/-! ### A command word as its seven fields (R120) -/

namespace Sys2Proof

/-- The command word of the given fields, OP lowest. `low` is the reserved field 15:14, `high` the reserved field
31:24. -/
def layout (op : BitVec 8) (slot : BitVec 2) (count : BitVec 3) (ext : Bool) (low : BitVec 2) (type high : BitVec 8) :
    Word :=
  high ++ type ++ low ++ BitVec.ofBool ext ++ count ++ slot ++ op

section Fields

variable (op op' : BitVec 8) (slot slot' : BitVec 2) (count count' : BitVec 3) (ext ext' : Bool) (low low' : BitVec 2)
  (type type' high high' : BitVec 8)

@[simp] theorem layout_op : (layout op slot count ext low type high).extractLsb' 0 8 = op :=
  BitVec.extractLsb'_append_eq_right

@[simp] theorem layout_slot : (layout op slot count ext low type high).extractLsb' 8 2 = slot := by
  unfold layout
  rw [BitVec.extractLsb'_append_eq_of_le (by decide)]
  exact BitVec.extractLsb'_append_eq_right

@[simp] theorem layout_count : (layout op slot count ext low type high).extractLsb' 10 3 = count := by
  unfold layout
  repeat rw [BitVec.extractLsb'_append_eq_of_le (by decide)]
  exact BitVec.extractLsb'_append_eq_right

theorem layout_ext : (layout op slot count ext low type high).getLsbD 13 = ext := by
  unfold layout
  repeat rw [BitVec.getLsbD_append]
  simp

@[simp] theorem layout_low : (layout op slot count ext low type high).extractLsb' 14 2 = low := by
  unfold layout
  repeat rw [BitVec.extractLsb'_append_eq_of_le (by decide)]
  exact BitVec.extractLsb'_append_eq_right

@[simp] theorem layout_type : (layout op slot count ext low type high).extractLsb' 16 8 = type := by
  unfold layout
  repeat rw [BitVec.extractLsb'_append_eq_of_le (by decide)]
  exact BitVec.extractLsb'_append_eq_right

@[simp] theorem layout_high : (layout op slot count ext low type high).extractLsb' 24 8 = high := by
  unfold layout
  repeat rw [BitVec.extractLsb'_append_eq_of_le (by decide)]
  exact BitVec.extractLsb'_eq_self

theorem layout_and : layout op slot count ext low type high &&& layout op' slot' count' ext' low' type' high' =
    layout (op &&& op') (slot &&& slot') (count &&& count') (ext && ext') (low &&& low') (type &&& type')
      (high &&& high') := by
  unfold layout
  rw [BitVec.and_append, BitVec.and_append, BitVec.and_append, BitVec.and_append, BitVec.and_append, BitVec.and_append,
    BitVec.ofBool_and_ofBool]

theorem layout_or : layout op slot count ext low type high ||| layout op' slot' count' ext' low' type' high' =
    layout (op ||| op') (slot ||| slot') (count ||| count') (ext || ext') (low ||| low') (type ||| type')
      (high ||| high') := by
  unfold layout
  rw [BitVec.or_append, BitVec.or_append, BitVec.or_append, BitVec.or_append, BitVec.or_append, BitVec.or_append,
    BitVec.ofBool_or_ofBool]

end Fields

/-- The fields cover the word. -/
theorem layout_of_fields (w : Word) :
    layout (w.extractLsb' 0 8) (w.extractLsb' 8 2) (w.extractLsb' 10 3) (w.getLsbD 13) (w.extractLsb' 14 2)
      (w.extractLsb' 16 8) (w.extractLsb' 24 8) = w := by
  have hext : BitVec.ofBool (w.getLsbD 13) = w.extractLsb' 13 1 := by
    ext i hi
    simp [show i = 0 by omega]
  calc layout _ _ _ _ _ _ _
      = w.extractLsb' 24 8 ++ w.extractLsb' 16 8 ++ w.extractLsb' 14 2 ++ w.extractLsb' 13 1 ++ w.extractLsb' 10 3 ++
          w.extractLsb' 8 2 ++ w.extractLsb' 0 8 := by rw [layout, hext]
    _ = w.extractLsb' 0 32 := by
      rw [BitVec.extractLsb'_append_extractLsb'_eq_extractLsb' (start₂ := 24) rfl,
        BitVec.extractLsb'_append_extractLsb'_eq_extractLsb' (start₂ := 16) rfl,
        BitVec.extractLsb'_append_extractLsb'_eq_extractLsb' (start₂ := 14) rfl,
        BitVec.extractLsb'_append_extractLsb'_eq_extractLsb' (start₂ := 13) rfl,
        BitVec.extractLsb'_append_extractLsb'_eq_extractLsb' (start₂ := 10) rfl,
        BitVec.extractLsb'_append_extractLsb'_eq_extractLsb' (start₂ := 8) rfl]
    _ = w := BitVec.extractLsb'_eq_self

theorem layout_eq_iff (op : BitVec 8) (slot : BitVec 2) (count : BitVec 3) (ext : Bool) (low : BitVec 2)
    (type high : BitVec 8) (w : Word) : layout op slot count ext low type high = w ↔
      op = w.extractLsb' 0 8 ∧ slot = w.extractLsb' 8 2 ∧ count = w.extractLsb' 10 3 ∧ ext = w.getLsbD 13 ∧
        low = w.extractLsb' 14 2 ∧ type = w.extractLsb' 16 8 ∧ high = w.extractLsb' 24 8 := by
  constructor
  · rintro rfl
    simp only [layout_op, layout_slot, layout_count, layout_ext, layout_low, layout_type, layout_high, and_self]
  · rintro ⟨rfl, rfl, rfl, rfl, rfl, rfl, rfl⟩
    exact layout_of_fields w

theorem eq_layout (w : Word) : ∃ op slot count ext low type high, w = layout op slot count ext low type high :=
  ⟨_, _, _, _, _, _, _, (layout_of_fields w).symm⟩

end Sys2Proof
end

section
/-! ### The decoder and the encoder by fields (R122 to R124, R127) -/

namespace Sys2Proof

section Decoder

variable (op : BitVec 8) (slot : BitVec 2) (count : BitVec 3) (ext : Bool) (low : BitVec 2) (type high : BitVec 8)

/-- The mask of PRESCAN, TRANSFORM and COEFENC drops SLOT. -/
theorem layout_and_slotMask :
    layout op slot count ext low type high &&& 0xFFFFFCFF = layout op 0#2 count ext low type high := by
  have hmask : (0xFFFFFCFF : Word) =
      layout (.allOnes 8) 0#2 (.allOnes 3) true (.allOnes 2) (.allOnes 8) (.allOnes 8) := rfl
  rw [hmask, layout_and]
  simp only [BitVec.and_allOnes, BitVec.and_zero, Bool.and_true]

/-- The mask of HDRENC drops SLOT and EXT. -/
theorem layout_and_slotExtMask :
    layout op slot count ext low type high &&& 0xFFFFDCFF = layout op 0#2 count false low type high := by
  have hmask : (0xFFFFDCFF : Word) =
      layout (.allOnes 8) 0#2 (.allOnes 3) false (.allOnes 2) (.allOnes 8) (.allOnes 8) := rfl
  rw [hmask, layout_and]
  simp only [BitVec.and_allOnes, BitVec.and_zero, Bool.and_false]

/-- The mask of GHDR drops TYPE. -/
theorem layout_and_typeMask :
    layout op slot count ext low type high &&& 0xFF00FFFF = layout op slot count ext low 0#8 high := by
  have hmask : (0xFF00FFFF : Word) =
      layout (.allOnes 8) (.allOnes 2) (.allOnes 3) true (.allOnes 2) 0#8 (.allOnes 8) := rfl
  rw [hmask, layout_and]
  simp only [BitVec.and_allOnes, BitVec.and_zero, Bool.and_true]

/-- The mask of BUILD drops COUNT, EXT and TYPE. -/
theorem layout_and_buildMask :
    layout op slot count ext low type high &&& 0xFF00C3FF = layout op slot 0#3 false low 0#8 high := by
  have hmask : (0xFF00C3FF : Word) = layout (.allOnes 8) (.allOnes 2) 0#3 false (.allOnes 2) 0#8 (.allOnes 8) := rfl
  rw [hmask, layout_and]
  simp only [BitVec.and_allOnes, BitVec.and_zero, Bool.and_false]

/-- Each test of the decoder asks for its row's OP and for zero in every field that the row does not use. -/
theorem decode_layout : decode (layout op slot count ext low type high) =
    if op = 0 ∧ slot = 0 ∧ count = 0 ∧ ext = false ∧ low = 0 ∧ type = 0 ∧ high = 0 then .ok .nop
    else if op = 1 ∧ count = 0 ∧ ext = false ∧ low = 0 ∧ type = 0 ∧ high = 0 then .ok (.prescan slot.toFin)
    else if op = 2 ∧ count = 0 ∧ ext = false ∧ low = 0 ∧ type = 0 ∧ high = 0 then .ok (.transform slot.toFin)
    else if op = 3 ∧ count = 0 ∧ low = 0 ∧ type = 0 ∧ high = 0 then .ok (.hdrenc slot.toFin ext)
    else if op = 4 ∧ count = 0 ∧ ext = false ∧ low = 0 ∧ type = 0 ∧ high = 0 then .ok (.coefenc slot.toFin)
    else if op = 5 ∧ slot = 0 ∧ count = 0 ∧ ext = false ∧ low = 0 ∧ high = 0 then .ok (.ghdr type)
    else if op = 6 ∧ slot = 0 ∧ count = 0 ∧ ext = false ∧ low = 0 ∧ type = 0 ∧ high = 0 then .ok .term
    else if op = 7 ∧ slot = 0 ∧ count = 0 ∧ ext = false ∧ low = 0 ∧ type = 0 ∧ high = 0 then .ok .sclr
    else if op = 8 ∧ slot = 0 ∧ low = 0 ∧ high = 0 then .ok (.build count.toNat ext type)
    else .error (rejectReason (layout op slot count ext low type high)) := by
  simp only [decode, layout_and_slotMask, layout_and_slotExtMask, layout_and_typeMask, layout_and_buildMask,
    layout_eq_iff, slotField, countField, extField, typeField, layout_slot, layout_count, layout_ext, layout_type]
  simp

/-- OP values above 8 have no row. -/
theorem decode_layout_of_op_gt (hop : 8 < op.toNat) : decode (layout op slot count ext low type high) =
    .error (rejectReason (layout op slot count ext low type high)) := by
  have hne : ∀ k : BitVec 8, k.toNat ≤ 8 → op ≠ k := by
    rintro k hk rfl
    omega
  simp [decode_layout, hne]

end Decoder

theorem countBits_eq_layout (c : Nat) : countBits c = layout 0 0 (.ofNat 3 c) false 0 0 0 := by
  unfold countBits
  generalize BitVec.ofNat 3 c = b
  revert b
  decide

theorem extBits_eq_layout (e : Bool) : extBits e = layout 0 0 0 e 0 0 0 := by
  cases e <;> rfl

theorem typeBits_eq_layout : ∀ t : BitVec 8, typeBits t = layout 0 0 0 false 0 t 0 := by decide

theorem encode_prescan : ∀ s : Fin 4, encode (.prescan s) = layout 1 (.ofFin s) 0 false 0 0 0 := by decide

theorem encode_transform : ∀ s : Fin 4, encode (.transform s) = layout 2 (.ofFin s) 0 false 0 0 0 := by decide

theorem encode_hdrenc : ∀ (s : Fin 4) (e : Bool), encode (.hdrenc s e) = layout 3 (.ofFin s) 0 e 0 0 0 := by decide

theorem encode_coefenc : ∀ s : Fin 4, encode (.coefenc s) = layout 4 (.ofFin s) 0 false 0 0 0 := by decide

theorem encode_ghdr (t : BitVec 8) : encode (.ghdr t) = layout 5 0 0 false 0 t 0 := by
  have hop : (0x00000005 : Word) = layout 5 0 0 false 0 0 0 := rfl
  simp [encode, hop, typeBits_eq_layout, layout_or]

theorem encode_build (c : Nat) (e : Bool) (t : BitVec 8) :
    encode (.build c e t) = layout 8 0 (.ofNat 3 c) e 0 t 0 := by
  have hop : (0x00000008 : Word) = layout 8 0 0 false 0 0 0 := rfl
  simp [encode, hop, countBits_eq_layout, extBits_eq_layout, typeBits_eq_layout, layout_or]

end Sys2Proof
end

section
/-! ### Decoding and encoding are inverse; which words are legal (R122, R124, R126, R127) -/

namespace Sys2Proof

/-- Settles O1: the encoding has the OP of the instruction's row, the operands in their fields and zero elsewhere. -/
theorem decodeOfEncodeIsTheInstruction : Obligations.DecodeOfEncodeIsTheInstruction := by
  unfold Obligations.DecodeOfEncodeIsTheInstruction
  intro i hwf
  cases i with
  | nop => rfl
  | prescan s => rw [encode_prescan, decode_layout]; rfl
  | transform s => rw [encode_transform, decode_layout]; rfl
  | hdrenc s e => rw [encode_hdrenc, decode_layout]; rfl
  | coefenc s => rw [encode_coefenc, decode_layout]; rfl
  | ghdr t => rw [encode_ghdr, decode_layout]; rfl
  | term => rfl
  | sclr => rfl
  | build c e t =>
    have hc : (BitVec.ofNat 3 c).toNat = c := Nat.mod_eq_of_lt (of_decide_eq_true hwf)
    rw [encode_build, decode_layout]
    simp [hc]

/-- Settles O2: the row that accepts the word fixes every field but the operands, which are those of the encoding. -/
theorem encodeOfDecodeIsTheWord : Obligations.EncodeOfDecodeIsTheWord := by
  unfold Obligations.EncodeOfDecodeIsTheWord
  intro w i h
  obtain ⟨op, slot, count, ext, low, type, high, rfl⟩ := eq_layout w
  rw [decode_layout] at h
  split_ifs at h with h0 h1 h2 h3 h4 h5 h6 h7 h8 <;> cases h
  · obtain ⟨rfl, rfl, rfl, rfl, rfl, rfl, rfl⟩ := h0
    exact ⟨rfl, rfl⟩
  · obtain ⟨rfl, rfl, rfl, rfl, rfl, rfl⟩ := h1
    exact ⟨rfl, encode_prescan _⟩
  · obtain ⟨rfl, rfl, rfl, rfl, rfl, rfl⟩ := h2
    exact ⟨rfl, encode_transform _⟩
  · obtain ⟨rfl, rfl, rfl, rfl, rfl⟩ := h3
    exact ⟨rfl, encode_hdrenc _ _⟩
  · obtain ⟨rfl, rfl, rfl, rfl, rfl, rfl⟩ := h4
    exact ⟨rfl, encode_coefenc _⟩
  · obtain ⟨rfl, rfl, rfl, rfl, rfl, rfl⟩ := h5
    exact ⟨rfl, encode_ghdr _⟩
  · obtain ⟨rfl, rfl, rfl, rfl, rfl, rfl, rfl⟩ := h6
    exact ⟨rfl, rfl⟩
  · obtain ⟨rfl, rfl, rfl, rfl, rfl, rfl, rfl⟩ := h7
    exact ⟨rfl, rfl⟩
  · obtain ⟨rfl, rfl, rfl, rfl⟩ := h8
    refine ⟨decide_eq_true count.isLt, ?_⟩
    rw [encode_build, BitVec.ofNat_toNat, BitVec.setWidth_eq]

/-- A row that matches fixes the word's OP, for every mask holds it (R122). -/
theorem op_of_row_matches {w : Word} {r : OpcodeRow} (hr : r ∈ opcodeMap) (h : w &&& r.mask = r.pattern) :
    r.pattern &&& 0xFF = w &&& 0xFF := by
  have hmask : ∀ r ∈ opcodeMap, r.mask &&& 0xFF = 0xFF := by decide
  rw [← h, BitVec.and_assoc, hmask r hr]

theorem opcodeMap_eq_of_op :
    ∀ r ∈ opcodeMap, ∀ r' ∈ opcodeMap, r.pattern &&& 0xFF = r'.pattern &&& 0xFF → r = r' := by decide

/-- Settles O3: the decoder's tests are those of the rows, and OP tells the rows apart. -/
theorem wordDecodesIffOneRowMatches : Obligations.WordDecodesIffOneRowMatches := by
  unfold Obligations.WordDecodesIffOneRowMatches
  refine ⟨fun w => ?_, fun w r hr r' hr' h h' => ?_⟩
  · rw [← Machine.legalWord_iff]
    simp only [legalWord, OpcodeRow.matches, List.any_eq_true, beq_iff_eq]
  · exact opcodeMap_eq_of_op r hr r' hr' ((op_of_row_matches hr h).trans (op_of_row_matches hr' h').symm)

theorem exists_ite_eq_error_iff {p : Prop} [Decidable p] {i : Instr} {r : DecodeReject} :
    (∃ e, (if p then .ok i else .error r : Except DecodeReject Instr) = .error e) ↔ ¬p := by
  by_cases hp : p <;> simp [hp]

/-- Settles O4: an OP above 8 has no row; for each OP of the map one test is left, for zero in the fields it does not
use. -/
theorem illegalWordsAreThoseTheSpecLists : Obligations.IllegalWordsAreThoseTheSpecLists := by
  unfold Obligations.IllegalWordsAreThoseTheSpecLists
  intro w
  obtain ⟨op, slot, count, ext, low, type, high, rfl⟩ := eq_layout w
  simp only [layout_op, layout_slot, layout_count, layout_ext, layout_low, layout_type, layout_high]
  rcases Nat.lt_or_ge 8 op.toNat with hop | hop
  · exact iff_of_true ⟨_, decode_layout_of_op_gt _ _ _ _ _ _ _ hop⟩ (.inl hop)
  · obtain ⟨k, hk, rfl⟩ : ∃ k ≤ 8, op = BitVec.ofNat 8 k := ⟨op.toNat, hop, by simp⟩
    rw [decode_layout]
    interval_cases k
    all_goals
      simp [exists_ite_eq_error_iff, not_and_or, -not_and]
      tauto

/-- Settles O5: the decoder run on the nine words. -/
theorem specWordsDecode : Obligations.SpecWordsDecode := by
  unfold Obligations.SpecWordsDecode
  decide

end Sys2Proof
end

section
/-! ### COS: the symmetry of its rows (R151, R155) -/

namespace Sys2Proof.Machine

theorem cosRow_zero : cosRow 0 = List.replicate 16 0x3F800000 := rfl

/-- Read backwards, a row of even index is the row itself and one of odd index is the row negated. -/
theorem cosRow_reverse : ∀ u < 16, (cosRow u).reverse = if u % 2 = 0 then cosRow u else (cosRow u).map fneg := by
  decide +kernel

theorem f32Units_cosAt_ne_zero : ∀ u < 16, ∀ n < 16, f32Units (cosAt u n) ≠ 0 := by decide +kernel

/-- `COS[u][15-n] = (-1)^u COS[u][n]` (R155): entry `n` of the row read backwards. -/
theorem cosAt_mirror {u n : Nat} (hu : u < 16) (hn : n < 16) :
    cosAt u (15 - n) = if u % 2 = 0 then cosAt u n else fneg (cosAt u n) := by
  have hlen := cosRow_length hu
  have hmirror : cosAt u (15 - n) = (cosRow u).reverse.getD n 0 := by
    simp [cosAt, hlen, hn, show 15 - n < 16 by omega]
  rw [hmirror, cosRow_reverse u hu]
  split
  next => rfl
  next => simp [cosAt, hlen, hn]

/-- Settles O58: the first row, the symmetry of each row read backwards, and its entries. -/
theorem cosineTableIsSymmetric : Obligations.CosineTableIsSymmetric := by
  unfold Obligations.CosineTableIsSymmetric
  intro u n hu hn
  have hfirst : cosAt 0 n = 0x3F800000 := by rw [cosAt, cosRow_zero, List.getD_replicate _ hn]
  exact ⟨hfirst, cosAt_mirror hu hn, f32Units_cosAt_ne_zero u hu n hn⟩

end Sys2Proof.Machine
end

section
/-! ### DEQ and QNT: exact odd integers and their rounded reciprocals (R11, R152, R153) -/

namespace Sys2Proof.Machine

/-- Rounding is exact where the unit in the last place divides the exact value. -/
theorem roundMag_exact {n : Nat} (neg : Bool) (hlt : n < (2 ^ 25 - 1) <<< 252) (hdvd : 2 ^ ulpExp n 1 ∣ n) :
    f32Units (f32Make neg (roundMag n 1)) = n ∧ isFinite (f32Make neg (roundMag n 1)) = true := by
  have hbelow : ulpExp n 1 * 0x800000 + significand n 1 < f32InfMag := by
    have := infMag_le_iff (n := n) Nat.one_pos
    omega
  have hround : roundMag n 1 = ulpExp n 1 * 0x800000 + significand n 1 := by
    rw [roundMag_eq, Nat.min_eq_left hbelow.le]
  have hulp : ulp n 1 = 2 ^ ulpExp n 1 := Nat.one_mul _
  have hsig : significand n 1 = n / 2 ^ ulpExp n 1 := by
    have := Nat.two_pow_pos (ulpExp n 1)
    rw [significand, hulp, Nat.mod_eq_zero_of_dvd hdvd, if_neg (by omega)]
  rw [hround]
  refine ⟨?_, (isFinite_f32Make hbelow.le).2 hbelow⟩
  rw [f32Units_f32Make hbelow.le (significand_le n 1) (le_significand n 1), hsig, Nat.div_mul_cancel hdvd]

/-- The unit in the last place of an integer below 2^24 is at most 1. -/
theorem ulpExp_shiftLeft_le {m : Nat} (h : m < 0x1000000) : ulpExp (m <<< 149) 1 ≤ 149 := by
  unfold ulpExp
  split
  next => omega
  next hbig =>
    have hlog : (m <<< 149 / 1).log2 < 173 := (Nat.log2_lt (by omega)).2 (by rw [Nat.shiftLeft_eq]; omega)
    omega

/-- `f32_of_int` is exact below 2^24 (R11). -/
theorem f32OfInt_exact {i : Int} (h : i.natAbs < 0x1000000) :
    f32Units (f32OfInt i) = i.natAbs <<< 149 ∧ isFinite (f32OfInt i) = true := by
  refine roundMag_exact _ (by rw [Nat.shiftLeft_eq, Nat.shiftLeft_eq]; omega) ?_
  have hdvd : 2 ^ 149 ∣ i.natAbs <<< 149 := by
    rw [Nat.shiftLeft_eq]
    exact Nat.dvd_mul_left _ _
  exact (Nat.pow_dvd_pow 2 (ulpExp_shiftLeft_le h)).trans hdvd

theorem f32Neg_f32OfInt (i : Int) : f32Neg (f32OfInt i) = decide (i < 0) := (f32Make_fields (roundMag_le _ _)).1

theorem f32Neg_deqAt (j i : Nat) : f32Neg (deqAt j i) = false := by
  rw [deqAt, f32Neg_f32OfInt, decide_eq_false_iff_not]
  omega

/-- Each value of QNT is 1.0 divided by the odd integer of its diagonal, in units of 2^-149, and rounded (R153). -/
theorem qntByDiagonal_eq : ∀ d < 31, qntByDiagonal.getD d 0 =
    f32Make false (roundMag (f32Units 0x3F800000 <<< 149) ((1 + 2 * d) <<< 149)) := by
  decide +kernel

theorem qntAt_comm (j i : Nat) : qntAt j i = qntAt i j := by
  unfold qntAt
  rw [Nat.add_comm]

section Entry
variable {j i : Nat} (hj : j < 16) (hi : i < 16)
include hj hi

/-- DEQ is exact: its entries are far below 2^24 (R152). -/
theorem deqAt_exact : f32Units (deqAt j i) = (1 + 2 * (i + j)) <<< 149 ∧ isFinite (deqAt j i) = true := by
  have habs : (1 + 2 * ((i : Int) + j)).natAbs = 1 + 2 * (i + j) := by omega
  rw [← habs]
  exact f32OfInt_exact (by omega)

/-- QNT is the rounded reciprocal of DEQ (R153). -/
theorem qntAt_eq_fdiv (φ : Word) : qntAt j i = fdiv φ 0x3F800000 (deqAt j i) := by
  obtain ⟨hunits, hfin⟩ := deqAt_exact hj hi
  have hnonzero : f32Units (deqAt j i) ≠ 0 := by
    rw [hunits, Nat.shiftLeft_eq]
    omega
  have hpos : f32Neg 0x3F800000 = false := rfl
  rw [fdiv_of_finite rfl hfin hnonzero, hpos, f32Neg_deqAt, hunits, Nat.add_comm i j]
  exact qntByDiagonal_eq (j + i) (by omega)

end Entry

/-- Settles O59: DEQ is exact, QNT is its rounded reciprocal, and QNT depends on `i + j` only. -/
theorem quantizeTableIsTheReciprocals : Obligations.QuantizeTableIsTheReciprocals := by
  unfold Obligations.QuantizeTableIsTheReciprocals
  intro φ j i hj hi
  exact ⟨(deqAt_exact hj hi).1, f32Neg_deqAt j i, qntAt_eq_fdiv hj hi φ, qntAt_comm j i⟩

end Sys2Proof.Machine
end

section
/-! ### ZIG: the traversal and the table are inverse (R156, R157) -/

namespace Sys2Proof.Machine

/-- The traversal run: the ZIG indices of the positions it visits, in order, are 0 to 255 (R157). -/
theorem zigTraversal_map_zigList : zigTraversal.map (fun p => zigList.getD p 256) = List.range 256 := by decide +kernel

theorem zigTraversal_length : zigTraversal.length = 256 := by
  simpa using congrArg List.length zigTraversal_map_zigList

/-- The k-th position of the traversal has ZIG index k. -/
theorem zigList_zigTraversal {k : Nat} (hk : k < 256) : zigList.getD (zigTraversal.getD k 256) 256 = k := by
  have hk' : k < zigTraversal.length := by rwa [zigTraversal_length]
  have hat : (zigTraversal.map fun p => zigList.getD p 256)[k]? = some k := by
    rw [zigTraversal_map_zigList, List.getElem?_range hk]
  rw [List.getElem?_map, List.getElem?_eq_getElem hk', Option.map_some, Option.some_inj] at hat
  rwa [List.getD_eq_getElem _ _ hk']

/-- Only the position of an entry reads as that entry: ZIG is injective. -/
theorem zigList_getD_inj {p q : Nat} (hp : p < 256) (h : zigList.getD q 256 = zigList.getD p 256)
    (hlt : zigList.getD p 256 < 256) : q = p := by
  have hq : q < zigList.length := by
    by_contra hge
    rw [List.getD_eq_default _ _ (Nat.le_of_not_lt hge)] at h
    omega
  have hp' : p < zigList.length := by rwa [zigList_length]
  rw [List.getD_eq_getElem _ _ hq, List.getD_eq_getElem _ _ hp'] at h
  exact (zigList_nodup.getElem_inj_iff).1 h

theorem zigList_getD_lt {p : Nat} (hp : p < 256) : zigList.getD p 256 < 256 := by
  have h := zigAt_lt (u := p / 16) (c := p % 16) (by omega) (by omega)
  have hp' : p < zigList.length := by rwa [zigList_length]
  rw [zigAt, Nat.div_add_mod, List.getD_eq_getElem _ _ hp'] at h
  rwa [List.getD_eq_getElem _ _ hp']

/-- Settles O60: the ZIG indices along the traversal are 0 to 255; ZIG has no entry twice, so the position visited at
step `ZIG[p]`, whose index is `ZIG[p]`, is `p`. -/
theorem zigzagTableIsTheTraversal : Obligations.ZigzagTableIsTheTraversal := by
  unfold Obligations.ZigzagTableIsTheTraversal
  refine ⟨zigTraversal_length, fun k => zigList_zigTraversal, zigList_length, fun p hp => ?_⟩
  have hlt := zigList_getD_lt hp
  exact ⟨hlt, zigList_getD_inj hp (zigList_zigTraversal hlt) hlt⟩

end Sys2Proof.Machine
end

section
/-! ### PRESCAN: the scan, the first least sample, and RANGE (R170 to R176, R306) -/

namespace Sys2Proof.Machine

/-! #### PRESCAN as one step -/

/-- PRESCAN on written samples ends in success, whatever they are (R170). -/
theorem exec_prescan_of {n : Fin 4} {s : State} {ws : List Word} (h : Samples s n ws) :
    exec (.prescan n) s = .next (complete none (afterPrescan n ws s)) := by
  rw [exec_eq_finish, stageOf, prescanStage_of h, finish]

theorem afterPrescan_slot (n k : Fin 4) (ws : List Word) (s : State) : (afterPrescan n ws s).slot k =
    if k = n then { s.slot k with dcoff := prescanMin ws, range := prescanRange (Config.freeWord s.draws) ws }
    else s.slot k :=
  updateSlot_slot s n k fun r => { r with dcoff := prescanMin ws, range := prescanRange (Config.freeWord s.draws) ws }

@[simp] theorem afterPrescan_dcoff (n : Fin 4) (ws : List Word) (s : State) :
    ((afterPrescan n ws s).slot n).dcoff = prescanMin ws := by
  rw [afterPrescan_slot, if_pos rfl]

@[simp] theorem afterPrescan_range (n : Fin 4) (ws : List Word) (s : State) :
    ((afterPrescan n ws s).slot n).range = prescanRange (Config.freeWord s.draws) ws := by
  rw [afterPrescan_slot, if_pos rfl]

/-! #### The scan of R171 -/

/-- The value a scan of `ws` keeps after sample `k`, as the model's fold computes it. -/
def keptAfter (better : Word → Word → Bool) (ws : List Word) (k : Nat) : Word :=
  (ws.tail.take k).foldl (fun z v => if better v z then v else z) (ws.headD 0)

section Scan
variable {better : Word → Word → Bool} {ws : List Word} {z z' : Nat → Word}

theorem keptAfter_succ {k : Nat} (h : k + 1 < ws.length) : keptAfter better ws (k + 1) =
    if better (ws.getD (k + 1) 0) (keptAfter better ws k) then ws.getD (k + 1) 0 else keptAfter better ws k := by
  have htail : k < ws.tail.length := by rw [List.length_tail]; omega
  have hlast : ws.tail[k] = ws.getD (k + 1) 0 := by rw [List.getElem_tail, List.getD_eq_getElem _ _ h]
  unfold keptAfter
  rw [List.take_succ_eq_append_getElem htail, hlast, List.foldl_append, List.foldl_cons, List.foldl_nil]

/-- The model's fold is the scan of R171. -/
theorem isScan_keptAfter (h : ws.length = 256) : IsScan better ws (keptAfter better ws) := by
  refine ⟨?_, fun k hk => keptAfter_succ (by omega)⟩
  cases ws <;> rfl

/-- R171 leaves a scan no freedom. -/
theorem IsScan.unique (h : IsScan better ws z) (h' : IsScan better ws z') : ∀ {k : Nat}, k ≤ 255 → z k = z' k
  | 0, _ => h.1.trans h'.1.symm
  | k + 1, hk => by rw [h.2 k hk, h'.2 k hk, h.unique h' (Nat.le_of_succ_le hk)]

theorem keptAfter_last (h : ws.length = 256) : keptAfter better ws 255 =
    ws.tail.foldl (fun z v => if better v z then v else z) (ws.headD 0) := by
  rw [keptAfter, List.take_of_length_le (by rw [List.length_tail, h])]

end Scan

section Extremes
variable {ws : List Word} {lo hi : Nat → Word} (hlen : ws.length = 256)
include hlen

theorem prescanMin_of_isScan (h : IsScan flt ws lo) : prescanMin ws = lo 255 :=
  (keptAfter_last hlen).symm.trans ((isScan_keptAfter hlen).unique h le_rfl)

theorem prescanMax_of_isScan (h : IsScan fgt ws hi) : prescanMax ws = hi 255 :=
  (keptAfter_last hlen).symm.trans ((isScan_keptAfter hlen).unique h le_rfl)

end Extremes

/-! #### The truncated difference does not depend on the free words (R173, R176) -/

/-- The free word shows in a sum only as the NaN of an invalid operation. -/
theorem fadd_eq_nanOf_or_free_irrelevant (φ φ' a b : Word) : fadd φ a b = nanOf φ ∨ fadd φ' a b = fadd φ a b := by
  unfold fadd
  by_cases hnan : (isNaN a || isNaN b) = true
  · exact .inl (if_pos hnan)
  by_cases hopposite : isInf a = true ∧ (isInf b && f32Neg a != f32Neg b) = true
  · exact .inl (by rw [if_neg hnan, if_pos hopposite.1, if_pos hopposite.2])
  refine .inr ?_
  rw [if_neg hnan, if_neg hnan]
  by_cases hinf : isInf a = true
  · rw [if_pos hinf, if_pos hinf, if_neg fun h => hopposite ⟨hinf, h⟩, if_neg fun h => hopposite ⟨hinf, h⟩]
  · rw [if_neg hinf, if_neg hinf]

theorem truncFits_nanOf (φ : Word) : truncFits (nanOf φ) = false := by
  have hnotFinite : isFinite (nanOf φ) = false := by
    by_contra h
    have hnan := (not_special_of_finite (Bool.eq_true_of_not_eq_false h)).1
    rw [isNaN_nanOf] at hnan
    contradiction
  simp [truncFits, hnotFinite]

theorem fsub_free_irrelevant {φ a b : Word} (h : truncFits (fsub φ a b) = true) (φ' : Word) :
    fsub φ' a b = fsub φ a b := by
  rcases fadd_eq_nanOf_or_free_irrelevant φ φ' a (fneg b) with hnan | heq
  · rw [fsub, hnan, truncFits_nanOf] at h
    contradiction
  · exact heq

/-- RANGE where R14 states the truncation (R173). -/
theorem prescanRange_of_fits {φ : Word} {ws : List Word} (h : truncFits (fsub φ (prescanMax ws) (prescanMin ws)) = true)
    (free : Nat → Word) :
    prescanRange free ws = BitVec.ofInt 32 (truncInt (fsub φ (prescanMax ws) (prescanMin ws)) + 1) := by
  rw [prescanRange, fsub_free_irrelevant h, truncS32_of_fits h, BitVec.ofInt_add]
  rfl

/-- Settles O36: PRESCAN is one update of its slot; its two folds are the scans of R171, and a truncation that fits is
the same for every free word. -/
theorem prescanCompletesWithMinimumAndRange : Obligations.PrescanCompletesWithMinimumAndRange := by
  unfold Obligations.PrescanCompletesWithMinimumAndRange
  intro s n ws lo hi hs hlo hhi
  have hmin := prescanMin_of_isScan (samples_length hs) hlo
  have hmax := prescanMax_of_isScan (samples_length hs) hhi
  refine ⟨_, exec_prescan_of hs, endsOk_complete _ _ rfl ⟨rfl, rfl, rfl, rfl⟩, ?_, ?_, rfl, rfl, ?_, ?_⟩
  · simp [afterPrescan_slot]
  · exact fun k hk => (afterPrescan_slot n k ws s).trans (if_neg hk)
  · rw [complete_slot, afterPrescan_dcoff, hmin]
  · intro φ hfits
    rw [← hmin, ← hmax] at hfits ⊢
    exact (afterPrescan_range n ws s).trans (prescanRange_of_fits hfits _)

/-! #### What a scan by a strict order keeps (R171, R175) -/

/-- Of samples 0 to `k`, sample `i` is the first of those with the least `key`. -/
def FirstLeast (key : Word → Int) (ws : List Word) (k i : Nat) : Prop :=
  i ≤ k ∧ (∀ j, j ≤ k → key (ws.getD i 0) ≤ key (ws.getD j 0)) ∧ ∀ j, j < i → key (ws.getD i 0) < key (ws.getD j 0)

section FirstLeast
variable {key : Word → Int} {ws : List Word} {k i : Nat}

theorem firstLeast_zero : FirstLeast key ws 0 0 := by
  refine ⟨le_rfl, fun j hj => ?_, fun j hj => absurd hj j.not_lt_zero⟩
  rw [Nat.le_zero.1 hj]

/-- A strictly smaller next sample is the new first least one. -/
theorem FirstLeast.replace (h : FirstLeast key ws k i) (hlt : key (ws.getD (k + 1) 0) < key (ws.getD i 0)) :
    FirstLeast key ws (k + 1) (k + 1) := by
  obtain ⟨-, hleast, -⟩ := h
  have hbelow : ∀ j, j < k + 1 → key (ws.getD (k + 1) 0) < key (ws.getD j 0) := fun j hj =>
    hlt.trans_le (hleast j (Nat.le_of_lt_succ hj))
  refine ⟨le_rfl, fun j hj => ?_, hbelow⟩
  rcases Nat.lt_or_eq_of_le hj with hj | rfl
  · exact (hbelow j hj).le
  · exact le_rfl

/-- A next sample that is not strictly smaller leaves the first least one: this is where signed zeros stay. -/
theorem FirstLeast.keep (h : FirstLeast key ws k i) (hge : key (ws.getD i 0) ≤ key (ws.getD (k + 1) 0)) :
    FirstLeast key ws (k + 1) i := by
  obtain ⟨hle, hleast, hfirst⟩ := h
  refine ⟨Nat.le_succ_of_le hle, fun j hj => ?_, hfirst⟩
  rcases Nat.lt_or_eq_of_le hj with hj | rfl
  · exact hleast j (Nat.le_of_lt_succ hj)
  · exact hge

end FirstLeast

theorem getD_mem_of_lt {ws : List Word} {k : Nat} (h : k < ws.length) : ws.getD k 0 ∈ ws := by
  rw [List.getD_eq_getElem _ _ h]
  exact List.getElem_mem h

/-- A scan that compares a key of the samples keeps the first sample with the least key. -/
theorem IsScan.exists_firstLeast {better : Word → Word → Bool} {ws : List Word} {z : Nat → Word} {key : Word → Int}
    (hlen : ws.length = 256) (hbetter : ∀ v ∈ ws, ∀ w ∈ ws, (better v w = true ↔ key v < key w))
    (h : IsScan better ws z) : ∀ {k : Nat}, k ≤ 255 → ∃ i, z k = ws.getD i 0 ∧ FirstLeast key ws k i
  | 0, _ => ⟨0, h.1, firstLeast_zero⟩
  | k + 1, hk => by
    obtain ⟨i, hz, hi⟩ := h.exists_firstLeast hlen hbetter (Nat.le_of_succ_le hk)
    have hik := hi.1
    have hcompare := hbetter _ (getD_mem_of_lt (k := k + 1) (by omega)) _ (getD_mem_of_lt (k := i) (by omega))
    have hstep := h.2 k hk
    rw [hz] at hstep
    by_cases hlt : key (ws.getD (k + 1) 0) < key (ws.getD i 0)
    · exact ⟨k + 1, by rw [hstep, if_pos (hcompare.2 hlt)], hi.replace hlt⟩
    · exact ⟨i, by rw [hstep, if_neg (mt hcompare.1 hlt)], hi.keep (not_lt.1 hlt)⟩

section NoNaN
variable {ws : List Word} (hlen : ws.length = 256) (hnan : ∀ w ∈ ws, isNaN w = false)
include hlen hnan

theorem prescanMin_firstLeast : ∃ i, prescanMin ws = ws.getD i 0 ∧ FirstLeast f32Value ws 255 i := by
  have hbetter : ∀ v ∈ ws, ∀ w ∈ ws, (flt v w = true ↔ f32Value v < f32Value w) :=
    fun v hv w hw => flt_iff_of_not_nan (hnan v hv) (hnan w hw)
  have hscan := isScan_keptAfter (better := flt) hlen
  rw [prescanMin_of_isScan hlen hscan]
  exact hscan.exists_firstLeast hlen hbetter le_rfl

/-- The greatest value is the least of the negated values. -/
theorem prescanMax_firstLeast : ∃ i, prescanMax ws = ws.getD i 0 ∧ FirstLeast (fun w => -f32Value w) ws 255 i := by
  have hbetter : ∀ v ∈ ws, ∀ w ∈ ws, (fgt v w = true ↔ -f32Value v < -f32Value w) :=
    fun v hv w hw => (flt_iff_of_not_nan (hnan w hw) (hnan v hv)).trans neg_lt_neg_iff.symm
  have hscan := isScan_keptAfter (better := fgt) hlen
  rw [prescanMax_of_isScan hlen hscan]
  exact hscan.exists_firstLeast hlen hbetter le_rfl

end NoNaN

/-- Settles O37: without NaNs the scan compares values, so it keeps the first least one. -/
theorem prescanKeepsTheFirstLeastSample : Obligations.PrescanKeepsTheFirstLeastSample := by
  unfold Obligations.PrescanKeepsTheFirstLeastSample
  intro s n ws hs hnan
  have hlen := samples_length hs
  obtain ⟨i, hmin, hi, hleast, hfirst⟩ := prescanMin_firstLeast hlen hnan
  have hnot : ∀ j, j < 256 → isNaN (ws.getD j 0) = false := fun j hj => hnan _ (getD_mem_of_lt (by omega))
  have hcompare : ∀ {j k}, j < 256 → k < 256 →
      (flt (ws.getD j 0) (ws.getD k 0) = true ↔ f32Value (ws.getD j 0) < f32Value (ws.getD k 0)) :=
    fun hj hk => flt_iff_of_not_nan (hnot _ hj) (hnot _ hk)
  refine ⟨_, i, exec_prescan_of hs, by omega, (afterPrescan_dcoff n ws s).trans hmin, fun j hj => ?_, fun j hj => ?_⟩
  · rw [← Bool.not_eq_true, hcompare hj (by omega)]
    exact not_lt.2 (hleast j (by omega))
  · exact (hcompare (by omega) (by omega)).2 (hfirst j hj)

/-! #### RANGE under the host's duties (R174, R306) -/

/-- Rounding to nearest passes no representable value. -/
theorem IsRounded.units_le {neg : Bool} {n v : Nat} {r : Word} (h : IsRounded neg n 1 r) (hfin : isFinite r = true)
    (hv : Representable v) (hle : n ≤ v) : f32Units r ≤ v := by
  obtain ⟨-, -, -, hnearest⟩ := h
  obtain ⟨hdist, -⟩ := hnearest hfin v hv
  omega

theorem representable_zero : Representable 0 := ⟨0, rfl, rfl⟩

theorem representable_of_nat {m : Nat} (h : m < 0x1000000) : Representable (m <<< 149) :=
  ⟨f32OfInt m, (f32OfInt_exact (i := m) h).2, (f32OfInt_exact (i := m) h).1⟩

/-- A difference from 0 up to an integer below 2^24 truncates, after rounding, to an integer from 0 to that one. -/
theorem truncInt_fsub_bounds {φ a b : Word} {m : Nat} (ha : isFinite a = true) (hb : isFinite b = true)
    (hm : m < 0x1000000) (hlo : f32Value b ≤ f32Value a) (hhi : f32Value a - f32Value b ≤ ((m <<< 149 : Nat) : Int)) :
    isFinite (fsub φ a b) = true ∧ 0 ≤ truncInt (fsub φ a b) ∧ truncInt (fsub φ a b) ≤ m := by
  have hround := isRounded_fsub (φ := φ) ha hb
  have ⟨hsign, hinf, _, _⟩ := hround
  have hmag : (f32Value a - f32Value b).natAbs ≤ m <<< 149 := by omega
  have hfin : isFinite (fsub φ a b) = true := by
    rw [← Bool.not_eq_false, hinf, Nat.shiftLeft_eq]
    rw [Nat.shiftLeft_eq] at hmag
    omega
  have hunits := hround.units_le hfin (representable_of_nat hm) hmag
  have habs : (truncInt (fsub φ a b)).natAbs ≤ m := by
    rw [truncInt_natAbs, Nat.shiftRight_eq_div_pow]
    rw [Nat.shiftLeft_eq] at hunits
    exact Nat.div_le_of_le_mul (Nat.mul_comm m _ ▸ hunits)
  have hnonneg : 0 ≤ truncInt (fsub φ a b) := by
    by_cases hzero : f32Value a - f32Value b = 0
    · have hunits0 := hround.units_le hfin representable_zero (by omega)
      have habs0 := truncInt_natAbs (fsub φ a b)
      rw [Nat.le_zero.1 hunits0, Nat.zero_shiftRight] at habs0
      omega
    · rw [if_neg hzero, decide_eq_false (by omega)] at hsign
      exact truncInt_nonneg hsign
  exact ⟨hfin, hnonneg, by omega⟩

/-- Under the host's duties the least and the greatest sample are finite, in order, and less than 65535 apart. -/
theorem HostDuty.extremes {ws : List Word} (h : HostDuty ws) (hlen : ws.length = 256) :
    isFinite (prescanMin ws) = true ∧ isFinite (prescanMax ws) = true ∧
      f32Value (prescanMin ws) ≤ f32Value (prescanMax ws) ∧
      f32Value (prescanMax ws) - f32Value (prescanMin ws) < ((65535 <<< 149 : Nat) : Int) := by
  obtain ⟨hfin, hdiff⟩ := h
  have hnan : ∀ w ∈ ws, isNaN w = false := fun w hw => (not_special_of_finite (hfin w hw)).1
  obtain ⟨i, hmin, hi, hleast, -⟩ := prescanMin_firstLeast hlen hnan
  obtain ⟨j, hmax, hj, -, -⟩ := prescanMax_firstLeast hlen hnan
  have hmem : ∀ k, k ≤ 255 → ws.getD k 0 ∈ ws := fun k hk => getD_mem_of_lt (by omega)
  rw [hmin, hmax]
  exact ⟨hfin _ (hmem i hi), hfin _ (hmem j hj), hleast j hj, hdiff _ (hmem j hj) _ (hmem i hi)⟩

/-- Settles O38: the difference is from 0 to 65535 and 65535 is representable, so rounding and truncation keep it there. -/
theorem hostDutyGivesPositiveRange : Obligations.HostDutyGivesPositiveRange := by
  unfold Obligations.HostDutyGivesPositiveRange
  intro s n ws hs hduty
  obtain ⟨hminFin, hmaxFin, hle, hdiff⟩ := hduty.extremes (samples_length hs)
  obtain ⟨hfin, hlo, hhi⟩ := truncInt_fsub_bounds (φ := 0) hmaxFin hminFin (by decide) hle hdiff.le
  have hfits := truncFits_iff.2 ⟨hfin, by omega, by omega⟩
  have hrange : prescanRange (Config.freeWord s.draws) ws = _ := prescanRange_of_fits hfits _
  refine ⟨_, exec_prescan_of hs, ?_⟩
  rw [complete_slot, afterPrescan_range, hrange, BitVec.toNat_ofInt]
  omega

end Sys2Proof.Machine
end

section
/-! ### Reads of unwritten words (R201, R250, R295) -/

namespace Sys2Proof.Machine

/-! #### The read and the stages -/

theorem loadWord_of_loadWords_error {m : Memory} {a n e : Nat} (h : m.loadWords a n = .error e) :
    m.loadWord e = none := by
  obtain ⟨-, -, -, hnone⟩ := loadWords_error h
  exact hnone

/-- A run with an unwritten word cannot be read, and the answer names an unwritten word of it. -/
theorem exists_loadWords_error {m : Memory} {a n k : Nat} (hk : k < n) (h : m.loadWord (a + 4 * k) = none) :
    ∃ e, m.loadWords a n = .error e ∧ m.loadWord e = none := by
  cases hload : m.loadWords a n with
  | error e => exact ⟨e, rfl, loadWord_of_loadWords_error hload⟩
  | ok ws =>
    obtain ⟨hlen, hwords⟩ := loadWords_ok_iff.1 hload
    have hsome := hwords k (by omega)
    rw [h] at hsome
    contradiction

section Stages
variable {n : Fin 4} {ext : Bool} {s : State} {a : Nat}

theorem prescanStage_of_unwritten (h : s.mem.loadWords (sampleBase n) 256 = .error a) :
    prescanStage n s = .fault (.unwrittenState a) := by
  rw [prescanStage, withSamples, h]

theorem transformStage_of_unwritten (hrange : (s.slot n).range ≠ 0)
    (h : s.mem.loadWords (sampleBase n) 256 = .error a) : transformStage n s = .fault (.unwrittenState a) := by
  rw [transformStage, if_neg hrange, withSamples, h]

theorem hdrencStage_of_unwritten (hfit : s.bitpos.toNat + headerLength ext ≤ 32768)
    (h : s.mem.loadWords coefBase 256 = .error a) : hdrencStage n ext s = .fault (.unwrittenState a) := by
  rw [hdrencStage, overflows_eq_false.2 hfit, if_neg Bool.false_ne_true, withCoefs, h]

theorem coefencStage_of_unwritten (h : s.mem.loadWords coefBase 256 = .error a) :
    coefencStage n s = .fault (.unwrittenState a) := by
  rw [coefencStage, withCoefs, h]

/-- A slot of BUILD reads its samples before anything else. -/
theorem buildSlot_of_unwritten (h : s.mem.loadWords (sampleBase n) 256 = .error a) :
    buildSlot ext n s = .fault (.unwrittenState a) := by
  rw [buildSlot, prescanStage_of_unwritten (s := enterSlot n s) h, andThen_fault]

theorem exec_of_fault {i : Instr} {f : Fault} (h : stageOf i s = .fault f) : exec i s = .fault f := by
  rw [exec_eq_finish, h, finish_fault]

end Stages

/-! #### BUILD: the first slot with an unwritten sample -/

theorem CmdResult.Ends.exists_done {P : State → Prop} {r : CmdResult} (h : r.Ends P fun _ _ => False) :
    ∃ t, r = .done t ∧ P t := by
  cases r with
  | done t => exact ⟨t, rfl, h⟩
  | error e t => exact h.elim
  | fault f => exact h.elim

theorem foldl_andThen_fault (f : Fin 4 → State → CmdResult) (x : Fault) (l : List (Fin 4)) :
    l.foldl (fun r n => r.andThen (f n)) (CmdResult.fault x) = .fault x := by
  induction l with
  | nil => rfl
  | cons n l ih => rw [List.foldl_cons, andThen_fault, ih]

/-- BUILD works on the slots before `n`, then on `n` (R250). -/
theorem buildSlots_split {count : Nat} (hcount : count ≤ 4) {n : Fin 4} (hn : n.val < count) :
    buildSlots count = buildSlots n.val ++ n :: (buildSlots count).drop (n.val + 1) := by
  have h : ∀ count : Fin 5, ∀ n : Fin 4, n.val < count.val →
      buildSlots count.val = buildSlots n.val ++ n :: (buildSlots count.val).drop (n.val + 1) := by decide
  exact h ⟨count, by omega⟩ n hn

/-- The samples of a slot read inside a BUILD as when it began, unwritten words included (R53). -/
theorem DataFrame.loadWords_samples {slots : Fin 4 → Prop} {s t : State} (h : DataFrame slots s t) (n : Fin 4) :
    t.mem.loadWords (sampleBase n) 256 = s.mem.loadWords (sampleBase n) 256 :=
  loadWords_congr fun a _ hhi => h.mem a (.inl (by unfold sampleBase at hhi; omega))

/-- No slot before `n` gets a RANGE of 0 from its samples, where they are written. -/
def RangesNonzeroBefore (s : State) (n : Fin 4) : Prop :=
  ∀ (m : Fin 4) (ws : List Word) (free : Nat → Word), m.val < n.val → Samples s m ws → prescanRange free ws ≠ 0

theorem RangesNonzeroBefore.mono {s : State} {m n : Fin 4} (h : RangesNonzeroBefore s n) (hm : m.val < n.val) :
    RangesNonzeroBefore s m := fun k ws free hk => h k ws free (hk.trans hm)

section Build
variable {slots : Fin 4 → Prop} {s t : State} {j count : Nat} {n : Fin 4} {ext : Bool}

/-- The stages of slot `j` of a BUILD succeed on written samples that give no RANGE of 0. -/
theorem buildSlot_succeeds (h : BuildProgress slots s j t) (hn : slots n) (hj : j < 4) {ws : List Word}
    (hws : Samples s n ws) (hrange : ∀ free, prescanRange free ws ≠ 0) :
    (buildSlot ext n t).Ends (BuildProgress slots s (j + 1)) fun _ _ => False := by
  have hforce := (h.afterPrescan hn ws).forceQwb hn
  have hnonzero : ((forceQwb n (afterPrescan n ws (enterSlot n t))).slot n).range ≠ 0 := by
    rw [forceQwb_slot, if_pos rfl, afterPrescan_range]
    exact hrange _
  rw [buildSlot, prescanStage_of (s := enterSlot n t) (h.frame.samples hws), andThen_done,
    transformStage_of (hforce.frame.samples hws), if_neg hnonzero, andThen_done]
  have hend := header_and_tokens_end (ext := ext) (hforce.afterTransform (n := n) ws) hn (by omega) fun _ _ => False
  exact hend.mono fun _ h => h.progress (by omega)

/-- BUILD comes to slot `n` when every slot before it has written samples that give no RANGE of 0. -/
theorem slots_before_succeed (ext : Bool) (type : BitVec 8) (hrange : RangesNonzeroBefore s n)
    (hwritten : ∀ m : Fin 4, m.val < n.val → ∃ ws, Samples s m ws) :
    ∃ t, (buildSlots n.val).foldl (fun r m => r.andThen (buildSlot ext m)) (ghdrStage type s) = .done t ∧
      DataFrame (fun _ => True) s t := by
  have hle : n.val ≤ 4 := n.isLt.le
  have hslot : ∀ m ∈ buildSlots n.val, ∀ i, i < 0 + (buildSlots n.val).length → ∀ t,
      BuildProgress (fun _ => True) s i t →
        (buildSlot ext m t).Ends (BuildProgress (fun _ => True) s (i + 1)) fun _ _ => False := by
    intro m hm i hi t ht
    have hlt := (mem_buildSlots hle).1 hm
    obtain ⟨ws, hws⟩ := hwritten m hlt
    rw [buildSlots_length hle] at hi
    exact buildSlot_succeeds ht trivial (by omega) hws fun free => hrange m ws free hlt hws
  have hends := foldl_andThen_ends (buildSlots n.val) hslot (r := ghdrStage type s) (groupHeader_progress type s)
  obtain ⟨t, ht, hprogress⟩ := hends.exists_done
  exact ⟨t, ht, hprogress.frame⟩

/-- A BUILD of a slot with an unwritten sample faults at the first such slot, unless a RANGE of 0 ends it before. -/
theorem buildMessage_of_unwritten (ext : Bool) (type : BitVec 8) (hcount : count ≤ 4) (hn : n.val < count)
    (hrange : RangesNonzeroBefore s n) {a : Nat} (h : s.mem.loadWords (sampleBase n) 256 = .error a) :
    ∃ a, buildMessage count ext type s = .fault (.unwrittenState a) ∧ s.mem.loadWord a = none := by
  induction n using WellFoundedLT.induction generalizing a with
  | ind n ih =>
    by_cases hwritten : ∀ m : Fin 4, m.val < n.val → ∃ ws, Samples s m ws
    · obtain ⟨t, ht, hframe⟩ := slots_before_succeed ext type hrange hwritten
      refine ⟨a, ?_, loadWord_of_loadWords_error h⟩
      rw [← hframe.loadWords_samples n] at h
      rw [buildMessage, buildSlots_split hcount hn, List.foldl_append, ht, List.foldl_cons, andThen_done,
        buildSlot_of_unwritten h, foldl_andThen_fault, andThen_fault]
    · push Not at hwritten
      obtain ⟨m, hm, hunwritten⟩ := hwritten
      cases hload : s.mem.loadWords (sampleBase m) 256 with
      | ok ws => exact absurd hload (hunwritten ws)
      | error b => exact ih m hm (hm.trans hn) (hrange.mono hm) hload

theorem buildStage_of_unwritten (ext : Bool) (type : BitVec 8) (hcount : count ≤ 4) (hn : n.val < count)
    (hrange : RangesNonzeroBefore s n) {a : Nat} (h : s.mem.loadWords (sampleBase n) 256 = .error a) :
    ∃ a, buildStage count ext type s = .fault (.unwrittenState a) ∧ s.mem.loadWord a = none := by
  obtain ⟨b, hmessage, hb⟩ := buildMessage_of_unwritten ext type hcount hn hrange h
  refine ⟨b, ?_, hb⟩
  have hvalid : ¬(count < 1 ∨ Config.maxPatches < count) := by unfold Config.maxPatches; omega
  rw [buildStage, if_neg hvalid, hmessage]

end Build

/-- Settles O29: the read names an unwritten word, each command reads after its own check, and BUILD faults at its first
slot with an unwritten sample. -/
theorem readingUnwrittenStateFaults : Obligations.ReadingUnwrittenStateFaults := by
  unfold Obligations.ReadingUnwrittenStateFaults
  intro s n ext k hk
  refine ⟨fun hsample => ?_, fun hcoef => ?_⟩
  · obtain ⟨a, hload, hnone⟩ := exists_loadWords_error (a := sampleBase n) hk hsample
    refine ⟨⟨a, ?_, hnone⟩, fun hrange => ⟨a, ?_, hnone⟩, fun count type hcount hn hrange => ?_⟩
    · exact exec_of_fault (i := .prescan n) (prescanStage_of_unwritten hload)
    · exact exec_of_fault (i := .transform n) (transformStage_of_unwritten hrange hload)
    · obtain ⟨b, hbuild, hb⟩ := buildStage_of_unwritten ext type hcount hn hrange hload
      exact ⟨b, exec_of_fault (i := .build count ext type) hbuild, hb⟩
  · obtain ⟨a, hload, hnone⟩ := exists_loadWords_error (a := coefBase) hk hcoef
    refine ⟨fun hfit => ⟨a, ?_, hnone⟩, a, ?_, hnone⟩
    · exact exec_of_fault (i := .hdrenc n ext) (hdrencStage_of_unwritten hfit hload)
    · exact exec_of_fault (i := .coefenc n) (coefencStage_of_unwritten hload)

end Sys2Proof.Machine
end

section
/-! ### TRANSFORM: the two passes entry by entry, and what they depend on (R180 to R190) -/

namespace Sys2Proof.Machine

/-! #### Row-major 16x16 blocks -/

/-- The entry in row `r` and column `c` of a row-major 16x16 list. -/
def entryOf (b : List Word) (r c : Nat) : Word := b.getD (16 * r + c) 0

section Block
variable {b : List Word} {r c : Nat}

theorem lineOf_length (hb : b.length = 256) (hr : r < 16) : (lineOf r b).length = 16 := by
  rw [lineOf, List.length_take, List.length_drop]
  omega

theorem lineOf_getD (hc : c < 16) : (lineOf r b).getD c 0 = entryOf b r c := by
  rw [lineOf, entryOf, List.getD_eq_getElem?_getD, List.getElem?_take_of_lt hc, List.getElem?_drop,
    List.getD_eq_getElem?_getD]

theorem columnOf_length : (columnOf c b).length = 16 := by
  rw [columnOf, List.length_map, List.length_range]

theorem columnOf_getD (hr : r < 16) : (columnOf c b).getD r 0 = entryOf b r c := by
  rw [columnOf, List.getD_eq_getElem?_getD, List.getElem?_map, List.getElem?_range hr]
  rfl

end Block

theorem scaledBlock_length (free : Nat → Word) (premult sub : Word) (ws : List Word) :
    (scaledBlock free premult sub ws).length = ws.length := by
  rw [scaledBlock, List.length_map, List.length_zipIdx]

/-- `b[r][c]`: one rounded product and one rounded difference (R185). -/
theorem scaledBlock_entryOf (free : Nat → Word) (premult sub : Word) {ws : List Word} {r c : Nat}
    (h : 16 * r + c < ws.length) : entryOf (scaledBlock free premult sub ws) r c =
      fsub (free (2 * (16 * r + c) + 1)) (fmul (free (2 * (16 * r + c))) (ws.getD (16 * r + c) 0) premult) sub := by
  simp [entryOf, scaledBlock, List.getD_eq_getElem?_getD, h]

theorem rowPass_entryOf (free : Nat → Word) (b : List Word) {r u : Nat} (hr : r < 16) (hu : u < 16) :
    entryOf (rowPass free b) r u = rowValue free b r u := by
  rw [entryOf, List.getD_eq_getElem?_getD, rowPass_getElem? free b hr hu, Option.getD_some]

/-! #### The passes are those of R186 to R190 -/

theorem isLine_congr {u : Nat} {x x' : Nat → Word} {v : Word} (h : ∀ n, n < 16 → x n = x' n) (hline : IsLine u x v) :
    IsLine u x' v := by
  rcases hline with ⟨hu, sum, φ, hsum, hv⟩ | ⟨hu, t, ht, hsum⟩
  · exact .inl ⟨hu, sum, φ, isSum_congr h hsum, hv⟩
  · exact .inr ⟨hu, t, fun n hn => h n hn ▸ ht n hn, hsum⟩

section Lines
variable (free : Nat → Word) {b : List Word} {r u c : Nat}

/-- An entry of the row pass is a line of its row of the block (R186). -/
theorem isLine_rowPass (hb : b.length = 256) (hr : r < 16) (hu : u < 16) :
    IsLine u (entryOf b r) (entryOf (rowPass free b) r u) := by
  rw [rowPass_entryOf free b hr hu]
  exact isLine_congr (fun _ hn => lineOf_getD hn) (isLine_dctLine _ hu (lineOf_length hb hr))

/-- The line of a column, before the two scalings (R188). -/
theorem isLine_column (rows : List Word) (hu : u < 16) :
    IsLine u (fun r => entryOf rows r c) (dctLine (columnSites free (16 * u + c)) u (columnOf c rows)) :=
  isLine_congr (fun _ hn => columnOf_getD hn) (isLine_dctLine _ hu columnOf_length)

theorem columnPass_getD (rows : List Word) (hu : u < 16) (hc : c < 16) :
    (columnPass free rows).getD (zigAt u c) 0 = coefValue free rows u c := by
  rw [List.getD_eq_getElem?_getD, columnPass_getElem? free rows hu hc, Option.getD_some]

end Lines

/-! #### ROWBUF and COEF after TRANSFORM -/

/-- ROWBUF as TRANSFORM leaves it, from prequant bits, DCOFF, RANGE and samples (R183 to R186). -/
def transformRows (free : Nat → Word) (p : Nat) (dcoff range : Word) (ws : List Word) : List Word :=
  rowPass free (scaledBlock free (premultOf free p range) (subOf free p dcoff (premultOf free p range)) ws)

/-- COEF as TRANSFORM leaves it (R188 to R190). -/
def transformCoefs (free : Nat → Word) (p : Nat) (dcoff range : Word) (ws : List Word) : List Word :=
  columnPass free (transformRows free p dcoff range ws)

section Passes
variable (free : Nat → Word) (p : Nat) (dcoff range : Word) (ws : List Word)

theorem transformRows_length : (transformRows free p dcoff range ws).length = 256 := rowPass_length _ _

theorem transformCoefs_length : (transformCoefs free p dcoff range ws).length = 256 := columnPass_length _ _

/-- The two passes give what the rules give (R180 to R190). -/
theorem isTransform_passes (hws : ws.length = 256) :
    IsTransform p dcoff range ws (entryOf (transformRows free p dcoff range ws))
      (transformCoefs free p dcoff range ws) := by
  have hblock : ∀ premult sub, (scaledBlock free premult sub ws).length = 256 :=
    fun premult sub => (scaledBlock_length free premult sub ws).trans hws
  refine ⟨premultOf free p range, subOf free p dcoff (premultOf free p range), entryOf (scaledBlock free _ _ ws),
    ⟨_, rfl⟩, ⟨_, _, rfl⟩, fun r c hr hc => ⟨_, _, scaledBlock_entryOf free _ _ (by omega)⟩,
    fun r u hr hu => isLine_rowPass free (hblock _ _) hr hu, fun u c hu hc => ?_⟩
  exact ⟨_, _, _, _, isLine_column free _ hu, columnPass_getD free _ hu hc⟩

end Passes

/-- The scaled block that the engine holds between the scaling and the passes (R58, R185). -/
theorem scaleSamples_block (n : Fin 4) (ws : List Word) (s : State) :
    (scaleSamples n ws s).engine.block = scaledBlock (Config.freeWord s.draws)
      (premultOf (Config.freeWord s.draws) (prequant (s.slot n).qwb) (s.slot n).range)
      (subOf (Config.freeWord s.draws) (prequant (s.slot n).qwb) (s.slot n).dcoff
        (premultOf (Config.freeWord s.draws) (prequant (s.slot n).qwb) (s.slot n).range)) ws := by
  rw [scaleSamples, withEngine_engine]

/-- The memory after TRANSFORM: ROWBUF and COEF stored over the old (R54, R55). -/
theorem afterTransform_mem (n : Fin 4) (ws : List Word) (s : State) : (afterTransform n ws s).mem =
    (s.mem.storeWords rowbufBase (transformRows (Config.freeWord s.draws) (prequant (s.slot n).qwb) (s.slot n).dcoff
      (s.slot n).range ws)).storeWords coefBase (transformCoefs (Config.freeWord s.draws) (prequant (s.slot n).qwb)
        (s.slot n).dcoff (s.slot n).range ws) := by
  rw [afterTransform, transformPasses_mem, scaleSamples_mem, scaleSamples_draws, scaleSamples_block,
    transformCoefs, transformRows]

/-- Stored ROWBUF and COEF read back. -/
theorem holdsTransform_of_mem {t : State} {m : Memory} {rows cs : List Word} (hrows : rows.length = 256)
    (hcs : cs.length = 256) (h : t.mem = (m.storeWords rowbufBase rows).storeWords coefBase cs) :
    HoldsTransform t (entryOf rows) cs := by
  constructor
  · rw [Coefs, h, ← hcs]
    exact loadWords_storeWords coefBase cs _
  · intro r u hr hu
    have hk : 16 * r + u < rows.length := by omega
    rw [h, loadWord_storeWords_outside (by rw [hcs]; unfold coefBase; omega), entryOf, List.getD_eq_getElem _ _ hk]
    exact loadWord_storeWords hk

theorem load_storeWords_inside {a x : Nat} {ws : List Word} {m m' : Memory} (hlo : a ≤ x) (hhi : x < a + 4 * ws.length) :
    (m.storeWords a ws).load x = (m'.storeWords a ws).load x := by
  have hin : a ≤ x ∧ x < a + (ws.flatMap wordBytes).length := by rw [flatMap_wordBytes_length]; exact ⟨hlo, hhi⟩
  rw [Memory.storeWords, Memory.storeWords, load_store, load_store, if_pos hin, if_pos hin]

/-- Nothing of the old memory shows in ROWBUF and COEF once both are stored. -/
theorem load_rowbuf_coef_congr {m m' : Memory} {rows cs : List Word} (hrows : rows.length = 256) (hcs : cs.length = 256)
    {a : Nat} (hlo : 0x3000 ≤ a) (hhi : a < 0x3800) :
    ((m.storeWords rowbufBase rows).storeWords coefBase cs).load a =
      ((m'.storeWords rowbufBase rows).storeWords coefBase cs).load a := by
  by_cases hcoef : a < 0x3400
  · exact load_storeWords_inside hlo (by rw [hcs]; unfold coefBase; omega)
  · have hout : a < coefBase ∨ coefBase + 4 * cs.length ≤ a := by rw [hcs]; unfold coefBase; omega
    rw [load_storeWords_outside hout, load_storeWords_outside hout]
    exact load_storeWords_inside (by unfold rowbufBase; omega) (by rw [hrows]; unfold rowbufBase; omega)

/-! #### TRANSFORM as one step -/

theorem transformStage_of_range_zero {n : Fin 4} {s : State} (h : (s.slot n).range = 0) :
    transformStage n s = .error .badRange s := by
  rw [transformStage, if_pos h]

/-- TRANSFORM on written samples with a RANGE other than 0 ends in success (R180). -/
theorem exec_transform_of {n : Fin 4} {s : State} {ws : List Word} (h : Samples s n ws) (hrange : (s.slot n).range ≠ 0) :
    exec (.transform n) s = .next (complete none (afterTransform n ws s)) := by
  rw [exec_eq_finish, stageOf, transformStage_of h, if_neg hrange, finish_done]

/-- Settles O40: the check of RANGE comes before the read (R181). -/
theorem transformWithRangeZeroIsBadRange : Obligations.TransformWithRangeZeroIsBadRange := by
  unfold Obligations.TransformWithRangeZeroIsBadRange
  intro s n h
  exact exec_of_error (i := .transform n) (transformStage_of_range_zero h)

/-- Settles O39: TRANSFORM stores the rows and coefficients of the two passes, which are those of the rules. -/
theorem transformCompletesWithTheTwoPasses : Obligations.TransformCompletesWithTheTwoPasses := by
  unfold Obligations.TransformCompletesWithTheTwoPasses
  intro s n ws hs hrange
  refine ⟨complete none (afterTransform n ws s), _, _, exec_transform_of hs hrange,
    endsOk_complete s _ (afterTransform_status n ws s) (afterTransform_control n ws s), ?_, ?_, fun a ha => ?_,
    holdsTransform_of_mem (transformRows_length _ _ _ _ _) (transformCoefs_length _ _ _ _ _)
      ((complete_mem _ _).trans (afterTransform_mem n ws s)),
    isTransform_passes _ _ _ _ ws (samples_length hs)⟩
  · rw [complete_slots, afterTransform_slots]
  · rw [complete_bitpos, afterTransform_bitpos]
  · rw [complete_mem, afterTransform, transformPasses_load_outside ha, scaleSamples_mem]

/-- Settles O41: ROWBUF and COEF are stored whole, and their words are functions of the operands alone. -/
theorem transformDependsOnlyOnItsOperands : Obligations.TransformDependsOnlyOnItsOperands := by
  unfold Obligations.TransformDependsOnlyOnItsOperands
  intro s s' n n' ws hs hs' hqwb hdcoff hrange hdraws hnonzero
  refine ⟨_, _, exec_transform_of hs hnonzero, exec_transform_of hs' (hrange ▸ hnonzero), fun a hlo hhi => ?_⟩
  have hprequant : prequant (s.slot n).qwb = prequant (s'.slot n').qwb := by
    rw [prequant, prequant, qwbHigh, qwbHigh, hqwb]
  rw [complete_mem, complete_mem, afterTransform_mem, afterTransform_mem, hprequant, hdcoff, hrange, hdraws]
  exact load_rowbuf_coef_congr (transformRows_length _ _ _ _ _) (transformCoefs_length _ _ _ _ _) hlo hhi

end Sys2Proof.Machine
end

section
/-! ### wbits: the highest bit seen in the scan (R202 to R205) -/

namespace Sys2Proof.Machine

/-- `r` is what a scan of the bits `lo + 1` to `hi` makes of the width `w`: no set bit of a magnitude lies above it, and
where it is not `w` it is such a bit (R204). -/
structure HighestSeen (lo hi w : Nat) (cs : List Word) (r : Nat) : Prop where
  start : w ≤ r
  upper : ∀ c ∈ cs, ∀ j, lo < j → j ≤ hi → (absU32 c).getLsbD j = true → j ≤ r
  seen : r = w ∨ r ≤ hi ∧ ∃ c ∈ cs, (absU32 c).getLsbD r = true

section Scan
variable {v : Word} {lo hi w r r' : Nat} {c : Word} {cs cs' : List Word}

/-- The scan of one magnitude stops at a set bit in its range. -/
theorem scanBit_some {j k : Nat} (h : scanBit v lo j = some k) : k ≤ j ∧ v.getLsbD k = true := by
  induction j with
  | zero => cases h
  | succ j ih =>
    rw [scanBit] at h
    split at h
    · cases h
    · split at h
      next hbit =>
        cases h
        exact ⟨le_rfl, hbit⟩
      next =>
        obtain ⟨hle, hbit⟩ := ih h
        exact ⟨Nat.le_succ_of_le hle, hbit⟩

/-- The scan of one magnitude passes no set bit of its range. -/
theorem exists_scanBit {j k : Nat} (hlo : lo < k) (hj : k ≤ j) (hbit : v.getLsbD k = true) :
    ∃ m, scanBit v lo j = some m ∧ k ≤ m := by
  induction j with
  | zero => omega
  | succ j ih =>
    rw [scanBit, if_neg (by omega)]
    split
    next => exact ⟨j + 1, rfl, hj⟩
    next hclear =>
      have hne : k ≠ j + 1 := fun e => hclear (e ▸ hbit)
      exact ih (by omega)

theorem absU32_zero : absU32 0 = 0 := by decide

/-- The scan of one coefficient (R204). -/
theorem highestSeen_raiseWidth (lo hi w : Nat) (c : Word) : HighestSeen lo hi w [c] (raiseWidth lo hi w c) := by
  unfold raiseWidth
  split
  next hzero =>
    refine ⟨le_rfl, fun x hx j _ _ hbit => ?_, .inl rfl⟩
    rw [List.mem_singleton.1 hx, hzero, absU32_zero] at hbit
    simp at hbit
  next =>
    split
    next k hscan =>
      obtain ⟨hhi, hset⟩ := scanBit_some hscan
      have hupper : ∀ x ∈ [c], ∀ j, lo < j → j ≤ hi → (absU32 x).getLsbD j = true → j ≤ k := by
        intro x hx j hlo hj hbit
        rw [List.mem_singleton.1 hx] at hbit
        obtain ⟨m, hm, hle⟩ := exists_scanBit hlo hj hbit
        cases hscan.symm.trans hm
        exact hle
      split
      next hlt => exact ⟨hlt.le, hupper, .inr ⟨hhi, c, List.mem_singleton_self c, hset⟩⟩
      next hle => exact ⟨le_rfl, fun x hx j hlo hj hbit => (hupper x hx j hlo hj hbit).trans (by omega), .inl rfl⟩
    next hscan =>
      refine ⟨le_rfl, fun x hx j hlo hj hbit => ?_, .inl rfl⟩
      rw [List.mem_singleton.1 hx] at hbit
      obtain ⟨m, hm, -⟩ := exists_scanBit hlo hj hbit
      cases hscan.symm.trans hm

theorem HighestSeen.append (h : HighestSeen lo hi w cs r) (h' : HighestSeen lo hi r cs' r') :
    HighestSeen lo hi w (cs ++ cs') r' where
  start := h.start.trans h'.start
  upper c hc j hlo hj hbit := by
    rcases List.mem_append.1 hc with hc | hc
    · exact (h.upper c hc j hlo hj hbit).trans h'.start
    · exact h'.upper c hc j hlo hj hbit
  seen := by
    rcases h'.seen with rfl | ⟨hhi, c, hc, hbit⟩
    · exact h.seen.imp_right fun ⟨hhi, c, hc, hbit⟩ => ⟨hhi, c, List.mem_append_left _ hc, hbit⟩
    · exact .inr ⟨hhi, c, List.mem_append_right _ hc, hbit⟩

/-- The scan over all coefficients, in order (R204). -/
theorem highestSeen_foldl (lo hi w : Nat) (cs : List Word) :
    HighestSeen lo hi w cs (cs.foldl (raiseWidth lo hi) w) := by
  induction cs generalizing w with
  | nil => exact ⟨le_rfl, nofun, .inl rfl⟩
  | cons c cs ih => exact (highestSeen_raiseWidth lo hi w c).append (ih _)

end Scan

theorem minWidth_bounds (q : BitVec 8) : 1 ≤ minWidth q ∧ minWidth q ≤ 8 := by
  have h : qwbLow q < 16 := (q.extractLsb' 0 4).isLt
  unfold minWidth
  omega

theorem clampWidth_of_mem {w : Nat} (hlo : 2 ≤ w) (hhi : w ≤ 17) : clampWidth w = w := by
  simp [clampWidth, Config.wbitsMin, Config.wbitsMax, Nat.not_lt.2 hlo, Nat.not_lt.2 hhi]

/-- wbits is one above what the scan of the bits from minW + 1 to minW + 5 finds: the clamp never acts (R203 to R205). -/
theorem exists_highestSeen_chooseWidth (q : BitVec 8) (cs : List Word) : ∃ r, chooseWidth .doc q cs = r + 1 ∧
    r ≤ minWidth q + 5 ∧ HighestSeen (minWidth q) (minWidth q + 5) (minWidth q) cs r := by
  have hscan := highestSeen_foldl (minWidth q) (minWidth q + 5) (minWidth q) cs
  have hmin := minWidth_bounds q
  have hle : cs.foldl (raiseWidth (minWidth q) (minWidth q + 5)) (minWidth q) ≤ minWidth q + 5 := by
    rcases hscan.seen with h | ⟨h, -⟩
    · rw [h]
      exact Nat.le_add_right _ _
    · exact h
  refine ⟨_, clampWidth_of_mem ?_ ?_, hle, hscan⟩
  · exact Nat.succ_le_succ (hmin.1.trans hscan.start)
  · exact (Nat.succ_le_succ hle).trans (by omega)

theorem chooseWidth_bounds (q : BitVec 8) (cs : List Word) :
    minWidth q + 1 ≤ chooseWidth .doc q cs ∧ chooseWidth .doc q cs ≤ minWidth q + 6 := by
  obtain ⟨r, hr, hle, hscan⟩ := exists_highestSeen_chooseWidth q cs
  have hstart := hscan.start
  omega

/-- Settles O43: wbits is one above the highest bit that the scan sees, and minW is 1 to 8. -/
theorem wbitsIsTheHighestSeenBitPlusOne : Obligations.WbitsIsTheHighestSeenBitPlusOne := by
  unfold Obligations.WbitsIsTheHighestSeenBitPlusOne
  rintro q cs minW w (rfl : minW = minWidth q) rfl
  obtain ⟨hlo, hhi⟩ := chooseWidth_bounds q cs
  have hmin := minWidth_bounds q
  obtain ⟨r, hr, -, hscan⟩ := exists_highestSeen_chooseWidth q cs
  refine ⟨hlo, hhi, by omega, by omega, fun c hc j hj hj' hbit => ?_, ?_⟩
  · rw [hr]
    exact Nat.lt_succ_of_le (hscan.upper c hc j hj hj' hbit)
  · rw [hr, Nat.add_sub_cancel]
    exact hscan.seen.imp (congrArg (· + 1)) fun ⟨_, hset⟩ => hset

end Sys2Proof.Machine
end

section
/-! ### HDRENC: the slot registers it writes and the header it appends (R206 to R210) -/

namespace Sys2Proof.Machine

theorem bitsDown_congr {v v' : Word} {lo n : Nat} (h : ∀ i, i < n → v.getLsbD (lo + i) = v'.getLsbD (lo + i)) :
    bitsDown v lo n = bitsDown v' lo n := by
  induction n with
  | zero => rfl
  | succ n ih => rw [bitsDown, bitsDown, h n (Nat.lt_succ_self n), ih fun i hi => h i (Nat.lt_succ_of_lt hi)]

/-- Appending 16 bits of RANGE appends RANGE[15:0] (R209). -/
theorem bitsDown_and_low_half (v : Word) : bitsDown v 0 16 = bitsDown (v &&& 0xFFFF) 0 16 := by
  have hmask : ∀ i, i < 16 → (0xFFFF : Word).getLsbD i = true := by decide
  refine bitsDown_congr fun i hi => ?_
  rw [Nat.zero_add, BitVec.getLsbD_and, hmask i hi, Bool.and_true]

/-- The header's bits are those of the formulas (R209). -/
theorem headerBits_eq_formula (r : Slot) (ext : Bool) : headerBits r ext = headerFormula ext r := by
  rw [headerBits, headerFormula, ← bitsDown_and_low_half]
  rfl

theorem extract_low_eq_and (x : BitVec 16) : (x.extractLsb' 0 5).setWidth 32 = x.setWidth 32 &&& 0x1F := by
  apply BitVec.eq_of_toNat_eq
  rw [BitVec.toNat_and, BitVec.toNat_setWidth, BitVec.toNat_setWidth, BitVec.extractLsb'_toNat, Nat.shiftRight_zero,
    show (0x1F : Word).toNat = 2 ^ 5 - 1 from rfl, Nat.and_two_pow_sub_one_eq_mod]
  omega

/-- Concatenation is the formula of the extended form, and two five-bit fields side by side that of the standard one
(R207, R208). -/
theorem patchId_eq_formula (ext : Bool) (x y : BitVec 16) : patchId ext x y = patchIdFormula ext x y := by
  cases ext with
  | true => exact (BitVec.setWidth_eq _).symm.trans BitVec.setWidth_append_eq_shiftLeft_setWidth_or
  | false =>
    have happend := BitVec.setWidth_append_eq_shiftLeft_setWidth_or (w'' := 32) (b := x.extractLsb' 0 5)
      (b' := y.extractLsb' 0 5)
    rwa [extract_low_eq_and, extract_low_eq_and] at happend

/-- HDRENC's effect on the registers, with BITPOS and memory still to come (R206 to R208). -/
theorem afterHeader_slot (n k : Fin 4) (ext : Bool) (cs : List Word) (s : State) : (afterHeader n ext cs s).slot k =
    if k = n then headerSlot (chooseWidth .doc (s.slot n).qwb cs) ext (s.slot n) else s.slot k := by
  rw [afterHeader, appendBits_slot, afterHeaderSlot, updateSlot_slot]
  split
  next h => rw [h]; rfl
  next => rfl

/-- HDRENC appends the header of the registers as it leaves them (R209, R210). -/
theorem appended_afterHeader {n : Fin 4} {ext : Bool} (cs : List Word) {s : State}
    (hfit : s.bitpos.toNat + headerLength ext ≤ 32768) :
    Appended (headerFormula ext ((afterHeader n ext cs s).slot n)) s (afterHeader n ext cs s) := by
  rw [← headerBits_eq_formula]
  exact appended_appendBits (s := afterHeaderSlot n ext cs s) (by rwa [headerBits_length])

/-- Settles O42: HDRENC writes QWB and PATCHIDS of its slot, then appends the header of the registers as they then are. -/
theorem hdrencCompletesWithTheHeader : Obligations.HdrencCompletesWithTheHeader := by
  unfold Obligations.HdrencCompletesWithTheHeader
  intro s n ext cs hcs hfit
  have hrun : exec (.hdrenc n ext) s = .next (complete none (afterHeader n ext cs s)) := by
    rw [exec_eq_finish, stageOf, hdrencStage_of hcs hfit, finish_done]
  refine ⟨_, hrun, endsOk_complete s _ rfl ⟨rfl, rfl, rfl, rfl⟩, fun k hk => ?_, rfl, ?_,
    (appended_afterHeader cs hfit).complete none⟩
  · rw [complete_slot, afterHeader_slot, if_neg hk]
  · rw [complete_slot, afterHeader_slot, if_pos rfl, ← patchId_eq_formula]
    rfl

end Sys2Proof.Machine
end

section
/-! ### BUILD: the registers, rows and coefficients of a slot, and the length of its patch (R209, R226, R250 to R253) -/

namespace Sys2Proof.Machine

theorem streamOf_length (s : State) : (streamOf s).length = s.bitpos.toNat := by
  rw [streamOf, List.length_map, List.length_range]

/-- The width that COEFENC reads from QWB is the one that HDRENC put there (R206, R221). -/
theorem coefWidth_qwbWithWidth (q : BitVec 8) {w : Nat} (hlo : 2 ≤ w) (hhi : w ≤ 17) :
    coefWidth (qwbWithWidth q w) = w := by
  have hhigh : (0xF0 : BitVec 8).extractLsb' 0 4 = 0#4 := by decide
  rw [coefWidth, qwbLow, qwbWithWidth, BitVec.extractLsb'_or, BitVec.extractLsb'_and, hhigh, BitVec.and_zero,
    BitVec.zero_or, BitVec.extractLsb'_toNat, BitVec.toNat_ofNat, Nat.shiftRight_zero]
  omega

theorem headerFormula_length (ext : Bool) (r : Slot) : (headerFormula ext r).length = headerLength ext := by
  rw [← headerBits_eq_formula, headerBits_length]

theorem le_headerLength (ext : Bool) : 66 ≤ headerLength ext := by cases ext <;> decide

/-- The tokens of any coefficients have two bits at least: an end marker or a value token (R226). -/
theorem two_le_coefLength (w : Nat) {cs : List Word} (h : cs ≠ []) : 2 ≤ coefLength w cs := by
  induction cs with
  | nil => contradiction
  | cons c cs ih =>
    cases hz : (c :: cs).all (· == 0) with
    | true => rw [coefLength_of_zeros w hz]
    | false =>
      rw [coefLength_cons w hz]
      split
      next hc =>
        have hcs : cs ≠ [] := by
          rintro rfl
          simp [hc] at hz
        exact (ih hcs).trans (Nat.le_add_left _ _)
      next => omega

/-- RANGE as PRESCAN leaves it in a BUILD that has made `d` draws (R173). -/
def buildRange (d : Nat) (ws : List Word) : Word := prescanRange (Config.freeWord d) ws

/-- ROWBUF as TRANSFORM leaves it in a BUILD that had made `d` draws before the slot's PRESCAN (R186, R252). -/
def buildRows (d : Nat) (ws : List Word) : List Word :=
  transformRows (Config.freeWord (d + 1)) (prequant Config.qwbInit) (prescanMin ws) (buildRange d ws) ws

/-- COEF as TRANSFORM leaves it there (R188 to R190, R252). -/
def buildCoefs (d : Nat) (ws : List Word) : List Word :=
  transformCoefs (Config.freeWord (d + 1)) (prequant Config.qwbInit) (prescanMin ws) (buildRange d ws) ws

/-- The slot registers that TRANSFORM and HDRENC find there: PRESCAN's DCOFF and RANGE, and the forced QWB (R172, R173,
R252). -/
def transformSlot (d : Nat) (ws : List Word) (r : Slot) : Slot :=
  { r with dcoff := prescanMin ws, range := buildRange d ws, qwb := Config.qwbInit }

/-- The slot registers that its HDRENC leaves (R206 to R208). -/
def patchSlot (d : Nat) (ext : Bool) (ws : List Word) (r : Slot) : Slot :=
  headerSlot (chooseWidth .doc Config.qwbInit (buildCoefs d ws)) ext (transformSlot d ws r)

/-- One patch of a message: PatchHeader and tokens (R250). -/
def patchBits (ext : Bool) (r : Slot) (cs : List Word) : List Bool := headerFormula ext r ++ tokens (coefWidth r.qwb) cs

section Patch
variable (d : Nat) (ext : Bool) (ws : List Word) (r : Slot)

theorem prequant_qwbInit : prequant Config.qwbInit = 10 := by decide

theorem qwbWithWidth_qwbInit (w : Nat) : qwbWithWidth Config.qwbInit w = 0x80 ||| BitVec.ofNat 8 (w - 2) := by
  rw [qwbWithWidth, show Config.qwbInit &&& 0xF0 = 0x80 by decide]

theorem isTransform_build {ws : List Word} (hws : ws.length = 256) :
    IsTransform 10 (prescanMin ws) (buildRange d ws) ws (entryOf (buildRows d ws)) (buildCoefs d ws) := by
  rw [← prequant_qwbInit]
  exact isTransform_passes _ _ _ _ ws hws

theorem buildRows_length : (buildRows d ws).length = 256 := transformRows_length _ _ _ _ _

theorem buildCoefs_length : (buildCoefs d ws).length = 256 := transformCoefs_length _ _ _ _ _

/-- From QWB_INIT the scan starts at minW = 5, so wbits is 6 to 11 (R203, R252). -/
theorem coefWidth_patchSlot : 6 ≤ coefWidth (patchSlot d ext ws r).qwb ∧ coefWidth (patchSlot d ext ws r).qwb ≤ 11 := by
  have hmin : minWidth Config.qwbInit = 5 := by decide
  obtain ⟨hlo, hhi⟩ := chooseWidth_bounds Config.qwbInit (buildCoefs d ws)
  rw [hmin] at hlo hhi
  have hwidth : coefWidth (patchSlot d ext ws r).qwb = chooseWidth .doc Config.qwbInit (buildCoefs d ws) :=
    coefWidth_qwbWithWidth _ (by omega) (by omega)
  rw [hwidth]
  exact ⟨hlo, hhi⟩

/-- A patch has at least a header of 66 bits and two more, and at most a header of 88 bits and 256 value tokens of 14
(R253). -/
theorem patchBits_length : 68 ≤ (patchBits ext (patchSlot d ext ws r) (buildCoefs d ws)).length ∧
    (patchBits ext (patchSlot d ext ws r) (buildCoefs d ws)).length ≤ 3672 := by
  have hlen := buildCoefs_length d ws
  have hne : buildCoefs d ws ≠ [] := fun h => by simp [h] at hlen
  obtain ⟨-, hwidth⟩ := coefWidth_patchSlot d ext ws r
  have hmin := two_le_coefLength (coefWidth (patchSlot d ext ws r).qwb) hne
  have hmax := coefLength_le (coefWidth (patchSlot d ext ws r).qwb) (buildCoefs d ws)
  rw [hlen] at hmax
  have hheader := le_headerLength ext
  have hheader' := headerLength_le ext
  rw [patchBits, List.length_append, headerFormula_length, tokens_length]
  omega

end Patch

end Sys2Proof.Machine
end

section
/-! ### BUILD: one slot appends one patch (R242, R250, R252) -/

namespace Sys2Proof.Machine

section Memory
variable {s t : State} {rows : Nat → Nat → Word} {cs : List Word} {bits : List Bool}

/-- The stream reads as before where BITPOS and no byte of the stream buffer changed (R89). -/
theorem streamOf_congr (hbitpos : t.bitpos = s.bitpos) (hle : s.bitpos.toNat ≤ 32768)
    (h : ∀ a, a < 0x3000 → t.mem.load a = s.mem.load a) : streamOf t = streamOf s := by
  rw [streamOf, streamOf, hbitpos]
  refine List.map_congr_left fun k hk => ?_
  rw [List.mem_range] at hk
  rw [streamBit, streamBit, h _ (by unfold streamBase; omega)]

theorem HoldsTransform.of_load (hs : HoldsTransform s rows cs) (h : ∀ a, 0x3000 ≤ a → t.mem.load a = s.mem.load a) :
    HoldsTransform t rows cs := by
  obtain ⟨hcoefs, hrows⟩ := hs
  constructor
  · rw [Coefs] at hcoefs ⊢
    rw [← hcoefs]
    exact loadWords_congr fun a hlo _ => h a hlo
  · intro r u hr hu
    rw [← hrows r u hr hu]
    exact loadWord_congr fun a hlo _ => h a (by omega)

/-- An append that stays in the stream buffer keeps ROWBUF and COEF (R56). -/
theorem Appended.holdsTransform (h : Appended bits s t) (hfit : s.bitpos.toNat + bits.length ≤ 32768)
    (hs : HoldsTransform s rows cs) : HoldsTransform t rows cs := by
  obtain ⟨-, -, -, hkept⟩ := h
  exact hs.of_load fun a ha => hkept a (.inr (by omega))

end Memory

/-- The state between TRANSFORM and HDRENC of one slot of BUILD (R250). -/
def afterSlotTransform (n : Fin 4) (ws : List Word) (s : State) : State :=
  afterTransform n ws (forceQwb n (afterPrescan n ws (enterSlot n s)))

section Transform
variable (n k : Fin 4) (ws : List Word) (s : State)

theorem forceQwb_afterPrescan_slot : (forceQwb n (afterPrescan n ws (enterSlot n s))).slot k =
    if k = n then transformSlot s.draws ws (s.slot k) else s.slot k := by
  rw [forceQwb_slot, afterPrescan_slot]
  split <;> rfl

theorem afterSlotTransform_slot : (afterSlotTransform n ws s).slot k =
    if k = n then transformSlot s.draws ws (s.slot k) else s.slot k := by
  rw [afterSlotTransform, afterTransform_slot, forceQwb_afterPrescan_slot]

theorem afterSlotTransform_draws : (afterSlotTransform n ws s).draws = s.draws + 2 := by
  rw [afterSlotTransform, afterTransform_draws, forceQwb_draws]
  rfl

theorem afterSlotTransform_bitpos : (afterSlotTransform n ws s).bitpos = s.bitpos := by
  rw [afterSlotTransform, afterTransform_bitpos, forceQwb_bitpos]
  rfl

theorem afterSlotTransform_mem : (afterSlotTransform n ws s).mem =
    (s.mem.storeWords rowbufBase (buildRows s.draws ws)).storeWords coefBase (buildCoefs s.draws ws) := by
  rw [afterSlotTransform, afterTransform_mem, forceQwb_afterPrescan_slot, if_pos rfl]
  rfl

theorem afterSlotTransform_holds :
    HoldsTransform (afterSlotTransform n ws s) (entryOf (buildRows s.draws ws)) (buildCoefs s.draws ws) :=
  holdsTransform_of_mem (buildRows_length _ _) (buildCoefs_length _ _) (afterSlotTransform_mem n ws s)

theorem streamOf_afterSlotTransform {s : State} (hle : s.bitpos.toNat ≤ 32768) :
    streamOf (afterSlotTransform n ws s) = streamOf s := by
  refine streamOf_congr (afterSlotTransform_bitpos n ws s) hle fun a ha => ?_
  rw [afterSlotTransform_mem, load_storeWords_outside (by unfold coefBase; omega),
    load_storeWords_outside (by unfold rowbufBase; omega)]

end Transform

theorem afterHeader_draws (n : Fin 4) (ext : Bool) (cs : List Word) (s : State) :
    (afterHeader n ext cs s).draws = s.draws := rfl

/-- What the stages of slot `n`, with samples `ws`, make of `s` (R250): the slot's registers, COEF and ROWBUF, and one
patch more in the stream. -/
structure PatchBuilt (ext : Bool) (n : Fin 4) (ws : List Word) (s t : State) : Prop where
  draws : t.draws = s.draws + 2
  slot : ∀ k, t.slot k = if k = n then patchSlot s.draws ext ws (s.slot k) else s.slot k
  stream : streamOf t = streamOf s ++ patchBits ext (patchSlot s.draws ext ws (s.slot n)) (buildCoefs s.draws ws)
  transform : HoldsTransform t (entryOf (buildRows s.draws ws)) (buildCoefs s.draws ws)

section Slot
variable {ext : Bool} {n : Fin 4} {ws : List Word} {s : State}

/-- PRESCAN and TRANSFORM of a slot succeed where PRESCAN gives no RANGE of 0 (R250). -/
theorem buildSlot_of_samples (hws : Samples s n ws) (hrange : ∀ free, prescanRange free ws ≠ 0) :
    buildSlot ext n s = (hdrencStage n ext (afterSlotTransform n ws s)).andThen fun t => coefencStage n t := by
  have hnonzero : ((forceQwb n (afterPrescan n ws (enterSlot n s))).slot n).range ≠ 0 := by
    rw [forceQwb_afterPrescan_slot, if_pos rfl]
    exact hrange _
  have hforced : Samples (forceQwb n (afterPrescan n ws (enterSlot n s))) n ws := hws
  rw [buildSlot, prescanStage_of (s := enterSlot n s) hws, andThen_done, transformStage_of hforced, if_neg hnonzero,
    andThen_done]
  rfl

/-- HDRENC of a slot succeeds where the header fits, leaves the registers of the patch and appends its header (R206 to
R209). -/
theorem exists_headerBuilt (ext : Bool) (n : Fin 4) (ws : List Word) (hfit : s.bitpos.toNat + headerLength ext ≤ 32768) :
    ∃ t, hdrencStage n ext (afterSlotTransform n ws s) = .done t ∧ t.draws = s.draws + 2 ∧
      (∀ k, t.slot k = if k = n then patchSlot s.draws ext ws (s.slot k) else s.slot k) ∧
      streamOf t = streamOf s ++ headerFormula ext (patchSlot s.draws ext ws (s.slot n)) ∧
      HoldsTransform t (entryOf (buildRows s.draws ws)) (buildCoefs s.draws ws) := by
  have htransform := afterSlotTransform_holds n ws s
  have hslot : ∀ k, (afterHeader n ext (buildCoefs s.draws ws) (afterSlotTransform n ws s)).slot k =
      if k = n then patchSlot s.draws ext ws (s.slot k) else s.slot k := by
    intro k
    rw [afterHeader_slot, afterSlotTransform_slot, afterSlotTransform_slot, if_pos rfl]
    split
    next h => rw [h]; rfl
    next => rfl
  have hfit' : (afterSlotTransform n ws s).bitpos.toNat + headerLength ext ≤ 32768 := by
    rwa [afterSlotTransform_bitpos]
  have happended := appended_afterHeader (n := n) (buildCoefs s.draws ws) hfit'
  have hholds := happended.holdsTransform (by rwa [headerFormula_length]) htransform
  refine ⟨_, hdrencStage_of htransform.1 hfit', ?_, hslot, ?_, hholds⟩
  · rw [afterHeader_draws, afterSlotTransform_draws]
  · rw [happended.1, streamOf_afterSlotTransform n ws (by omega), hslot n, if_pos rfl]

/-- COEFENC appends the tokens at the width that QWB holds, and keeps ROWBUF and COEF (R220, R221). -/
theorem exists_tokensBuilt {rows : Nat → Nat → Word} {cs : List Word} (n : Fin 4) (hholds : HoldsTransform s rows cs)
    (hfit : s.bitpos.toNat + coefLength (coefWidth (s.slot n).qwb) cs ≤ 32768) :
    ∃ t, coefencStage n s = .done t ∧ t.draws = s.draws ∧ t.slots = s.slots ∧
      streamOf t = streamOf s ++ tokens (coefWidth (s.slot n).qwb) cs ∧ HoldsTransform t rows cs := by
  have hfit' : s.bitpos.toNat + (tokens (coefWidth (s.slot n).qwb) cs).length ≤ 32768 := by rwa [tokens_length]
  have happended := appended_appendBits hfit'
  exact ⟨_, coefencStage_of hholds.1 hfit, rfl, rfl, happended.1, happended.holdsTransform hfit' hholds⟩

/-- The stages of a slot succeed where its patch fits, and append that patch (R250). -/
theorem exists_patchBuilt (ext : Bool) (hws : Samples s n ws) (hrange : ∀ free, prescanRange free ws ≠ 0)
    (hroom : s.bitpos.toNat + 3672 ≤ 32768) : ∃ t, buildSlot ext n s = .done t ∧ PatchBuilt ext n ws s t := by
  obtain ⟨-, hlen⟩ := patchBits_length s.draws ext ws (s.slot n)
  rw [patchBits, List.length_append, headerFormula_length, tokens_length] at hlen
  obtain ⟨u, hu, hdraws, hslot, hstream, hholds⟩ := exists_headerBuilt (s := s) ext n ws (by omega)
  have hself := hslot n
  rw [if_pos rfl] at hself
  have hbitpos := congrArg List.length hstream
  rw [List.length_append, streamOf_length, streamOf_length, headerFormula_length] at hbitpos
  obtain ⟨t, ht, hdraws', hslots', hstream', hholds'⟩ := exists_tokensBuilt n hholds (by rw [hself]; omega)
  refine ⟨t, ?_, hdraws'.trans hdraws, fun k => (slots_eq_iff.1 hslots' k).trans (hslot k), ?_, hholds'⟩
  · rw [buildSlot_of_samples hws hrange, hu, andThen_done, ht]
  · rw [hstream', hstream, hself, patchBits, List.append_assoc]

end Slot

end Sys2Proof.Machine
end

section
/-! ### BUILD: the whole message (R245, R250, R253, R254) -/

namespace Sys2Proof.Machine

/-- The next slot in slot order (R250). -/
theorem buildSlots_succ (n : Fin 4) : buildSlots (n.val + 1) = buildSlots n.val ++ [n] := by
  revert n
  decide

section Message
variable (s : State) (ext : Bool) (type : BitVec 8) (ws : Fin 4 → List Word)

/-- The draws that a BUILD begun in `s` has made when it comes to slot `n`: two for each slot before. -/
def drawsBefore (n : Fin 4) : Nat := s.draws + 2 * n.val

/-- The registers of slot `n` that a BUILD begun in `s` leaves. -/
def messageSlot (n : Fin 4) : Slot := patchSlot (drawsBefore s n) ext (ws n) (s.slot n)

/-- The coefficients of slot `n` in a BUILD begun in `s`. -/
def messageCoefs (n : Fin 4) : List Word := buildCoefs (drawsBefore s n) (ws n)

/-- ROWBUF of slot `n` in a BUILD begun in `s`. -/
def messageRows (n : Fin 4) : Nat → Nat → Word := entryOf (buildRows (drawsBefore s n) (ws n))

/-- What holds in a BUILD begun in `s` after its GroupHeader and `k` slots. -/
structure MessageSoFar (k : Nat) (t : State) : Prop where
  frame : DataFrame (fun _ => True) s t
  draws : t.draws = s.draws + 2 * k
  slot : ∀ n : Fin 4, t.slot n = if n.val < k then messageSlot s ext ws n else s.slot n
  stream : streamOf t = groupHeaderBits type ++
    (buildSlots k).flatMap fun n => patchBits ext (messageSlot s ext ws n) (messageCoefs s ws n)
  room : 32 + 68 * k ≤ t.bitpos.toNat ∧ t.bitpos.toNat ≤ 32 + 3672 * k
  transform : ∀ n : Fin 4, n.val + 1 = k → HoldsTransform t (messageRows s ws n) (messageCoefs s ws n)

variable {s ext type ws}

/-- GHDR clears the stream and appends the GroupHeader (R242). -/
theorem messageSoFar_zero : MessageSoFar s ext type ws 0 (appendBits (groupHeaderBits type) (clearStream s)) := by
  have hzero : (clearStream s).bitpos.toNat = 0 := rfl
  have hfit : (clearStream s).bitpos.toNat + (groupHeaderBits type).length ≤ 32768 := by
    rw [hzero, groupHeaderBits_length]
    decide
  obtain ⟨hstream, hpos, -⟩ := appended_appendBits hfit
  rw [hzero, groupHeaderBits_length] at hpos
  refine ⟨(dataFrame_keptByEffects _ s).holds_groupHeader type (dataFrame_refl _ s), rfl, fun n => ?_, ?_, by omega,
    nofun⟩
  · exact (if_neg (Nat.not_lt_zero _)).symm
  · rw [hstream]
    simp [buildSlots]

/-- One slot more. -/
theorem MessageSoFar.succ {t u : State} {n : Fin 4} (h : MessageSoFar s ext type ws n.val t)
    (hbuilt : PatchBuilt ext n (ws n) t u) (hframe : DataFrame (fun _ => True) s u) :
    MessageSoFar s ext type ws (n.val + 1) u := by
  have hslot : patchSlot t.draws ext (ws n) (t.slot n) = messageSlot s ext ws n := by
    rw [h.draws, h.slot n, if_neg (Nat.lt_irrefl _)]
    rfl
  have hcoefs : buildCoefs t.draws (ws n) = messageCoefs s ws n := by
    rw [h.draws]
    rfl
  have hrows : entryOf (buildRows t.draws (ws n)) = messageRows s ws n := by
    rw [h.draws]
    rfl
  have hstream := hbuilt.stream
  have htransform := hbuilt.transform
  rw [hslot, hcoefs] at hstream
  rw [hrows, hcoefs] at htransform
  refine ⟨hframe, ?_, fun k => ?_, ?_, ?_, fun k hk => ?_⟩
  · rw [hbuilt.draws, h.draws]
    omega
  · rw [hbuilt.slot k]
    split
    next hk => rw [hk, hslot, if_pos (Nat.lt_succ_self _)]
    next hk =>
      have hne : k.val ≠ n.val := fun e => hk (Fin.ext e)
      rw [h.slot k]
      exact if_congr (by omega) rfl rfl
  · rw [hstream, h.stream, buildSlots_succ, List.flatMap_append, List.flatMap_singleton, List.append_assoc]
  · have hlen := congrArg List.length hstream
    rw [List.length_append, streamOf_length, streamOf_length] at hlen
    have hpatch : 68 ≤ (patchBits ext (messageSlot s ext ws n) (messageCoefs s ws n)).length ∧
        (patchBits ext (messageSlot s ext ws n) (messageCoefs s ws n)).length ≤ 3672 := patchBits_length _ _ _ _
    have hroom := h.room
    omega
  · rwa [Fin.ext (Nat.succ.inj hk)]

/-- The first `k` slots of a BUILD succeed on written samples that give no RANGE of 0. -/
theorem exists_messageSoFar (ext : Bool) (type : BitVec 8) {count k : Nat} (hk : k ≤ count) (hcount : count ≤ 4)
    (hsamples : ∀ n : Fin 4, n.val < count → Samples s n (ws n) ∧ ∀ free, prescanRange free (ws n) ≠ 0) :
    ∃ t, (buildSlots k).foldl (fun r n => r.andThen (buildSlot ext n)) (ghdrStage type s) = .done t ∧
      MessageSoFar s ext type ws k t := by
  induction k with
  | zero => exact ⟨_, rfl, messageSoFar_zero⟩
  | succ k ih =>
    obtain ⟨t, ht, h⟩ := ih (by omega)
    obtain ⟨n, rfl⟩ : ∃ n : Fin 4, n.val = k := ⟨⟨k, by omega⟩, rfl⟩
    obtain ⟨hws, hrange⟩ := hsamples n hk
    have hroom := h.room
    obtain ⟨u, hu, hbuilt⟩ := exists_patchBuilt ext (h.frame.samples hws) hrange (by omega)
    have hframe := (dataFrame_keptByEffects (fun _ => True) s).buildSlot_holds (n := n) trivial ext h.frame
    rw [hu] at hframe
    refine ⟨u, ?_, h.succ hbuilt hframe⟩
    rw [buildSlots_succ, List.foldl_append, ht, List.foldl_cons, List.foldl_nil, andThen_done, hu]

/-- BUILD on written samples that give no RANGE of 0: its slots, then the sentinel (R245, R250). -/
theorem exists_buildStage_done (ext : Bool) (type : BitVec 8) {count : Nat} (hpos : 1 ≤ count) (hcount : count ≤ 4)
    (hsamples : ∀ n : Fin 4, n.val < count → Samples s n (ws n) ∧ ∀ free, prescanRange free (ws n) ≠ 0) :
    ∃ t u, buildStage count ext type s = .done u ∧ MessageSoFar s ext type ws count t ∧ u.slots = t.slots ∧
      Appended (pack Config.endOfPatches 8) t u := by
  obtain ⟨t, ht, h⟩ := exists_messageSoFar ext type le_rfl hcount hsamples
  have hroom := h.room
  have hfit : t.bitpos.toNat + 8 ≤ 32768 := by omega
  refine ⟨t, appendBits (pack Config.endOfPatches 8) t, ?_, h, rfl, appended_appendBits (by rwa [pack_length])⟩
  have hvalid : ¬(count < 1 ∨ Config.maxPatches < count) := by unfold Config.maxPatches; omega
  rw [buildStage, if_neg hvalid, buildMessage, ht, andThen_done, termStage_of hfit]

end Message

/-- Settles O49: after `count` slots the stream is the GroupHeader and one patch for each, TERM appends the sentinel, and
the registers, rows and coefficients of each slot are those of its PRESCAN, TRANSFORM and HDRENC. -/
theorem buildCompletesWithOneMessage : Obligations.BuildCompletesWithOneMessage := by
  unfold Obligations.BuildCompletesWithOneMessage
  intro s count ext type ws hpos hcount hsamples
  obtain ⟨t, u, hu, h, hslots, happended⟩ := exists_buildStage_done ext type hpos hcount hsamples
  have hcontrol := (statusAndControlKept_keptByEffects s fun _ => True).buildStage_holds (count := count)
    (fun _ _ => trivial) ext type ⟨rfl, controlKept_refl s⟩
  have hdata := (dataFrame_keptByEffects (fun n => n.val < count) s).buildStage_holds (count := count)
    (fun n => (mem_buildSlots hcount).1) ext type (dataFrame_refl _ s)
  rw [hu] at hcontrol hdata
  have hslot : ∀ n : Fin 4, n.val < count → u.slot n = messageSlot s ext ws n := by
    intro n hn
    rw [slots_eq_iff.1 hslots n, h.slot n, if_pos hn]
  have hroom := h.room
  have hfit : t.bitpos.toNat + (pack Config.endOfPatches 8).length ≤ 32768 := by rw [pack_length]; omega
  have hholds := fun n hn => happended.holdsTransform hfit (h.transform n hn)
  obtain ⟨hstream, hbitpos, hfill, -⟩ := happended
  rw [pack_length] at hbitpos
  refine ⟨complete none u, messageRows s ws, messageCoefs s ws, ?_, endsOk_complete s u hcontrol.1 hcontrol.2, hdata.mem,
    fun n hn => hdata.others n (by omega), fun n hn => ?_, hholds, ?_, hfill, ?_, ?_⟩
  · rw [exec_eq_finish, stageOf, hu, finish_done]
  · obtain ⟨hws, -⟩ := hsamples n hn
    rw [complete_slot, hslot n hn]
    exact ⟨rfl, rfl, rfl, rfl, ⟨_, rfl⟩, isTransform_build _ (samples_length hws), qwbWithWidth_qwbInit _,
      patchId_eq_formula ext _ _⟩
  · refine hstream.trans ?_
    rw [h.stream]
    refine congrArg (fun l => groupHeaderBits type ++ l ++ pack Config.endOfPatches 8) ?_
    refine List.flatMap_congr fun n hn => ?_
    rw [complete_slot, hslot n ((mem_buildSlots hcount).1 hn)]
    rfl
  · rw [complete_bitpos]
    omega
  · rw [complete_bitpos]
    omega

end Sys2Proof.Machine
end

section
/-! ### COEFENC completes (R220, R221) -/

namespace Sys2Proof.Machine

/-- Settles O44: with room the stage appends the tokens at the slot's width, and an append that fits is `Appended`. -/
theorem coefencCompletesWithTheTokens : Obligations.CoefencCompletesWithTheTokens := by
  unfold Obligations.CoefencCompletesWithTheTokens
  intro s n cs hcoefs hfit
  have hrun : exec (.coefenc n) s =
      .next (complete none (appendBits (tokens (coefWidth (s.slot n).qwb) cs) s)) := by
    rw [exec_eq_finish, stageOf, coefencStage_of hcoefs hfit, finish_done]
  have happended : Appended (tokens (coefWidth (s.slot n).qwb) cs) s _ :=
    appended_appendBits (by rwa [tokens_length])
  exact ⟨_, hrun, endsOk_complete s _ rfl ⟨rfl, rfl, rfl, rfl⟩, rfl, rfl, happended.complete none⟩

end Sys2Proof.Machine
end

section
/-! ### The token of each coefficient (R222 to R225) -/

namespace Sys2Proof.Machine

section Tokens
variable {c : Word} {cs : List Word}

/-- The end of block (R222). -/
theorem tokens_of_zeros (w : Nat) (h : ∀ x ∈ c :: cs, x = 0) : tokens w (c :: cs) = [true, false] := by
  obtain ⟨hc, hcs⟩ := List.forall_mem_cons.1 h
  rw [tokens, if_pos hc, if_pos (by simpa using hcs)]

/-- A zero with a nonzero coefficient after it (R223). -/
theorem tokens_of_zero_of_nonzero (w : Nat) (hc : c = 0) (hcs : ∃ x ∈ cs, x ≠ 0) :
    tokens w (c :: cs) = false :: tokens w cs := by
  rw [tokens, if_pos hc, if_neg (by simpa using hcs)]

/-- A nonzero coefficient (R224). -/
theorem tokens_of_nonzero (w : Nat) (hc : c ≠ 0) : tokens w (c :: cs) = valueToken w c ++ tokens w cs := by
  rw [tokens, if_neg hc]

end Tokens

/-- The bit that tells the markers `110` and `111` apart is the sign (R224). -/
theorem sign_eq_decide (c : Word) : c.getLsbD 31 = decide (c.toInt < 0) := by
  rw [← BitVec.msb_eq_getLsbD_last, BitVec.msb_eq_toInt]

/-- `absu32` is the magnitude, for -2^31 as well (R15). -/
theorem absU32_toNat (c : Word) : (absU32 c).toNat = c.toInt.natAbs := by
  have hlt := c.isLt
  have hmsb := BitVec.msb_eq_decide c
  rw [absU32, sign_eq_decide, ← BitVec.msb_eq_toInt, hmsb, BitVec.toInt_eq_toNat_cond]
  by_cases hneg : 2 ^ 31 ≤ c.toNat
  · rw [if_pos (by simpa using hneg), if_neg (by omega), BitVec.toNat_neg]
    omega
  · rw [if_neg (by simpa using hneg), if_pos (by omega)]
    rfl

/-- The clip of R224 is the lesser of |c| and 1 << w. -/
theorem clipMagnitude_eq_min (w : Nat) (c : Word) :
    clipMagnitude w c = BitVec.ofNat 32 (min c.toInt.natAbs (2 ^ w)) := by
  rw [clipMagnitude, absU32_toNat]
  split
  next h => rw [Nat.min_eq_right h.le]
  next h => rw [Nat.min_eq_left (Nat.le_of_not_lt h), ← absU32_toNat, BitVec.ofNat_toNat, BitVec.setWidth_eq]

theorem valueToken_eq (w : Nat) (c : Word) :
    valueToken w c =
      [true, true, decide (c.toInt < 0)] ++ bitsDown (BitVec.ofNat 32 (min c.toInt.natAbs (2 ^ w))) 0 w := by
  rw [valueToken, sign_eq_decide, clipMagnitude_eq_min, pack_eq]
  rfl

theorem ne_zero_of_toInt_ne_zero {c : Word} (h : c.toInt ≠ 0) : c ≠ 0 := by
  rintro rfl
  exact h rfl

/-- Settles O45: the cases of `tokens` are the rules' own, and a value token is the marker of the sign with the clipped
magnitude. -/
theorem tokensFollowTheRules : Obligations.TokensFollowTheRules := by
  unfold Obligations.TokensFollowTheRules
  intro w c cs _
  refine ⟨rfl, tokens_of_zeros w, tokens_of_zero_of_nonzero w, fun hpos => ?_, fun hneg => ?_⟩
  · rw [tokens_of_nonzero w (ne_zero_of_toInt_ne_zero hpos.ne'), valueToken_eq, decide_eq_false hpos.not_gt]
  · rw [tokens_of_nonzero w (ne_zero_of_toInt_ne_zero hneg.ne), valueToken_eq, decide_eq_true hneg]

end Sys2Proof.Machine
end

section
/-! ### CoefLength by the index of the last nonzero coefficient (R226) -/

namespace Sys2Proof.Machine

/-- The coefficients that are used are those up to the last nonzero one, at index `e`. -/
theorem usedCoefs_eq_take {cs : List Word} {e : Nat} (he : e < cs.length) (hne : cs.getD e 0 ≠ 0)
    (hzero : ∀ k, e < k → k < cs.length → cs.getD k 0 = 0) : usedCoefs cs = cs.take (e + 1) := by
  induction cs generalizing e with
  | nil => exact absurd he (Nat.not_lt_zero e)
  | cons c cs ih =>
    cases e with
    | zero =>
      have hcs : ∀ x ∈ cs, x = 0 := by
        intro x hx
        obtain ⟨k, hk, rfl⟩ := List.getElem_of_mem hx
        simpa [hk] using hzero (k + 1) k.succ_pos (Nat.succ_lt_succ hk)
      rw [List.getD_cons_zero] at hne
      rw [usedCoefs_cons (by simpa using fun hc => absurd hc hne), usedCoefs_of_zeros (by simpa using hcs)]
      rfl
    | succ e =>
      rw [List.getD_cons_succ] at hne
      have he' : e < cs.length := Nat.lt_of_succ_lt_succ he
      have hmem : cs.getD e 0 ∈ cs := by
        rw [List.getD_eq_getElem _ _ he']
        exact List.getElem_mem he'
      rw [usedCoefs_cons (by simpa using fun _ => ⟨_, hmem, hne⟩),
        ih he' hne fun k hlo hhi => hzero (k + 1) (Nat.succ_lt_succ hlo) (Nat.succ_lt_succ hhi), List.take_succ_cons]

theorem take_eq_map_getD {cs : List Word} {n : Nat} (h : n ≤ cs.length) :
    cs.take n = (List.range n).map fun k => cs.getD k 0 := by
  refine List.ext_getElem (by simpa using h) fun k hk _ => ?_
  rw [List.length_take_of_le h] at hk
  simp [hk.trans_le h]

/-- The sum of R226. -/
theorem coefLength_eq_sum (w : Nat) {cs : List Word} {e : Nat} (he : e < cs.length) (hne : cs.getD e 0 ≠ 0)
    (hzero : ∀ k, e < k → k < cs.length → cs.getD k 0 = 0) :
    coefLength w cs =
      ((List.range (e + 1)).map fun k => if cs.getD k 0 = 0 then 1 else 3 + w).sum +
        (if e + 1 < cs.length then 2 else 0) := by
  rw [coefLength, usedCoefs_eq_take he hne hzero, List.length_take_of_le he, take_eq_map_getD he, List.map_map]
  rfl

/-- Settles O46: the length lemma of the tokens, the sum up to the last nonzero index, and 20 bits at most for each of 256
coefficients. -/
theorem coefLengthCountsTheTokenBits : Obligations.CoefLengthCountsTheTokenBits := by
  unfold Obligations.CoefLengthCountsTheTokenBits
  intro w cs
  refine ⟨tokens_length w cs, fun e => coefLength_eq_sum w, fun hlen _ hw => ⟨?_, ?_⟩⟩
  · exact two_le_coefLength w (List.ne_nil_of_length_pos (by omega))
  · have hle := coefLength_le w cs
    rw [hlen] at hle
    omega

end Sys2Proof.Machine
end

section
/-! ### The decoder of the tokens (R229) -/

namespace Sys2Proof.Machine

/-- The value of a bit string, most significant bit first. -/
def bitsValue (bits : List Bool) : Nat := (BitVec.ofBoolListBE bits).toNat

theorem bitsValue_bitsDown (v : Word) (n : Nat) : bitsValue (bitsDown v 0 n) = v.toNat % 2 ^ n := by
  induction n with
  | zero => exact (Nat.mod_one _).symm
  | succ n ih =>
    rw [bitsValue] at ih ⊢
    rw [bitsDown, BitVec.ofBoolListBE, BitVec.toNat_cons', ih, bitsDown_length, Nat.zero_add, Nat.mod_pow_succ,
      ← BitVec.testBit_toNat, Nat.toNat_testBit, Nat.shiftLeft_eq, Nat.mul_comm, Nat.add_comm]

/-- The decoder of R229, which knows the width `w` and how many coefficients are to come: the sign and the sent magnitude
of each, and the bits after the tokens. A stream that breaks off inside a marker ends the decoding. -/
def splitTokens (w : Nat) : Nat → List Bool → List (Option (Bool × Nat)) × List Bool
  | n + 1, false :: bits =>
    let (values, rest) := splitTokens w n bits
    (none :: values, rest)
  | n + 1, true :: false :: bits => (List.replicate (n + 1) none, bits)
  | n + 1, true :: true :: sign :: bits =>
    let (values, rest) := splitTokens w n (bits.drop w)
    (some (sign, bitsValue (bits.take w)) :: values, rest)
  | _, bits => ([], bits)

section Split
variable (w n : Nat) (bits : List Bool)

theorem splitTokens_zero : splitTokens w 0 bits = ([], bits) := by
  rw [splitTokens] <;> exact nofun

theorem splitTokens_zero_marker : splitTokens w (n + 1) (false :: bits) =
    (none :: (splitTokens w n bits).1, (splitTokens w n bits).2) := rfl

theorem splitTokens_end_marker : splitTokens w (n + 1) (true :: false :: bits) =
    (List.replicate (n + 1) none, bits) := rfl

/-- The decoder reads a value token as the sign and the magnitude that were sent. -/
theorem splitTokens_valueToken {c : Word} (hc : c ≠ 0) : splitTokens w (n + 1) (valueToken w c ++ bits) =
    (sentValue w c :: (splitTokens w n bits).1, (splitTokens w n bits).2) := by
  have htake : (pack (clipMagnitude w c) w ++ bits).take w = pack (clipMagnitude w c) w :=
    List.take_left' (pack_length _ _)
  have hdrop : (pack (clipMagnitude w c) w ++ bits).drop w = bits := List.drop_left' (pack_length _ _)
  rw [valueToken, sentValue, if_neg hc, List.cons_append, List.cons_append, List.cons_append, splitTokens, htake, hdrop,
    pack_eq, bitsValue_bitsDown]

end Split

/-- The decoder undoes the encoder (R229). -/
theorem splitTokens_tokens (w : Nat) (cs : List Word) (rest : List Bool) :
    splitTokens w cs.length (tokens w cs ++ rest) = (cs.map (sentValue w), rest) := by
  induction cs with
  | nil => exact splitTokens_zero w rest
  | cons c cs ih =>
    by_cases hc : c = 0
    · by_cases hcs : ∃ x ∈ cs, x ≠ 0
      · have hsent : sentValue w c = none := if_pos hc
        rw [tokens_of_zero_of_nonzero w hc hcs, List.cons_append, List.length_cons, splitTokens_zero_marker, ih,
          List.map_cons, hsent]
      · have hzero : ∀ x ∈ c :: cs, x = 0 := List.forall_mem_cons.2 ⟨hc, by simpa using hcs⟩
        have hsent : (c :: cs).map (sentValue w) = List.replicate (cs.length + 1) none :=
          List.map_eq_replicate_iff.2 fun x hx => if_pos (hzero x hx)
        rw [tokens_of_zeros w hzero, hsent]
        exact splitTokens_end_marker w cs.length rest
    · rw [tokens_of_nonzero w hc, List.append_assoc, List.length_cons, splitTokens_valueToken _ _ _ hc, ih, List.map_cons]

/-- Settles O47: equal streams decode to equal signs, magnitudes and following bits. -/
theorem tokensSplitBackUniquely : Obligations.TokensSplitBackUniquely := by
  unfold Obligations.TokensSplitBackUniquely
  intro w cs cs' rest rest' _ hlen hstream
  rw [← Prod.mk.injEq]
  calc (cs.map (sentValue w), rest)
      = splitTokens w cs.length (tokens w cs ++ rest) := (splitTokens_tokens w cs rest).symm
    _ = splitTokens w cs'.length (tokens w cs' ++ rest') := by rw [hlen, hstream]
    _ = (cs'.map (sentValue w), rest') := splitTokens_tokens w cs' rest'

end Sys2Proof.Machine
end

section
/-! ### NOP, SCLR and a BUILD that its count check refuses (R240, R247, R251) -/

namespace Sys2Proof.Machine

/-- A command whose stage succeeds ends by the completion step (R263). -/
theorem exec_of_done {i : Instr} {s t : State} (h : stageOf i s = .done t) : exec i s = .next (complete none t) := by
  rw [exec_eq_finish, h, finish_done]

theorem buildStage_of_badCount {count : Nat} (hcount : count < 1 ∨ 4 < count) (ext : Bool) (type : BitVec 8) (s : State) :
    buildStage count ext type s = .error .badCount s :=
  if_pos hcount

theorem streamLen_clearStream (s : State) : streamLen (clearStream s) = 0 := by
  rw [streamLen, clearStream_bitpos]
  rfl

/-- Settles O31: the stage of NOP succeeds in the state it started in. -/
theorem nopCompletesAndChangesNothing : Obligations.NopCompletesAndChangesNothing := by
  unfold Obligations.NopCompletesAndChangesNothing
  intro s
  exact ⟨_, exec_of_done (i := .nop) rfl, endsOk_complete s s rfl (controlKept_refl s), rfl, rfl, rfl, rfl⟩

/-- Settles O32: SCLR sets BITPOS to 0, and the stream and its length are what BITPOS says. -/
theorem sclrCompletesAndEmptiesTheStream : Obligations.SclrCompletesAndEmptiesTheStream := by
  unfold Obligations.SclrCompletesAndEmptiesTheStream
  intro s
  exact ⟨_, exec_of_done (i := .sclr) rfl, endsOk_complete s (clearStream s) rfl ⟨rfl, rfl, rfl, rfl⟩, rfl,
    streamLen_clearStream s, streamOf_clearStream s, rfl, rfl, rfl⟩

/-- Settles O48: the count check raises BAD_COUNT in the state it started in. -/
theorem buildWithBadCountHasNoEffect : Obligations.BuildWithBadCountHasNoEffect := by
  unfold Obligations.BuildWithBadCountHasNoEffect
  intro s count ext type hcount
  exact exec_of_error (i := .build count ext type) (buildStage_of_badCount hcount ext type s)

end Sys2Proof.Machine
end

section
/-! ### GHDR: the four bytes of the GroupHeader (R89, R241 to R243) -/

namespace Sys2Proof.Machine

/-- The bits of whole bytes, each most significant bit first (R89, R91). -/
def bitsOfBytes (bs : List Byte) : List Bool := bs.flatMap fun b => pack (b.setWidth 32) 8

theorem byteOfBits_of_bits (b : Byte) : byteOfBits (b.getLsbD 7) (b.getLsbD 6) (b.getLsbD 5) (b.getLsbD 4) (b.getLsbD 3)
    (b.getLsbD 2) (b.getLsbD 1) (b.getLsbD 0) = b := by
  revert b
  decide

theorem pack_byte (b : Byte) : pack (b.setWidth 32) 8 =
    [b.getLsbD 7, b.getLsbD 6, b.getLsbD 5, b.getLsbD 4, b.getLsbD 3, b.getLsbD 2, b.getLsbD 1, b.getLsbD 0] := by
  simp [pack_eq, bitsDown]

/-- Packing whole bytes bit by bit gives them back (R89). -/
theorem packBytes_bitsOfBytes (bs : List Byte) : packBytes (bitsOfBytes bs) = bs := by
  induction bs with
  | nil => rfl
  | cons b bs ih =>
    rw [bitsOfBytes] at ih ⊢
    rw [List.flatMap_cons, pack_byte]
    simp only [List.cons_append, List.nil_append]
    rw [packBytes, byteOfBits_of_bits, ih]

/-- 264 in 16 bits is 0x01 0x08 (R243). -/
theorem groupHeaderBits_eq (type : BitVec 8) : groupHeaderBits type = bitsOfBytes [0x01, 0x08, 0x10, type] := by
  have hstride : pack Config.stride 16 = pack ((0x01 : Byte).setWidth 32) 8 ++ pack ((0x08 : Byte).setWidth 32) 8 := by
    decide
  have hsize : pack Config.patchSize 8 = pack ((0x10 : Byte).setWidth 32) 8 := rfl
  simp only [groupHeaderBits, bitsOfBytes, hstride, hsize, List.flatMap_cons, List.flatMap_nil, List.append_assoc,
    List.append_nil]

/-- An append to the empty stream stores its bytes at the start of the buffer. -/
theorem appendBits_mem_of_empty {s : State} (bits : List Bool) (h : s.bitpos = 0) :
    (appendBits bits s).mem = s.mem.store streamBase (packBytes bits) := by
  simp [appendBits, h]

/-- The memory that GHDR leaves. -/
theorem groupHeader_mem (type : BitVec 8) (s : State) : (appendBits (groupHeaderBits type) (clearStream s)).mem =
    s.mem.store 0x2000 [0x01, 0x08, 0x10, type] := by
  rw [appendBits_mem_of_empty _ (clearStream_bitpos s), groupHeaderBits_eq, packBytes_bitsOfBytes]
  rfl

/-- Settles O33: GHDR stores the four bytes at the start of the stream buffer, and BITPOS counts their bits. -/
theorem ghdrCompletesWithTheGroupHeader : Obligations.GhdrCompletesWithTheGroupHeader := by
  unfold Obligations.GhdrCompletesWithTheGroupHeader
  intro s type
  have hbitpos : (appendBits (groupHeaderBits type) (clearStream s)).bitpos = 32 := by
    rw [appendBits_bitpos, clearStream_bitpos, groupHeaderBits_length]
    rfl
  refine ⟨_, exec_of_done (i := .ghdr type) rfl, endsOk_complete s _ rfl ⟨rfl, rfl, rfl, rfl⟩, hbitpos, ?_, ?_, ?_, ?_,
    fun a ha => ?_, rfl, rfl⟩
  all_goals rw [complete_mem, groupHeader_mem]
  · exact load_store _ _ _ _
  · exact load_store _ _ _ _
  · exact load_store _ _ _ _
  · exact load_store _ _ _ _
  · exact load_store_outside ha

end Sys2Proof.Machine
end

section
/-! ### BUILD and its stage commands (R248, R250) -/

namespace Sys2Proof.Machine

/-- Two runs are at the same point: their data and ERR are equal, whatever their control registers and engines hold. -/
structure SamePoint (s s' : State) : Prop where
  data : DataKept s s'
  err : s'.status.err = s.status.err

/-- What the stage `r` of BUILD does without an error, the stage command with outcome `o` does too. -/
def CmdResult.FollowedBy (o : Host.Outcome State Fault Refusal) : CmdResult → Prop
  | .done t => ∃ t', o = .next t' ∧ SamePoint t t'
  | .error _ _ => True
  | .fault _ => True

theorem samePoint_refl (s : State) : SamePoint s s := ⟨⟨rfl, rfl, rfl, rfl⟩, rfl⟩

/-! #### The effects of a stage on two runs at the same point -/

namespace SamePoint
variable {s s' : State} {n : Fin 4} {ws cs : List Word}

theorem slot (h : SamePoint s s') (n : Fin 4) : s'.slot n = s.slot n := slots_eq_iff.1 h.data.1 n

theorem mem (h : SamePoint s s') : s'.mem = s.mem := h.data.2.1

theorem bitpos (h : SamePoint s s') : s'.bitpos = s.bitpos := h.data.2.2.1

theorem draws (h : SamePoint s s') : s'.draws = s.draws := h.data.2.2.2

theorem samples (h : SamePoint s s') (hws : Samples s n ws) : Samples s' n ws := by
  rwa [Samples, h.mem]

theorem coefs (h : SamePoint s s') (hcs : Coefs s cs) : Coefs s' cs := by
  rwa [Coefs, h.mem]

/-- The completion step of a success keeps ERR and the data (R37, R263). -/
theorem complete_right (h : SamePoint s s') : SamePoint s (complete none s') := ⟨h.data, h.err⟩

theorem enterSlot_left (h : SamePoint s s') (n : Fin 4) : SamePoint (enterSlot n s) s' := ⟨h.data, h.err⟩

theorem updateSlot (h : SamePoint s s') (n : Fin 4) (f : Slot → Slot) :
    SamePoint (s.updateSlot n f) (s'.updateSlot n f) :=
  ⟨⟨by rw [updateSlot_slots, updateSlot_slots, h.data.1, h.slot], h.mem, h.bitpos, h.draws⟩, h.err⟩

theorem afterPrescan (h : SamePoint s s') (n : Fin 4) (ws : List Word) :
    SamePoint (afterPrescan n ws s) (afterPrescan n ws s') := by
  have hslot := h.updateSlot n fun r =>
    { r with dcoff := prescanMin ws, range := prescanRange (Config.freeWord s.draws) ws }
  unfold Machine.afterPrescan
  rw [h.draws]
  exact ⟨⟨hslot.data.1, hslot.mem, hslot.bitpos, rfl⟩, hslot.err⟩

theorem afterTransform (h : SamePoint s s') (n : Fin 4) (ws : List Word) :
    SamePoint (afterTransform n ws s) (afterTransform n ws s') := by
  refine ⟨⟨?_, ?_, ?_, ?_⟩, ?_⟩
  · rw [afterTransform_slots, afterTransform_slots, h.data.1]
  · rw [afterTransform_mem, afterTransform_mem, h.mem, h.draws, h.slot]
  · rw [afterTransform_bitpos, afterTransform_bitpos, h.bitpos]
  · rw [afterTransform_draws, afterTransform_draws, h.draws]
  · rw [afterTransform_status, afterTransform_status, h.err]

theorem appendBits (h : SamePoint s s') (bits : List Bool) : SamePoint (appendBits bits s) (appendBits bits s') := by
  have hmem : (Machine.appendBits bits s').mem = (Machine.appendBits bits s).mem := by
    unfold Machine.appendBits
    rw [h.mem, h.bitpos]
  exact ⟨⟨h.data.1, hmem, by rw [appendBits_bitpos, appendBits_bitpos, h.bitpos], h.draws⟩, h.err⟩

theorem afterHeader (h : SamePoint s s') (n : Fin 4) (ext : Bool) (cs : List Word) :
    SamePoint (afterHeader n ext cs s) (afterHeader n ext cs s') := by
  have hslot : SamePoint (afterHeaderSlot n ext cs s) (afterHeaderSlot n ext cs s') := by
    unfold afterHeaderSlot
    rw [h.slot]
    exact h.updateSlot n _
  unfold Machine.afterHeader
  rw [hslot.slot]
  exact hslot.appendBits _

end SamePoint

/-! #### Each stage and its command -/

/-- The host's write of QWB_INIT to QWB is the engine's own (R252). -/
theorem writeLoc_qwbInit (n : Fin 4) (s : State) : writeLoc 0x88 (.slotReg n .qwb) s = forceQwb n s := rfl

section Commands
variable {s s' t t' : State} {n : Fin 4} {ext : Bool}

/-- A command whose stage succeeds at the same point follows. -/
theorem followedBy_exec {i : Instr} (hstage : stageOf i s' = .done t') (h : SamePoint t t') :
    (CmdResult.done t).FollowedBy (exec i s') :=
  ⟨_, exec_of_done hstage, h.complete_right⟩

variable (h : SamePoint s s')
include h

theorem prescanStage_followedBy : (prescanStage n s).FollowedBy (exec (.prescan n) s') := by
  rcases prescanStage_cases n s with ⟨ws, hws, e⟩ | ⟨a, e⟩ <;> rw [e]
  · exact followedBy_exec (i := .prescan n) (prescanStage_of (h.samples hws)) (h.afterPrescan n ws)
  · trivial

theorem transformStage_followedBy : (transformStage n s).FollowedBy (exec (.transform n) s') := by
  rcases transformStage_cases n s with ⟨-, e⟩ | ⟨hrange, ws, hws, e⟩ | ⟨-, a, e⟩ <;> rw [e]
  · trivial
  · rw [← h.slot] at hrange
    exact ⟨_, exec_transform_of (h.samples hws) hrange, (h.afterTransform n ws).complete_right⟩
  · trivial

theorem hdrencStage_followedBy : (hdrencStage n ext s).FollowedBy (exec (.hdrenc n ext) s') := by
  rcases hdrencStage_cases n ext s with ⟨-, e⟩ | ⟨hfit, cs, hcs, e⟩ | ⟨-, a, e⟩ <;> rw [e]
  · trivial
  · rw [← h.bitpos] at hfit
    exact followedBy_exec (i := .hdrenc n ext) (hdrencStage_of (h.coefs hcs) hfit) (h.afterHeader n ext cs)
  · trivial

theorem coefencStage_followedBy : (coefencStage n s).FollowedBy (exec (.coefenc n) s') := by
  rcases coefencStage_cases n s with ⟨cs, -, -, e⟩ | ⟨cs, hcs, hfit, e⟩ | ⟨a, e⟩ <;> rw [e]
  · trivial
  · rw [← h.slot, ← h.bitpos] at hfit
    rw [← h.slot]
    exact followedBy_exec (i := .coefenc n) (coefencStage_of (h.coefs hcs) hfit) (h.appendBits _)
  · trivial

theorem termStage_followedBy : (termStage s).FollowedBy (exec .term s') := by
  rcases termStage_cases s with ⟨-, e⟩ | ⟨hfit, e⟩ <;> rw [e]
  · trivial
  · rw [← h.bitpos] at hfit
    exact followedBy_exec (i := .term) (termStage_of hfit) (h.appendBits _)

end Commands

theorem ghdrStage_followedBy (type : BitVec 8) (s : State) :
    (ghdrStage type s).FollowedBy (exec (.ghdr type) s) :=
  followedBy_exec (i := .ghdr type) rfl (samePoint_refl _)

/-! #### The stages one after another -/

/-- Where each stage is followed by its command, so is their sequence. -/
theorem CmdResult.FollowedBy.andThen {r : CmdResult} {o : Host.Outcome State Fault Refusal} {f : State → CmdResult}
    {g : State → Host.Outcome State Fault Refusal} (h : r.FollowedBy o)
    (hf : ∀ s s', SamePoint s s' → (f s).FollowedBy (g s')) : (r.andThen f).FollowedBy (thenRun o g) := by
  cases r with
  | done s =>
    obtain ⟨s', rfl, hs⟩ := h
    exact hf s s' hs
  | error e s => trivial
  | fault x => trivial

theorem andThen_assoc (r : CmdResult) (f g : State → CmdResult) :
    (r.andThen f).andThen g = r.andThen fun s => (f s).andThen g := by
  cases r <;> rfl

/-- The stages of a slot, with QWB forced in a step of its own, as the stage commands are nested (R250, R252). -/
theorem andThen_buildSlot (r : CmdResult) (ext : Bool) (n : Fin 4) : r.andThen (buildSlot ext n) =
    ((((r.andThen fun s => prescanStage n (enterSlot n s)).andThen fun s => .done (forceQwb n s)).andThen
      (transformStage n)).andThen (hdrencStage n ext)).andThen (coefencStage n) := by
  simp only [andThen_assoc, andThen_done]
  rfl

/-- The stage commands of slot `n`, after what has the outcome `o` (R248). -/
def thenSlotCommands (ext : Bool) (o : Host.Outcome State Fault Refusal) (n : Fin 4) :
    Host.Outcome State Fault Refusal :=
  thenRun (thenRun (thenRun (thenRun (thenRun o (exec (.prescan n)))
    (fun s => .next (writeLoc 0x88 (.slotReg n .qwb) s))) (exec (.transform n))) (exec (.hdrenc n ext)))
    (exec (.coefenc n))

theorem stageCommands_eq (count : Nat) (ext : Bool) (type : BitVec 8) (s : State) : stageCommands count ext type s =
    thenRun ((buildSlots count).foldl (thenSlotCommands ext) (exec (.ghdr type) s)) (exec .term) := rfl

/-- A slot of BUILD is followed by the slot's stage commands (R248, R250). -/
theorem CmdResult.FollowedBy.slot {r : CmdResult} {o : Host.Outcome State Fault Refusal} (h : r.FollowedBy o)
    (ext : Bool) (n : Fin 4) : (r.andThen (buildSlot ext n)).FollowedBy (thenSlotCommands ext o n) := by
  rw [andThen_buildSlot]
  have hprescan := h.andThen fun s s' hs => prescanStage_followedBy (n := n) (hs.enterSlot_left n)
  have hforce := hprescan.andThen (f := fun s => .done (forceQwb n s)) fun s s' hs =>
    ⟨_, congrArg _ (writeLoc_qwbInit n s'), hs.updateSlot n _⟩
  have htransform := hforce.andThen fun s s' hs => transformStage_followedBy (n := n) hs
  have hheader := htransform.andThen fun s s' hs => hdrencStage_followedBy (n := n) (ext := ext) hs
  exact hheader.andThen fun s s' hs => coefencStage_followedBy hs

theorem CmdResult.FollowedBy.slots {r : CmdResult} {o : Host.Outcome State Fault Refusal} (h : r.FollowedBy o)
    (ext : Bool) (l : List (Fin 4)) :
    (l.foldl (fun r n => r.andThen (buildSlot ext n)) r).FollowedBy (l.foldl (thenSlotCommands ext) o) := by
  induction l generalizing r o with
  | nil => exact h
  | cons n l ih => exact ih (h.slot ext n)

theorem buildMessage_followedBy (count : Nat) (ext : Bool) (type : BitVec 8) (s : State) :
    (buildMessage count ext type s).FollowedBy (stageCommands count ext type s) := by
  rw [stageCommands_eq]
  exact ((ghdrStage_followedBy type s).slots ext (buildSlots count)).andThen fun _ _ hs => termStage_followedBy hs

/-- Where BUILD succeeds its stage commands do, and leave the same data and ERR (R248). -/
theorem buildStage_followedBy (count : Nat) (ext : Bool) (type : BitVec 8) (s : State) :
    (buildStage count ext type s).FollowedBy (stageCommands count ext type s) := by
  have hmessage := buildMessage_followedBy count ext type s
  rcases buildStage_cases count ext type s with
    ⟨-, e⟩ | ⟨-, -, ⟨t, hm, e⟩ | ⟨err, t, -, e⟩ | ⟨f, -, e⟩⟩ <;> rw [e]
  · trivial
  · rwa [hm] at hmessage
  · trivial
  · trivial

/-- Settles O51: BUILD succeeds on such samples, so its stage commands do too; neither touches ERR, and the completion
steps between the commands change no data. -/
theorem buildEqualsTheStageCommands : Obligations.BuildEqualsTheStageCommands := by
  unfold Obligations.BuildEqualsTheStageCommands
  intro s count ext type ws hpos hcount hsamples
  obtain ⟨-, t, ht, -⟩ := exists_buildStage_done ext type hpos hcount hsamples
  have hstatus := (statusAndControlKept_keptByEffects s fun _ => True).buildStage_holds (count := count)
    (fun _ _ => trivial) ext type ⟨rfl, controlKept_refl s⟩
  have hfollowed := buildStage_followedBy count ext type s
  rw [ht] at hstatus hfollowed
  have herr : t.status.err = s.status.err := congrArg Status.err hstatus.1
  obtain ⟨u, hu, hsame⟩ := hfollowed
  exact ⟨complete none t, u, exec_of_done (i := .build count ext type) ht, hu, herr, hsame.err.trans herr, hsame.data⟩

end Sys2Proof.Machine
end

section
/-! ### Commands that end in error and words that are no command (R260, R262, R264) -/

namespace Sys2Proof.Machine

/-- Every command but BUILD makes its checks before its first effect, so it raises its errors in the state it started
in (R264). -/
theorem state_of_stageOf_error {i : Instr} {e : CmdError} {s u : State} (hi : ∀ c x y, i ≠ .build c x y)
    (h : stageOf i s = .error e u) : u = s := by
  cases i with
  | nop => cases h
  | prescan n => rcases prescanStage_cases n s with ⟨_, -, hs⟩ | ⟨_, hs⟩ <;> cases hs.symm.trans h
  | transform n =>
    rcases transformStage_cases n s with ⟨-, hs⟩ | ⟨-, _, -, hs⟩ | ⟨-, _, hs⟩ <;> cases hs.symm.trans h
    rfl
  | hdrenc n ext =>
    rcases hdrencStage_cases n ext s with ⟨-, hs⟩ | ⟨-, _, -, hs⟩ | ⟨-, _, hs⟩ <;> cases hs.symm.trans h
    rfl
  | coefenc n =>
    rcases coefencStage_cases n s with ⟨_, -, -, hs⟩ | ⟨_, -, -, hs⟩ | ⟨_, hs⟩ <;> cases hs.symm.trans h
    rfl
  | ghdr type => cases h
  | term =>
    rcases termStage_cases s with ⟨-, hs⟩ | ⟨-, hs⟩ <;> cases hs.symm.trans h
    rfl
  | sclr => cases h
  | build count ext type => exact absurd rfl (hi count ext type)

/-- A command that succeeds leaves STATUS to the completion step (R37, R263). -/
theorem status_of_stageOf_done {i : Instr} {s u : State} (h : stageOf i s = .done u) : u.status = s.status := by
  have hkept := (statusAndControlKept_keptByEffects s _).stageOf_holds i ⟨rfl, controlKept_refl s⟩
  rw [h] at hkept
  exact hkept.1

/-- Settles O28: ERR goes from 0 to 1 only by an error, and the stage raises it in the state it started in. -/
theorem failingCommandsHaveNoEffect : Obligations.FailingCommandsHaveNoEffect := by
  unfold Obligations.FailingCommandsHaveNoEffect
  intro i s t hi ht hbefore hafter
  rw [exec_eq_finish] at ht
  rcases finish_eq_next.1 ht with ⟨u, hu, rfl⟩ | ⟨e, u, hu, rfl⟩
  · rw [complete_status, complete_none_err, status_of_stageOf_done hu, hbefore] at hafter
    cases hafter
  · rw [state_of_stageOf_error hi hu]
    exact ⟨rfl, rfl, rfl, rfl⟩

/-- The step of a host write to CMD while BUSY = 0 (R121). -/
theorem step_issues {s : State} {w : Word} {rest : List Turn} (hidle : s.status.busy = false)
    (h : s.schedule = .host { offset := 0x0008, width := 4, kind := .write w } :: rest) :
    step s = .next (issue w { s with schedule := rest }) := by
  rw [step_of_host_write (by decide) h, locate_cmd, hostWrite, hidle]
  rfl

/-- Settles O8: a word of no row does not decode, so the write to CMD latches it and completes with ILLEGAL. -/
theorem illegalCommandEndsAtOnce : Obligations.IllegalCommandEndsAtOnce := by
  unfold Obligations.IllegalCommandEndsAtOnce
  intro s w rest hidle hnone h
  have hstep := step_issues hidle h
  rcases issue_cases w { s with schedule := rest } with ⟨i, hi, -⟩ | ⟨_, -, e⟩
  · obtain ⟨r, hr, hmatch⟩ := (wordDecodesIffOneRowMatches.1 w).1 ⟨i, hi⟩
    exact absurd hmatch (hnone r hr)
  · rw [e] at hstep
    exact ⟨_, hstep, rfl, rfl, ⟨rfl, rfl, rfl, rfl⟩, rfl, rfl, rfl⟩

end Sys2Proof.Machine
end

section
/-! ### Which words a command can fault on (R53, R54, R295) -/

namespace Sys2Proof.Machine

/-! #### No effect of a command marks a byte unwritten again -/

/-- Every byte written in `m` is written in `m'`. -/
def Memory.WrittenKept (m m' : Memory) : Prop := ∀ a, (m.load a).isSome = true → (m'.load a).isSome = true

namespace Memory.WrittenKept
variable {m m' : Memory}

theorem refl (m : Memory) : m.WrittenKept m := fun _ h => h

theorem store (h : m.WrittenKept m') (a : Nat) (bs : List Byte) : m.WrittenKept (m'.store a bs) := by
  intro x hx
  rw [load_store]
  split
  next hin =>
    rw [List.getElem?_eq_getElem (by omega)]
    rfl
  next => exact h x hx

theorem refresh (h : m.WrittenKept m') (lo hi : Nat) (f : Nat → Byte) : m.WrittenKept (m'.refresh lo hi f) := by
  intro x hx
  rw [load_refresh_isSome]
  exact h x hx

theorem loadWord_isSome (h : m.WrittenKept m') {a : Nat} (hw : (m.loadWord a).isSome = true) :
    (m'.loadWord a).isSome = true := by
  rw [Machine.loadWord_isSome] at hw ⊢
  simp only [Bool.and_eq_true] at hw ⊢
  obtain ⟨⟨⟨h0, h1⟩, h2⟩, h3⟩ := hw
  exact ⟨⟨⟨h _ h0, h _ h1⟩, h _ h2⟩, h _ h3⟩

/-- A word unwritten afterwards was unwritten before. -/
theorem loadWord_eq_none (h : m.WrittenKept m') {a : Nat} (hnone : m'.loadWord a = none) : m.loadWord a = none := by
  by_contra hsome
  have hsome' := h.loadWord_isSome (Option.isSome_iff_ne_none.2 hsome)
  rw [hnone] at hsome'
  cases hsome'

end Memory.WrittenKept

/-- Only power-on reset sets the marks of R295: the effects of the commands store and refresh bytes. -/
theorem writtenKept_keptByEffects (m : Memory) (slots : Fin 4 → Prop) :
    KeptByEffects (fun s => m.WrittenKept s.mem) slots where
  engine _ _ h := h
  draws _ _ h := h
  slot _ _ _ _ _ h := h
  passes s h := by
    rw [transformPasses_mem]
    exact (h.store _ _).store _ _
  clear _ h := h
  append _ _ _ h := h.store _ _
  free _ _ _ h := ((h.store _ _).refresh _ _ _).store _ _

/-! #### The fault of a stage names a word that the stage reads -/

/-- The fault names a word of the sample RAM or of COEF that is unwritten in `m`. -/
def NamesUnwritten (m : Memory) (f : Fault) : Prop :=
  ∃ a, f = .unwrittenState a ∧ m.loadWord a = none ∧ ((0x1000 ≤ a ∧ a < 0x2000) ∨ (0x3000 ≤ a ∧ a < 0x3400))

theorem NamesUnwritten.of_writtenKept {m m' : Memory} {f : Fault} (h : NamesUnwritten m' f) (hkept : m.WrittenKept m') :
    NamesUnwritten m f := by
  obtain ⟨a, hf, hnone, hrange⟩ := h
  exact ⟨a, hf, hkept.loadWord_eq_none hnone, hrange⟩

/-- The fault of a result, where it is one, satisfies `F`. -/
def CmdResult.FaultIn (F : Fault → Prop) : CmdResult → Prop
  | .done _ => True
  | .error _ _ => True
  | .fault f => F f

theorem CmdResult.FaultIn.mono {F G : Fault → Prop} {r : CmdResult} (h : r.FaultIn F) (hFG : ∀ f, F f → G f) :
    r.FaultIn G := by
  cases r with
  | done s => trivial
  | error e s => trivial
  | fault f => exact hFG f h

theorem CmdResult.FaultIn.andThen {P : State → Prop} {F : Fault → Prop} {r : CmdResult} {f : State → CmdResult}
    (h : r.FaultIn F) (hholds : r.Holds P) (hf : ∀ s, P s → (f s).FaultIn F) : (r.andThen f).FaultIn F := by
  cases r with
  | done s => exact hf s hholds
  | error e s => trivial
  | fault x => exact h

theorem foldl_andThen_faultIn {P : State → Prop} {F : Fault → Prop} {f : Fin 4 → State → CmdResult} (l : List (Fin 4))
    (hkeeps : ∀ n s, P s → (f n s).Holds P) (hfaults : ∀ n s, P s → (f n s).FaultIn F) {r : CmdResult}
    (hholds : r.Holds P) (h : r.FaultIn F) : (l.foldl (fun r n => r.andThen (f n)) r).FaultIn F := by
  induction l generalizing r with
  | nil => exact h
  | cons n l ih => exact ih (hholds.andThen (hkeeps n)) (h.andThen hholds (hfaults n))

section Stages
variable {n : Fin 4} {ext : Bool} {s : State}

theorem withSamples_faultIn {f : List Word → CmdResult} (hf : ∀ ws, (f ws).FaultIn (NamesUnwritten s.mem)) :
    (withSamples n s f).FaultIn (NamesUnwritten s.mem) := by
  rcases withSamples_cases n s f with ⟨ws, -, e⟩ | ⟨a, hload, e⟩ <;> rw [e]
  · exact hf ws
  · obtain ⟨k, hk, ha, hnone⟩ := loadWords_error hload
    unfold sampleBase at ha
    exact ⟨a, rfl, hnone, .inl ⟨by omega, by omega⟩⟩

theorem withCoefs_faultIn {f : List Word → CmdResult} (hf : ∀ cs, (f cs).FaultIn (NamesUnwritten s.mem)) :
    (withCoefs s f).FaultIn (NamesUnwritten s.mem) := by
  rcases withCoefs_cases s f with ⟨cs, -, e⟩ | ⟨a, hload, e⟩ <;> rw [e]
  · exact hf cs
  · obtain ⟨k, hk, ha, hnone⟩ := loadWords_error hload
    unfold coefBase at ha
    exact ⟨a, rfl, hnone, .inr ⟨by omega, by omega⟩⟩

theorem prescanStage_faultIn : (prescanStage n s).FaultIn (NamesUnwritten s.mem) := withSamples_faultIn fun _ => trivial

theorem transformStage_faultIn : (transformStage n s).FaultIn (NamesUnwritten s.mem) := by
  unfold transformStage
  split
  · trivial
  · exact withSamples_faultIn fun _ => trivial

theorem hdrencStage_faultIn : (hdrencStage n ext s).FaultIn (NamesUnwritten s.mem) := by
  unfold hdrencStage
  split
  · trivial
  · exact withCoefs_faultIn fun _ => trivial

theorem coefencStage_faultIn : (coefencStage n s).FaultIn (NamesUnwritten s.mem) := by
  refine withCoefs_faultIn fun cs => ?_
  dsimp only
  split <;> trivial

theorem termStage_faultIn (F : Fault → Prop) : (termStage s).FaultIn F := by
  rcases termStage_cases s with ⟨-, e⟩ | ⟨-, e⟩ <;> rw [e] <;> trivial

/-- The fault of a stage inside a command names a word that was unwritten when the command started. -/
theorem CmdResult.FaultIn.of_writtenKept {m : Memory} {r : CmdResult} (h : r.FaultIn (NamesUnwritten s.mem))
    (hkept : m.WrittenKept s.mem) : r.FaultIn (NamesUnwritten m) :=
  h.mono fun _ hf => hf.of_writtenKept hkept

variable {m : Memory}

theorem buildSlot_faultIn (hs : m.WrittenKept s.mem) : (buildSlot ext n s).FaultIn (NamesUnwritten m) := by
  have heffects := writtenKept_keptByEffects m fun _ => True
  refine (prescanStage_faultIn.of_writtenKept (heffects.holds_enterSlot n hs)).andThen
    (heffects.stageOf_holds (.prescan n) (heffects.holds_enterSlot n hs)) fun s1 h1 => ?_
  have hforce := heffects.holds_forceQwb (n := n) trivial h1
  refine (transformStage_faultIn.of_writtenKept hforce).andThen
    (heffects.stageOf_holds (.transform n) hforce) fun s2 h2 => ?_
  exact (hdrencStage_faultIn.of_writtenKept h2).andThen (heffects.stageOf_holds (.hdrenc n ext) h2) fun _ h3 =>
    coefencStage_faultIn.of_writtenKept h3

theorem buildMessage_faultIn (count : Nat) (ext : Bool) (type : BitVec 8) (s : State) :
    (buildMessage count ext type s).FaultIn (NamesUnwritten s.mem) := by
  have heffects := writtenKept_keptByEffects s.mem fun _ => True
  have hstart : (ghdrStage type s).Holds fun t => s.mem.WrittenKept t.mem :=
    heffects.holds_groupHeader type (.refl s.mem)
  have hslot : ∀ n t, s.mem.WrittenKept t.mem → (buildSlot ext n t).Holds fun t => s.mem.WrittenKept t.mem :=
    fun n t => heffects.buildSlot_holds (n := n) trivial ext
  exact (foldl_andThen_faultIn _ hslot (fun n t => buildSlot_faultIn) hstart trivial).andThen
    (foldl_andThen_keeps _ (fun n _ => hslot n) hstart) fun _ _ => termStage_faultIn _

theorem buildStage_faultIn (count : Nat) (ext : Bool) (type : BitVec 8) (s : State) :
    (buildStage count ext type s).FaultIn (NamesUnwritten s.mem) := by
  have hmessage := buildMessage_faultIn count ext type s
  rcases buildStage_cases count ext type s with ⟨-, e⟩ | ⟨-, -, ⟨t, -, e⟩ | ⟨err, t, -, e⟩ | ⟨f, hm, e⟩⟩ <;> rw [e]
  · trivial
  · trivial
  · trivial
  · rwa [hm] at hmessage

end Stages

theorem stageOf_faultIn (i : Instr) (s : State) : (stageOf i s).FaultIn (NamesUnwritten s.mem) := by
  cases i with
  | nop | ghdr _ | sclr => trivial
  | prescan n => exact prescanStage_faultIn
  | transform n => exact transformStage_faultIn
  | hdrenc n ext => exact hdrencStage_faultIn
  | coefenc n => exact coefencStage_faultIn
  | term => exact termStage_faultIn _
  | build count ext type => exact buildStage_faultIn count ext type s

theorem finish_eq_fault {r : CmdResult} {f : Fault} (h : finish r = .fault f) : r = .fault f := by
  cases r <;> cases h
  rfl

/-- Settles O30: each read names an unwritten word of what it reads, and inside BUILD no stage before it has marked a
word unwritten. -/
theorem commandsFaultOnlyOnUnwrittenState : Obligations.CommandsFaultOnlyOnUnwrittenState := by
  unfold Obligations.CommandsFaultOnlyOnUnwrittenState
  intro i s f h
  have hfault := stageOf_faultIn i s
  rw [exec_eq_finish] at h
  rw [finish_eq_fault h] at hfault
  exact hfault

end Sys2Proof.Machine
end

section
/-! ### The resets and CTRL (R33, R290 to R293) -/

namespace Sys2Proof.Machine

theorem locate_ctrl : locate 0x0000 = .ctrl := locate_control.1.2 rfl

theorem ctrlWord_eq (ie : Bool) : ctrlWord ie = if ie then 1 else 0 := by cases ie <;> rfl

/-- Settles O10: of a write to CTRL only bit 0 counts where bit 1 is 0, and no command writes CTRL. -/
theorem ctrlHoldsInterruptEnable : Obligations.CtrlHoldsInterruptEnable := by
  unfold Obligations.CtrlHoldsInterruptEnable
  intro s v rest
  refine ⟨fun hbit h => ?_, fun h => ?_⟩
  · rw [step_of_host_write (by decide) h, locate_ctrl, hostWrite, hbit]
    rfl
  · exact ⟨_, step_reads (by decide) locate_ctrl (.inr rfl) h, ctrlWord_eq s.ie⟩

/-! #### Power-on reset -/

theorem toWord_reset : Status.reset.toWord = 0 := by decide

theorem streamLen_of_bitpos_zero {s : State} (h : s.bitpos = 0) : streamLen s = 0 := by
  rw [streamLen, h]
  rfl

theorem step_of_powerOn {s : State} {rest : List Turn} (h : s.schedule = .powerOn :: rest) :
    step s = .next (powerOnReset { s with schedule := rest }) := by
  unfold step
  rw [h]

/-- Power-on reset at reset, with nothing more to come, changes nothing (R290). -/
theorem powerOnReset_reset : powerOnReset State.reset = State.reset := rfl

/-- Settles O24: the table of R290 is that of the reset state, which is idle and so waits. -/
theorem powerOnResetsEverything : Obligations.PowerOnResetsEverything := by
  unfold Obligations.PowerOnResetsEverything
  refine ⟨fun s rest h => ?_, ?_, rfl⟩
  · exact ⟨_, step_of_powerOn h, rfl, toWord_reset, rfl, rfl, streamLen_of_bitpos_zero rfl, powerOnReset_slot _,
      fun _ => rfl, rfl, rfl⟩
  · exact (step_of_powerOn rfl).trans (congrArg _ powerOnReset_reset)

/-- Settles O52: the reset state is what power-on reset leaves. -/
theorem invariantHoldsAtReset : Obligations.InvariantHoldsAtReset := by
  unfold Obligations.InvariantHoldsAtReset
  rw [← powerOnReset_reset]
  exact inv_powerOnReset State.reset

/-! #### Soft reset -/

theorem softResetMemory_of_idle {s : State} (h : s.status.busy = false) : softResetMemory s = s.mem := by
  unfold softResetMemory
  rw [h]
  rfl

theorem softResetMemory_of_running {s : State} {i : Instr} (h : s.status.busy = true)
    (hi : decode s.engine.command = .ok i) : softResetMemory s = abortMemory s.draws i s.mem := by
  simp only [softResetMemory, h, hi, if_true]

/-- Only TRANSFORM and BUILD lose COEF and ROWBUF when aborted (R292). -/
theorem abortMemory_load_of_stream_only {i : Instr} (htransform : ∀ n, i ≠ .transform n)
    (hbuild : ∀ c e y, i ≠ .build c e y) (draw : Nat) (m : Memory) {a : Nat} (ha : 0x3000 ≤ a) :
    (abortMemory draw i m).load a = m.load a := by
  cases i with
  | nop | prescan _ | sclr => rfl
  | hdrenc _ _ | coefenc _ | ghdr _ | term => exact freeStream_load_outside (.inr ha)
  | transform n => exact absurd rfl (htransform n)
  | build c e y => exact absurd rfl (hbuild c e y)

theorem softResetMemory_load_of_stream_only {s : State} {i : Instr} (hi : decode s.engine.command = .ok i)
    (htransform : ∀ n, i ≠ .transform n) (hbuild : ∀ c e y, i ≠ .build c e y) {a : Nat} (ha : 0x3000 ≤ a) :
    (softResetMemory s).load a = s.mem.load a := by
  cases hbusy : s.status.busy with
  | false => rw [softResetMemory_of_idle hbusy]
  | true =>
    rw [softResetMemory_of_running hbusy hi]
    exact abortMemory_load_of_stream_only htransform hbuild _ _ ha

theorem freeTransform_coefs (draw : Nat) (m : Memory) :
    (freeTransform draw m).loadWords coefBase 256 = .ok (freeWords draw 256 256) := by
  have hload := loadWords_storeWords coefBase (freeWords draw 256 256) (freeRowbuf draw m)
  rwa [freeWords_length] at hload

/-- An aborted TRANSFORM or BUILD leaves every word of COEF written (R292). -/
theorem abortMemory_coefs {i : Instr} (h : (∃ n, i = .transform n) ∨ ∃ c e y, i = .build c e y) (draw : Nat)
    (m : Memory) : (abortMemory draw i m).loadWords coefBase 256 = .ok (freeWords draw 256 256) := by
  rcases h with ⟨n, rfl⟩ | ⟨c, e, y, rfl⟩
  · exact freeTransform_coefs draw m
  · rw [← freeTransform_coefs draw m]
    exact loadWords_congr fun _ hlo _ => freeStream_load_outside (.inr hlo)

theorem step_soft_resets {s : State} {v : Word} {rest : List Turn} (hbit : v.getLsbD 1 = true)
    (h : s.schedule = .host { offset := 0x0000, width := 4, kind := .write v } :: rest) :
    step s = .next (softReset { s with schedule := rest }) := by
  rw [step_of_host_write (by decide) h, locate_ctrl, hostWrite, hbit]
  rfl

/-- Settles O25: the registers are those of the reset state, and the memory is what the aborted command leaves. -/
theorem softResetResetsRegistersKeepsSamples : Obligations.SoftResetResetsRegistersKeepsSamples := by
  unfold Obligations.SoftResetResetsRegistersKeepsSamples
  intro s v rest hbit h
  refine ⟨_, step_soft_resets hbit h, rfl, toWord_reset, rfl, rfl, softReset_slot _, rfl, ?_, ?_, ?_, ?_⟩
  · exact fun a ha => softResetMemory_load_sample (s := { s with schedule := rest }) ha
  · exact fun hidle => softResetMemory_of_idle (s := { s with schedule := rest }) hidle
  · exact fun i hi htransform hbuild a ha =>
      softResetMemory_load_of_stream_only (s := { s with schedule := rest }) hi htransform hbuild ha
  · intro i hbusy hi hcoef
    refine ⟨freeWords s.draws 256 256, ?_⟩
    rw [Coefs, softReset_mem, softResetMemory_of_running (s := { s with schedule := rest }) hbusy hi]
    exact abortMemory_coefs hcoef _ _

end Sys2Proof.Machine
end
